-- ==== Sys2Proof/Word.lean ====
section
/-! DEFINITION. The words FFTC handles and the small types that name its registers and their halves. -/

namespace Sys2Proof

/-- A 64-bit host word: the only access width (R38). A binary64 number is such a word (R65). -/
abbrev Word := BitVec 64

/-- A 32-bit word address (R32). -/
abbrev Addr := BitVec 32

/-- The 97-bit transaction record of format TXN (R50). -/
abbrev TxnWord := BitVec 97

/-- A complex value: a pair of binary64 words, compared by value (R65). Every bit pattern is legal. -/
structure ComplexValue where
  re : Word
  im : Word
  deriving DecidableEq, Repr

/-- The half of a complex element that a word address names: the real part has the lower address (R36, R38). -/
inductive Component where
  | re
  | im
  deriving DecidableEq, Repr

/-- The complex operand registers, which the host writes and no command writes (R11). -/
inductive OperandReg where
  | ca
  | cb
  | cw
  deriving DecidableEq, Repr

/-- The complex result registers, which commands write and the host only reads (R12). -/
inductive ResultReg where
  | cr0
  | cr1
  deriving DecidableEq, Repr

/-- The two command errors that `STATUS.ECODE` can record (R15, R120); codes 3 to 15 are never produced (U7). -/
inductive ErrorCode where
  | invalidLength
  | illegalCommand
  deriving DecidableEq, Repr

/-- One half of a complex value. -/
def ComplexValue.half (z : ComplexValue) : Component → Word
  | .re => z.re
  | .im => z.im

/-- A complex value with one half replaced; the other half is not touched (R34). -/
def ComplexValue.setHalf (z : ComplexValue) (c : Component) (w : Word) : ComplexValue :=
  match c with
  | .re => { z with re := w }
  | .im => { z with im := w }

end Sys2Proof
end

