-- ==== Sys2Proof/Config.lean ====
section
/-! DEFINITION. What an implementation fixes and the free values: opaque, so no proof can see what they are. -/

namespace Sys2Proof

/-- A source of NaN draws within one command: a raw word for every operation, named by its place in the command
(R71: drawn anew at every operation). -/
abbrev Draw := List Nat → Word

/-- `LOG2_NMAX`, between 0 and 29 (R5, D6: OPEN). What `CAP` holds after reset. -/
opaque Config.log2Nmax : Fin 30

/-- The raw word a produced NaN takes its sign and fraction from (R71, D16). First argument: the draw input that the
port event carries (R31); second: the place of the operation within the command. -/
opaque Config.nanDraw : Nat → List Nat → Word

/-- A data word that nothing has written since reset (U1). First argument: the draw input that the port
event carries; second: the word address. -/
opaque Config.unwrittenWord : Nat → Nat → Word

/-- `COS` away from what P1, P2 and P4 fix, before it is folded into the range of P3 (R72, D20: OPEN). -/
opaque Config.rawCos : Word → Word

/-- `SIN` away from what P1, P2 and P4 fix, before it is folded into the range of P3 (R72, D20: OPEN). -/
opaque Config.rawSin : Word → Word

/-- `EXPF` away from what P1 and P2 fix, before it is folded into the range of P3 (R72, D20: OPEN). -/
opaque Config.rawExpf : Word → Word

end Sys2Proof
end

