-- ==== Sys2Proof/Machine/Binary64.lean ====
section
/-! DEFINITION. Binary64 arithmetic (R65 to R73): operands are turned into integers, the result is computed exactly and
rounded once. Magnitudes are counted in units of 2^-1074, the smallest subnormal. -/

namespace Sys2Proof.Machine

/-- The sign, bit 63 (R38). -/
def fsign (a : Word) : Bool := a.getLsbD 63

/-- The biased exponent, bits 62:52 (R38). -/
def fexp (a : Word) : Nat := a.toNat / 2 ^ 52 % 2 ^ 11

/-- The fraction, bits 51:0 (R38). -/
def ffrac (a : Word) : Nat := a.toNat % 2 ^ 52

/-- A NaN: exponent all ones, fraction not zero. -/
def isNaN (a : Word) : Bool := fexp a == 0x7FF && ffrac a != 0

/-- An infinity: exponent all ones, fraction zero. -/
def isInf (a : Word) : Bool := fexp a == 0x7FF && ffrac a == 0

/-- Neither a NaN nor an infinity. -/
def isFinite (a : Word) : Bool := fexp a != 0x7FF

/-- `+0` or `-0`. -/
def isZero (a : Word) : Bool := fexp a == 0 && ffrac a == 0

/-- A NaN whose bit 51 is 1. -/
def isQuietNaN (a : Word) : Bool := isNaN a && a.getLsbD 51

def posZero : Word := 0x0000000000000000
def negZero : Word := 0x8000000000000000
def posInf : Word := 0x7FF0000000000000
def fone : Word := 0x3FF0000000000000

/-- The magnitude of a finite number in units of 2^-1074; subnormals at their value (R66). -/
def fmag (a : Word) : Nat :=
  if fexp a = 0 then ffrac a else (2 ^ 52 + ffrac a) * 2 ^ (fexp a - 1)

/-- The value of a finite number in units of 2^-1074. -/
def fval (a : Word) : Int :=
  if fsign a then -(fmag a : Int) else (fmag a : Int)

/-- The bits 62:0 of the binary64 nearest to `num / den` units of 2^-1074, ties to even, infinity on overflow (R66,
R68 a). `k` is how many bits fall below the last place, `m` the truncated significand. Adding `k * 2^52` to the rounded
significand gives the exponent field: a carry out of the significand lands in it, and a subnormal has `k = 0`. -/
def roundMag (num den : Nat) : Nat :=
  let k := Nat.log2 (num / den) - 52
  let unit := den * 2 ^ k
  let m := num / unit
  let r := num % unit
  let m' := if unit < 2 * r ∨ (2 * r = unit ∧ m % 2 = 1) then m + 1 else m
  min (k * 2 ^ 52 + m') (0x7FF * 2 ^ 52)

/-- A word from its sign and its bits 62:0. -/
def withSign (sign : Bool) (bits : Nat) : Word :=
  BitVec.ofBool sign ++ BitVec.ofNat 63 bits

/-- The quiet NaN with the sign and the fraction bits 50:0 of a raw word: every quiet NaN is one (R71). -/
def quietNaN (raw : Word) : Word := raw ||| 0x7FF8000000000000

/-- `fneg`: bit 63 inverted and nothing else, also of a NaN (R71; 00_scope.md section 5.2). -/
def fneg (a : Word) : Word := a ^^^ 0x8000000000000000

/-- The sum or difference of two finite numbers from its exact value; `zeroSign` is the sign of an exact zero (R66,
R67 b). -/
def roundSum (v : Int) (zeroSign : Bool) : Word :=
  if v = 0 then withSign zeroSign 0 else withSign (decide (v < 0)) (roundMag v.natAbs 1)

/-- `fadd` (R66, R67, R68, R71); `raw` is the draw of a produced NaN. -/
def fadd (raw a b : Word) : Word :=
  if isNaN a || isNaN b then quietNaN raw
  else if isInf a then
    if isInf b && fsign a != fsign b then quietNaN raw else a
  else if isInf b then b
  else roundSum (fval a + fval b) (fsign a && fsign b)

/-- `fsub` (R66, R67, R68, R71). -/
def fsub (raw a b : Word) : Word :=
  if isNaN a || isNaN b then quietNaN raw
  else if isInf a then
    if isInf b && fsign a == fsign b then quietNaN raw else a
  else if isInf b then fneg b
  else roundSum (fval a - fval b) (fsign a && !fsign b)

/-- `fmul` (R66, R67 a, R68, R71). The exact product of two magnitudes is in units of 2^-2148. -/
def fmul (raw a b : Word) : Word :=
  let sign := fsign a != fsign b
  if isNaN a || isNaN b then quietNaN raw
  else if isInf a then
    if isZero b then quietNaN raw else withSign sign posInf.toNat
  else if isInf b then
    if isZero a then quietNaN raw else withSign sign posInf.toNat
  else withSign sign (roundMag (fmag a * fmag b) (2 ^ 1074))

/-- `u2f`: an unsigned integer as binary64 (00_scope.md section 5.2; exact below 2^53, R103 d). -/
def u2f (k : Nat) : Word := withSign false (roundMag (k * 2 ^ 1074) 1)

end Sys2Proof.Machine
end

