-- ==== Sys2Proof/Machine/Transcendental.lean ====
section
/-! DEFINITION. `COS`, `SIN` and `EXPF` (R72): what the named properties P1, P2 and P4 fix, and elsewhere a free value
folded into the range P3 allows. Every function with the properties P1 to P4 is one of these. -/

namespace Sys2Proof.Machine

/-- One row of the reference table of P4: argument, cosine, sine. -/
def trigTable : List (Word × Word × Word) :=
  [(0xBFD921FB54442D18, 0x3FED906BCF328D46, 0xBFD87DE2A6AEA963),
   (0xBFE921FB54442D18, 0x3FE6A09E667F3BCD, 0xBFE6A09E667F3BCC),
   (0xBFF2D97C7F3321D2, 0x3FD87DE2A6AEA964, 0xBFED906BCF328D46),
   (0xBFF921FB54442D18, 0x3C91A62633145C07, 0xBFF0000000000000),
   (0xBFFF6A7A2955385E, 0xBFD87DE2A6AEA962, 0xBFED906BCF328D46),
   (0xC002D97C7F3321D2, 0xBFE6A09E667F3BCC, 0xBFE6A09E667F3BCD),
   (0xC005FDBBE9BBA775, 0xBFED906BCF328D46, 0xBFD87DE2A6AEA965),
   (0xC00921FB54442D18, 0xBFF0000000000000, 0xBCA1A62633145C07)]

/-- The row of an argument, if it is a reference point of P4. -/
def trigRow (a : Word) : List (Word × Word × Word) → Option (Word × Word)
  | [] => none
  | (t, cs) :: rest => if a = t then some cs else trigRow a rest

/-- Fold a raw word into the range P3 gives `COS` and `SIN`: a word of magnitude at most 1.0 is itself. -/
def clampUnit (raw : Word) : Word :=
  if raw.toNat % 2 ^ 63 ≤ fone.toNat then raw else withSign (fsign raw) fone.toNat

/-- Fold a raw word into the range P3 gives `EXPF`: a word with sign 0 that is not a NaN is itself. -/
def clampNonneg (raw : Word) : Word :=
  if isNaN raw then posInf else withSign false (raw.toNat % 2 ^ 63)

/-- `COS` (R72): P1, P2, P4, else P3. -/
def fcos (raw a : Word) : Word :=
  if isNaN a || isInf a then quietNaN raw
  else if isZero a then fone
  else
    match trigRow a trigTable with
    | some (c, _) => c
    | none => clampUnit (Config.rawCos a)

/-- `SIN` (R72): P1, P2, P4, else P3. -/
def fsin (raw a : Word) : Word :=
  if isNaN a || isInf a then quietNaN raw
  else if isZero a then a
  else
    match trigRow a trigTable with
    | some (_, s) => s
    | none => clampUnit (Config.rawSin a)

/-- `EXPF` (R72): P1, P2, else P3. -/
def fexpf (raw a : Word) : Word :=
  if isNaN a then quietNaN raw
  else if isInf a then if fsign a then posZero else posInf
  else if isZero a then fone
  else clampNonneg (Config.rawExpf a)

end Sys2Proof.Machine
end

