-- ==== Sys2Proof/Machine/Complex.lean ====
section
/-! DEFINITION. The complex functions (R75 to R78), the twiddle factor (R91, R92) and the butterfly (R93, R94). Each
written `*`, `+`, `-` is one rounded operation (R73) with a NaN draw of its own, named by its place (R71). All are pure
(R74). -/

namespace Sys2Proof.Machine

/-- The draws of a part of a computation, named `i` within the whole. -/
def drawSub (d : Draw) (i : Nat) : Draw := fun place => d (i :: place)

/-- `cadd`: the componentwise sum (R75). -/
def cadd (d : Draw) (a b : ComplexValue) : ComplexValue :=
  ⟨fadd (d [0]) a.re b.re, fadd (d [1]) a.im b.im⟩

/-- `csub`: the componentwise difference (R76). -/
def csub (d : Draw) (a b : ComplexValue) : ComplexValue :=
  ⟨fsub (d [0]) a.re b.re, fsub (d [1]) a.im b.im⟩

/-- `cmul`: the complex product, four products, a difference and a sum (R77). -/
def cmul (d : Draw) (a b : ComplexValue) : ComplexValue :=
  let p1 := fmul (d [0]) a.re b.re
  let p2 := fmul (d [1]) a.im b.im
  let p3 := fmul (d [2]) a.re b.im
  let p4 := fmul (d [3]) a.im b.re
  ⟨fsub (d [4]) p1 p2, fadd (d [5]) p3 p4⟩

/-- `cexp`: `exp(z.re) * (cos(z.im) + i sin(z.im))`, applied literally for every operand (R78). -/
def cexp (d : Draw) (z : ComplexValue) : ComplexValue :=
  let e := fexpf (d [0]) z.re
  let c := fcos (d [1]) z.im
  let s := fsin (d [2]) z.im
  ⟨fmul (d [3]) e c, fmul (d [4]) e s⟩

/-- Twice the binary64 nearest to pi (R91). -/
def twoPi : Word := 0x401921FB54442D18

/-- `theta(k, n)` for `n = 2^m`: the real number `TWO_PI * k / n` rounded once, then negated (R91). -/
def theta (k m : Nat) : Word :=
  fneg (withSign false (roundMag (fmag twoPi * k) (2 ^ m)))

/-- `twiddle(k, n)` for `n = 2^m` (R92). -/
def twiddle (d : Draw) (k m : Nat) : ComplexValue :=
  cexp d ⟨posZero, theta k m⟩

/-- `bfly`: `(a + w*b, a - w*b)`, the product computed once, `w` first (R93); the signs are opposite (R94). -/
def bfly (d : Draw) (a b w : ComplexValue) : ComplexValue × ComplexValue :=
  let t := cmul (drawSub d 0) w b
  (cadd (drawSub d 1) a t, csub (drawSub d 2) a t)

end Sys2Proof.Machine
end

