-- ==== Sys2Proof/Machine/Fft.lean ====
section
/-! DEFINITION. The transform: the recursion that defines it (R95, R96), and the cascade of stages (R98). Both are
written over any butterfly, so that the same recursion can be read in binary64 (R96) and in the complex numbers (R97). -/

namespace Sys2Proof.Machine

/-- The elements at even positions: `even[j] = x[2j]` (R96, Split). -/
def evens {α : Type} : List α → List α
  | [] => []
  | [a] => [a]
  | a :: _ :: rest => a :: evens rest

/-- The elements at odd positions: `odd[j] = x[2j+1]` (R96, Split). -/
def odds {α : Type} : List α → List α
  | [] => []
  | [_] => []
  | _ :: b :: rest => b :: odds rest

/-- The butterflies number `k`, `k+1`, ... of a combine step on the spectra `G` and `U` (R96, Combine). -/
def butterflies {α : Type} (bf : Nat → α → α → α × α) (k : Nat) : List α → List α → List (α × α)
  | g :: gs, u :: us => bf k g u :: butterflies bf (k + 1) gs us
  | _, _ => []

/-- A combine step: the first outputs, then the second outputs (R96: `output[0 .. n/2]` followed by `output[n/2 .. n]`). -/
def combine {α : Type} (bf : Nat → α → α → α × α) (g u : List α) : List α :=
  (butterflies bf 0 g u).map Prod.fst ++ (butterflies bf 0 g u).map Prod.snd

/-- `fft(x)` for a sequence of length `2^p` (R95, R96), over any butterfly `bf stride offset m k g u`: number `k` of the
combine step of length `2^m` that joins the spectra of the samples `offset`, `offset + stride`, ... of the outermost
sequence. The length at a level is that level's own. -/
def fftWith {α : Type} (bf : Nat → Nat → Nat → Nat → α → α → α × α) : Nat → Nat → Nat → List α → List α
  | 0, _, _, x => x
  | p + 1, stride, offset, x =>
    combine (bf stride offset (p + 1))
      (fftWith bf p (2 * stride) offset (evens x))
      (fftWith bf p (2 * stride) (offset + stride) (odds x))

/-- `bitrev_p(j)`: the `p`-bit representation of `j` read in the opposite order (00_scope.md section 5.1). -/
def bitrev : Nat → Nat → Nat
  | 0, _ => 0
  | p + 1, j => j % 2 * 2 ^ p + bitrev p (j / 2)

/-- The bit-reversed input `A_0` of the cascade (R98). -/
def bitReversed {α : Type} (p : Nat) (x : List α) : List α :=
  (List.range (2 ^ p)).filterMap fun j => x[bitrev p j]?

/-- Stage `s + 1` of the cascade: `A_{s+1}` from `A_s`, block by block (R98). -/
def cascadeStage {α : Type} (bf : Nat → Nat → Nat → Nat → α → α → α × α) (p s : Nat) (a : List α) : List α :=
  (List.range (2 ^ (p - (s + 1)))).flatMap fun q =>
    combine (bf (2 ^ (p - (s + 1))) (bitrev (p - (s + 1)) q) (s + 1))
      ((a.drop (q * 2 ^ (s + 1))).take (2 ^ s))
      ((a.drop (q * 2 ^ (s + 1) + 2 ^ s)).take (2 ^ s))

/-- The stages 1 to `count` in order (R98). -/
def cascadeStages {α : Type} (bf : Nat → Nat → Nat → Nat → α → α → α × α) (p : Nat) : Nat → List α → List α
  | 0, a => a
  | count + 1, a => cascadeStage bf p count (cascadeStages bf p count a)

/-- The butterfly cascade: all `p` stages on the bit-reversed input (R98). -/
def cascadeWith {α : Type} (bf : Nat → Nat → Nat → Nat → α → α → α × α) (p : Nat) (x : List α) : List α :=
  cascadeStages bf p p (bitReversed p x)

/-- The butterfly of a transform (R96, R98): the twiddle of the level's own length, draws named by the place. -/
def fftBfly (d : Draw) (stride offset m k : Nat) (g u : ComplexValue) : ComplexValue × ComplexValue :=
  let here := drawSub (drawSub (drawSub d stride) offset) k
  bfly (drawSub here 0) g u (twiddle (drawSub here 1) k m)

/-- `fft(x)` for `x` of length `2^p` (R95, R96). -/
def fft (d : Draw) (p : Nat) (x : List ComplexValue) : List ComplexValue :=
  fftWith (fftBfly d) p 1 0 x

/-- The cascade on `x` of length `2^p` (R98). -/
def cascade (d : Draw) (p : Nat) (x : List ComplexValue) : List ComplexValue :=
  cascadeWith (fftBfly d) p x

/-- `validLen(n)` for buffers of `nmax` elements (R90). The test `n >= 1` comes first (R103 a). -/
def validLen (nmax n : Nat) : Bool :=
  decide (1 ≤ n) && (n &&& (n - 1) == 0) && decide (n ≤ nmax)

end Sys2Proof.Machine
end

