-- ==== Sys2Proof/Machine/State.lean ====
section
/-! DEFINITION. The state of FFTC as plain data, the reasons a step can stop, and the state after reset. -/

namespace Sys2Proof.Machine

/-- What arrives at the port: a transaction, as its 97-bit record (R30, R50), or reset (R140). With each comes the draw
input: the third argument of `step(state, txn, draws)` (R31), as the number that selects its free values. -/
inductive PortEvent where
  | txn (t : TxnWord) (draw : Nat)
  | rst (draw : Nat)
  deriving DecidableEq, Repr

/-- The answer to a transaction (R56). Only the `OKAY` answer to an `RD` carries data; an answer `ACCFAULT` carries
none (U4). Response code 11 does not exist (U7). -/
inductive Response where
  /-- `OKAY` to a `WR`. -/
  | okay
  /-- `OKAY` to an `RD`, with the 64-bit word. -/
  | okayData (data : Word)
  /-- `CMDERR`: the command failed. -/
  | cmdErr
  /-- `ACCFAULT`: the access is not allowed. -/
  | accFault
  deriving DecidableEq, Repr

/-- The words of a buffer that something has written since reset, by word offset in the buffer's window (R36, R37),
offsets strictly rising. An offset not listed holds no written word. -/
abbrev Buffer := List (Nat × Word)

/-- A model-level fault. It has NO constructor: the three errors of R120 are answers, after which FFTC goes on (R127,
R128), and a word never written reads as a free value, so nothing in FFTC stops the machine. -/
inductive Fault where
  deriving DecidableEq, Repr

/-- Why an instruction has no meaning. `notModelled`: raised by an arm of `exec` for an instruction not written yet
(safe); no arm raises it. -/
inductive Refusal where
  | notModelled (mnemonic : String)
  deriving DecidableEq, Repr

/-- The complete architectural state (R10) and the port (R30). The NaN draw is no state (R25): it arrives at the port. -/
structure State where
  /-- `CAP`, the constant `NMAX = 2^LOG2_NMAX` (R19), by its exponent (R5). -/
  log2Nmax : Fin 30
  /-- `STATUS` (R15). -/
  status : Word
  /-- `LEN` (R17). -/
  len : Word
  /-- `YLEN` (R18). -/
  ylen : Word
  /-- `CA` (R11). -/
  ca : ComplexValue
  /-- `CB` (R11). -/
  cb : ComplexValue
  /-- `CW` (R11). -/
  cw : ComplexValue
  /-- `CR0` (R12). -/
  cr0 : ComplexValue
  /-- `CR1` (R12). -/
  cr1 : ComplexValue
  /-- The sample buffer `X` (R20). -/
  x : Buffer
  /-- The spectrum buffer `Y` (R21). -/
  y : Buffer
  /-- The inputs: what is still presented at the port, oldest first (R30, R31). While a transaction is performed it stands
  at the head. No state of FFTC. -/
  pending : List PortEvent
  /-- The response signals: the answer to the latest transaction, none since reset before the first (R30, R56). -/
  response : Option Response
  deriving DecidableEq, Repr

/-- The state right after reset (R24, R140). The complex registers have no value in the spec; the model names 0. -/
def State.reset : State where
  log2Nmax := Config.log2Nmax
  status := 0
  len := 0
  ylen := 0
  ca := ⟨0, 0⟩
  cb := ⟨0, 0⟩
  cw := ⟨0, 0⟩
  cr0 := ⟨0, 0⟩
  cr1 := ⟨0, 0⟩
  x := []
  y := []
  pending := []
  response := none

end Sys2Proof.Machine
end

