-- ==== Sys2Proof/Machine/Flags.lean ====
section
/-! DEFINITION. The flags FFTC has: the fields of `STATUS` (R15) and the response codes (R56). There are no arithmetic
flags and no floating-point exception flags (R70). -/

namespace Sys2Proof.Machine

/-- The value of `STATUS.ECODE` for an error (R15, R120). -/
def errorCode : ErrorCode → BitVec 4
  | .invalidLength => 1
  | .illegalCommand => 2

/-- `STATUS` from its fields: `DONE` bit 0, `ERR` bit 1, `ECODE` bits 11:8; bits 7:2 and 63:12 read as 0 (R15). -/
def packStatus (done err : Bool) (ecode : BitVec 4) : Word :=
  0#52 ++ ecode ++ 0#6 ++ BitVec.ofBool err ++ BitVec.ofBool done

/-- What a command that succeeds writes to `STATUS` (R15). -/
def statusSuccess : Word := packStatus true false 0

/-- What a command that fails writes to `STATUS` (R15, R120). -/
def statusFailure (e : ErrorCode) : Word := packStatus false true (errorCode e)

/-- Field `DONE` (R15). -/
def statusDone (status : Word) : Bool := status.getLsbD 0

/-- Field `ERR` (R15). -/
def statusErr (status : Word) : Bool := status.getLsbD 1

/-- Field `ECODE` (R15). -/
def statusEcode (status : Word) : BitVec 4 := status.extractLsb' 8 4

/-- The two bits of `rsp_code` (R30, R56): `OKAY` 00, `CMDERR` 01, `ACCFAULT` 10. -/
def responseCode : Response → BitVec 2
  | .okay => 0b00
  | .okayData _ => 0b00
  | .cmdErr => 0b01
  | .accFault => 0b10

/-- The signal `rsp_rdata`, where the answer carries data (R30, R149 b, U4). -/
def responseData : Response → Option Word
  | .okayData data => some data
  | .okay => none
  | .cmdErr => none
  | .accFault => none

end Sys2Proof.Machine
end

