-- ==== Sys2Proof/Machine/Ops.lean ====
section
/-! DEFINITION. The named operations over buffers, registers, the port and the errors. -/

namespace Sys2Proof.Machine

/-! Buffers. -/

/-- The word something has written at an offset since reset, if any. -/
def bufferWord : Buffer → Nat → Option Word
  | [], _ => none
  | (k, v) :: rest, off => if k = off then some v else bufferWord rest off

/-- Write one word; offsets stay strictly rising. -/
def bufferPut : Buffer → Nat → Word → Buffer
  | [], off, w => [(off, w)]
  | (k, v) :: rest, off, w =>
    if off < k then (off, w) :: (k, v) :: rest
    else if off = k then (off, w) :: rest
    else (k, v) :: bufferPut rest off w

/-- The canonical form: offsets strictly rising. An unlisted offset holds no written word, so no entry can equal it. -/
abbrev Buffer.wf (b : Buffer) : Prop := b.Pairwise fun e f => e.1 < f.1

/-- The offset of a half of element `i` in its window (R36, R37). -/
def wordOffset (i : Nat) : Component → Nat
  | .re => 2 * i
  | .im => 2 * i + 1

/-- Write a complex element: its two words. -/
def bufferPutComplex (b : Buffer) (i : Nat) (z : ComplexValue) : Buffer :=
  bufferPut (bufferPut b (2 * i) z.re) (2 * i + 1) z.im

/-- Write a sequence from element `i` on: `for k: Y[k] <- out[k]` (R101). -/
def bufferPutSeq (b : Buffer) (i : Nat) : List ComplexValue → Buffer
  | [] => b
  | z :: zs => bufferPutSeq (bufferPutComplex b i z) (i + 1) zs

/-! The draw input of the event at the port. -/

/-- The draw input of an event (R31). -/
def PortEvent.draw : PortEvent → Nat
  | .txn _ draw => draw
  | .rst draw => draw

/-- The draw input of the event being performed, which stands at the head of `pending`: an input, no state (R25, R31). A
step with nothing presented performs nothing and reads none. -/
def State.drawInput (s : State) : Nat :=
  match s.pending with
  | [] => 0
  | e :: _ => e.draw

/-! Registers and buffers of a state. -/

/-- `NMAX = 2^LOG2_NMAX` (R5, R19). -/
def State.nmax (s : State) : Nat := 2 ^ s.log2Nmax.val

/-- What `CAP` reads as (R19). -/
def State.capWord (s : State) : Word := BitVec.ofNat 64 s.nmax

/-- A word of `X`. One that nothing has written since reset is a free value (U1). -/
def State.xWord (s : State) (off : Nat) : Word :=
  (bufferWord s.x off).getD (Config.unwrittenWord s.drawInput (0x40000000 + off))

/-- A word of the storage of `Y`, readable or not. One that nothing has written since reset is a free value (U1). -/
def State.yWord (s : State) (off : Nat) : Word :=
  (bufferWord s.y off).getD (Config.unwrittenWord s.drawInput (0x80000000 + off))

/-- `X[i]` (R20). -/
def State.xElem (s : State) (i : Nat) : ComplexValue := ⟨s.xWord (2 * i), s.xWord (2 * i + 1)⟩

/-- `Y[i]` (R21). -/
def State.yElem (s : State) (i : Nat) : ComplexValue := ⟨s.yWord (2 * i), s.yWord (2 * i + 1)⟩

/-- The sequence `X[0 .. n]` (R20, R101). -/
def State.samples (s : State) (n : Nat) : List ComplexValue := (List.range n).map s.xElem

/-- A complex operand register (R11). -/
def State.operand (s : State) : OperandReg → ComplexValue
  | .ca => s.ca
  | .cb => s.cb
  | .cw => s.cw

/-- A complex result register (R12). -/
def State.result (s : State) : ResultReg → ComplexValue
  | .cr0 => s.cr0
  | .cr1 => s.cr1

/-- The NaN draws of the present transaction (R71). -/
def State.draw (s : State) : Draw := Config.nanDraw s.drawInput

/-- `LEN <- w` (R17, R34). -/
def State.writeLen (w : Word) (s : State) : State := { s with len := w }

/-- Write one half of an operand register; the other half is not touched (R11, R34). -/
def State.writeOperand (r : OperandReg) (c : Component) (w : Word) (s : State) : State :=
  match r with
  | .ca => { s with ca := s.ca.setHalf c w }
  | .cb => { s with cb := s.cb.setHalf c w }
  | .cw => { s with cw := s.cw.setHalf c w }

/-- Write one word of `X` (R20, R34). -/
def State.writeX (off : Nat) (w : Word) (s : State) : State := { s with x := bufferPut s.x off w }

/-- `CR0 <- z` (R12). -/
def State.writeCr0 (z : ComplexValue) (s : State) : State := { s with cr0 := z }

/-- `CR1 <- z` (R12). -/
def State.writeCr1 (z : ComplexValue) (s : State) : State := { s with cr1 := z }

/-- `Y[0 .. n] <- out` and `YLEN <- n`, together (R21, R101). -/
def State.writeSpectrum (n : Word) (out : List ComplexValue) (s : State) : State :=
  { s with y := bufferPutSeq s.y 0 out, ylen := n }

/-! Responses and errors. -/

/-- Complete the transaction with an answer (00_scope.md section 5.3, R31). -/
def State.respond (r : Response) (s : State) : State := { s with response := some r }

/-- A command that succeeds: `STATUS <- 0x1; respond(OKAY)` (R15, R56). -/
def State.finishCommand (s : State) : State := { s with status := statusSuccess, response := some .okay }

/-- A command error: `STATUS` records it, the answer is `CMDERR`, nothing else changes (R56, R121, R122, R127). -/
def State.raiseCommandError (e : ErrorCode) (s : State) : State :=
  { s with status := statusFailure e, response := some .cmdErr }

/-- `AccessFault`: the answer is `ACCFAULT` without data, no state changes, `STATUS` included (R123, R127). -/
def State.raiseAccessFault (s : State) : State := { s with response := some .accFault }

/-! The port. -/

/-- The event at the head of the port has been performed: `rest` is what is still presented. -/
def State.finishEvent (rest : List PortEvent) (s : State) : State := { s with pending := rest }

/-- A complex register that reset left with no value the spec gives: free words (R24, R141), named by the word address
of its real part. -/
def unspecifiedComplex (draw addr : Nat) : ComplexValue :=
  ⟨Config.unwrittenWord draw addr, Config.unwrittenWord draw (addr + 1)⟩

/-- Reset applied between transactions (R24, R140, R141, R142): the control registers at their reset values, `CAP` the
constant it is, the complex registers free, no word of a buffer written, no answer. What the port presents is not FFTC's
and stays. -/
def State.applyReset (s : State) : State :=
  { s with
    status := 0
    len := 0
    ylen := 0
    ca := unspecifiedComplex s.drawInput 0x08
    cb := unspecifiedComplex s.drawInput 0x0A
    cw := unspecifiedComplex s.drawInput 0x0C
    cr0 := unspecifiedComplex s.drawInput 0x10
    cr1 := unspecifiedComplex s.drawInput 0x12
    x := []
    y := []
    response := none }

end Sys2Proof.Machine
end

