-- ==== Sys2Proof/Machine/Arithmetic.lean ====
section
/-! DEFINITION. The commands of the Complex Arithmetic family: CADD, CMUL, CEXP. They have no exceptions (R70, R124). -/

namespace Sys2Proof.Machine

/-- `CADD` (R79). -/
def execCadd (s : State) : Host.Outcome State Fault Refusal :=
  .next (s.writeCr0 (cadd s.draw s.ca s.cb)).finishCommand

/-- `CMUL` (R80). -/
def execCmul (s : State) : Host.Outcome State Fault Refusal :=
  .next (s.writeCr0 (cmul s.draw s.ca s.cb)).finishCommand

/-- `CEXP` (R81). -/
def execCexp (s : State) : Host.Outcome State Fault Refusal :=
  .next (s.writeCr0 (cexp s.draw s.ca)).finishCommand

end Sys2Proof.Machine
end

