-- ==== Sys2Proof/Machine/Engine.lean ====
section
/-! DEFINITION. The commands of the FFT Engine family: BFLY, XFORM. -/

namespace Sys2Proof.Machine

/-- `BFLY` (R100). -/
def execBfly (s : State) : Host.Outcome State Fault Refusal :=
  let out := bfly s.draw s.ca s.cb s.cw
  .next ((s.writeCr0 out.1).writeCr1 out.2).finishCommand

/-- The spectrum of `X[0 .. n]`, `n` a power of two (R101). -/
def State.spectrum (s : State) (n : Nat) : List ComplexValue := fft s.draw (Nat.log2 n) (s.samples n)

/-- `XFORM`: the length check comes first; a valid length gives the spectrum (R101), an invalid one InvalidLength and
nothing else (R102, R121). -/
def execXform (s : State) : Host.Outcome State Fault Refusal :=
  if validLen s.nmax s.len.toNat then
    .next (s.writeSpectrum s.len (s.spectrum s.len.toNat)).finishCommand
  else .next (s.raiseCommandError .invalidLength)

end Sys2Proof.Machine
end

