-- ==== Sys2Proof/Syntax.lean ====
section
/-! DEFINITION. The instructions: one constructor per row of spec/opcode_table.json. -/

namespace Sys2Proof

/-- Everything the host can make FFTC do (R52): two transaction kinds and five commands. A command has no operand
fields (R51). `wr` at the address of `CMD` carries a command word; the spelling of the five legal ones is their own
constructor (R52: a command is the transaction `1, 0x00000001, command word`). -/
inductive Instr where
  /-- `RD addr`: read one word (R33). -/
  | rd (addr : Addr)
  /-- `WR addr, data`: write one word (R34). -/
  | wr (addr : Addr) (data : Word)
  /-- `CR0 <- cadd(CA, CB)` (R79). -/
  | cadd
  /-- `CR0 <- cmul(CA, CB)` (R80). -/
  | cmul
  /-- `CR0 <- cexp(CA)` (R81). -/
  | cexp
  /-- `(CR0, CR1) <- bfly(CA, CB, CW)` (R100). -/
  | bfly
  /-- `Y[0 .. LEN] <- fft(X[0 .. LEN])` (R101, R102). -/
  | xform
  deriving DecidableEq, Repr

end Sys2Proof
end

