-- ==== Sys2Proof/WellFormed.lean ====
section
/-! DEFINITION. Which terms of Instr are the one spelling of a transaction. -/

namespace Sys2Proof

/-- The word address of the command doorbell `CMD` (R16, R35). -/
def cmdAddr : Addr := 0x00000001

/-- The five command words of R52; every other word is illegal (R53). -/
def commandWords : List Word :=
  [0x0000000000000001, 0x0000000000000002, 0x0000000000000003, 0x0000000000000004, 0x0000000000000005]

/-- Every transaction is well formed (R50). The one check is that of the canonical spelling: a `wr` of a legal command
word to `CMD` is that command (R52), so as a term of its own it is ill formed. `exec` gives it the command's effect
all the same. -/
def Instr.wellFormed : Instr → Bool
  | .wr addr data => !(addr == cmdAddr && commandWords.contains data)
  | .rd _ => true
  | .cadd => true
  | .cmul => true
  | .cexp => true
  | .bfly => true
  | .xform => true

end Sys2Proof
end

