-- ==== Sys2Proof/Decode.lean ====
section
/-! DEFINITION. The decoder and the encoder of the two formats, TXN (R50) and CMD (R51). -/

namespace Sys2Proof

/-- Why a word is no instruction, by name. `illegalCommand`: a CMD word other than the five (R53). `tooWide`: a number
with a bit above its format's width (R55: a command word has 64 bits, a transaction 97). -/
inductive DecodeError where
  | illegalCommand
  | tooWide
  deriving DecidableEq, Repr

/-- Decode a CMD word: bits 63:8 must be 0 and bits 7:0 select the command (R51, R52, R53). -/
def decodeCommandWord (word : Word) : Except DecodeError Instr :=
  if word.extractLsb' 8 56 ≠ 0 then .error .illegalCommand
  else
    match (word.extractLsb' 0 8).toNat with
    | 0x01 => .ok .cadd
    | 0x02 => .ok .cmul
    | 0x03 => .ok .cexp
    | 0x04 => .ok .bfly
    | 0x05 => .ok .xform
    | _ => .error .illegalCommand

/-- Field `write` of a TXN, bit 96 (R50). -/
def txnWrite (t : TxnWord) : Bool := t.getLsbD 96

/-- Field `addr` of a TXN, bits 95:64 (R50). -/
def txnAddr (t : TxnWord) : Addr := t.extractLsb' 64 32

/-- Field `wdata` of a TXN, bits 63:0 (R50). -/
def txnData (t : TxnWord) : Word := t.extractLsb' 0 64

/-- The record `{write, addr, wdata}` as one bit vector (R50). -/
def packTxn (write : Bool) (addr : Addr) (data : Word) : TxnWord :=
  BitVec.ofBool write ++ addr ++ data

/-- Decode a transaction. Every 97-bit value is one (R50). `wdata` of an `RD` is ignored. A `WR` of a legal command
word to `CMD` is that command (R52); of any other word, it stays a `WR`, which will raise IllegalCommand (R53). -/
def decodeTxn (t : TxnWord) : Instr :=
  if txnWrite t then
    if txnAddr t = cmdAddr then
      match decodeCommandWord (txnData t) with
      | .ok command => command
      | .error _ => .wr (txnAddr t) (txnData t)
    else .wr (txnAddr t) (txnData t)
  else .rd (txnAddr t)

/-- The transaction of an instruction (R50, R52). `wdata` of an `RD` is canonically 0. -/
def encode : Instr → TxnWord
  | .rd addr => packTxn false addr 0
  | .wr addr data => packTxn true addr data
  | .cadd => packTxn true cmdAddr 0x0000000000000001
  | .cmul => packTxn true cmdAddr 0x0000000000000002
  | .cexp => packTxn true cmdAddr 0x0000000000000003
  | .bfly => packTxn true cmdAddr 0x0000000000000004
  | .xform => packTxn true cmdAddr 0x0000000000000005

/-- Read a number as spec/opcode_table.json numbers a row's bits: a row of 64 bits is a CMD word, a wider one a TXN. -/
def decodeTable (nbits w : Nat) : Except DecodeError Instr :=
  if nbits ≤ 64 then
    if w < 2 ^ 64 then decodeCommandWord (BitVec.ofNat 64 w) else .error .tooWide
  else
    if w < 2 ^ 97 then .ok (decodeTxn (BitVec.ofNat 97 w)) else .error .tooWide

/-- The instruction the decoder reads from a table word; none where it refuses. -/
def decodeTableWord (nbits w : Nat) : Option Instr :=
  match decodeTable nbits w with
  | .ok i => some i
  | .error _ => none

/-- The transaction that presents a table word at the port: a CMD word as a write to `CMD` (R52), a TXN as it is. -/
def tableTxn (nbits w : Nat) : TxnWord :=
  if nbits ≤ 64 then packTxn true cmdAddr (BitVec.ofNat 64 w) else BitVec.ofNat 97 w

end Sys2Proof
end

