-- ==== Sys2Proof/Machine/Operands.lean ====
section
/-! DEFINITION. The one operand form, the absolute 32-bit word address (R54; 20_memory.md section 3), and what it names
(R32, R35, R36, R37). -/

namespace Sys2Proof.Machine

/-- What a word address names. -/
inductive Target where
  | cap
  | cmd
  | status
  | len
  | ylen
  | operand (r : OperandReg) (c : Component)
  | result (r : ResultReg) (c : Component)
  | sample (i : Nat) (c : Component)
  | spectrum (i : Nat) (c : Component)
  | unmapped
  deriving DecidableEq, Repr

/-- `region = addr[31:30]` (R32). -/
def addrRegion (addr : Addr) : Nat := (addr.extractLsb' 30 2).toNat

/-- `offset = addr[29:0]` (R32). -/
def addrOffset (addr : Addr) : Nat := (addr.extractLsb' 0 30).toNat

/-- The register region (R35). -/
def registerTarget : Nat → Target
  | 0x00 => .cap
  | 0x01 => .cmd
  | 0x02 => .status
  | 0x03 => .len
  | 0x04 => .ylen
  | 0x08 => .operand .ca .re
  | 0x09 => .operand .ca .im
  | 0x0A => .operand .cb .re
  | 0x0B => .operand .cb .im
  | 0x0C => .operand .cw .re
  | 0x0D => .operand .cw .im
  | 0x10 => .result .cr0 .re
  | 0x11 => .result .cr0 .im
  | 0x12 => .result .cr1 .re
  | 0x13 => .result .cr1 .im
  | _ => .unmapped

/-- The component an offset in a buffer window selects: `offset[0]` (R36). -/
def offsetComponent (off : Nat) : Component := if off % 2 = 0 then .re else .im

/-- The address map for buffers of `nmax` elements (R32, R36, R37, R41). -/
def decodeAddr (nmax : Nat) (addr : Addr) : Target :=
  match addrRegion addr with
  | 0 => registerTarget (addrOffset addr)
  | 1 =>
    if addrOffset addr < 2 * nmax then .sample (addrOffset addr / 2) (offsetComponent (addrOffset addr))
    else .unmapped
  | 2 =>
    if addrOffset addr < 2 * nmax then .spectrum (addrOffset addr / 2) (offsetComponent (addrOffset addr))
    else .unmapped
  | _ => .unmapped

/-- What an `RD` of a target returns; none where it is an AccessFault (R33, R42). `Y` is readable below `YLEN` only. -/
def State.readTarget (s : State) : Target → Option Word
  | .cap => some s.capWord
  | .cmd => none
  | .status => some s.status
  | .len => some s.len
  | .ylen => some s.ylen
  | .operand r c => some ((s.operand r).half c)
  | .result r c => some ((s.result r).half c)
  | .sample i c => some (s.xWord (wordOffset i c))
  | .spectrum i c => if i < s.ylen.toNat then some (s.yWord (wordOffset i c)) else none
  | .unmapped => none

/-- What a `WR` to a target other than `CMD` leaves; none where it is an AccessFault (R34, R42). -/
def State.writeTarget (s : State) (target : Target) (w : Word) : Option State :=
  match target with
  | .cap => none
  | .cmd => none
  | .status => none
  | .len => some (s.writeLen w)
  | .ylen => none
  | .operand r c => some (s.writeOperand r c w)
  | .result _ _ => none
  | .sample i c => some (s.writeX (wordOffset i c) w)
  | .spectrum _ _ => none
  | .unmapped => none

end Sys2Proof.Machine
end

