-- ==== Sys2Proof/Machine/Transactions.lean ====
section
/-! DEFINITION. The two host transactions, RD and WR, and the execution of a command word. -/

namespace Sys2Proof.Machine

/-- `execute_command(word)` (R56): the five words of R52, anything else IllegalCommand (R53, R122). -/
def executeCommand (word : Word) (s : State) : Host.Outcome State Fault Refusal :=
  if word.extractLsb' 8 56 ≠ 0 then .next (s.raiseCommandError .illegalCommand)
  else
    match (word.extractLsb' 0 8).toNat with
    | 0x01 => execCadd s
    | 0x02 => execCmul s
    | 0x03 => execCexp s
    | 0x04 => execBfly s
    | 0x05 => execXform s
    | _ => .next (s.raiseCommandError .illegalCommand)

/-- `RD addr` (R33): the addressed word, or AccessFault; no state of FFTC changes. -/
def execRd (addr : Addr) (s : State) : Host.Outcome State Fault Refusal :=
  match s.readTarget (decodeAddr s.nmax addr) with
  | some w => .next (s.respond (.okayData w))
  | none => .next s.raiseAccessFault

/-- `WR addr, data` (R34): a command at `CMD`, else exactly the addressed word, or AccessFault. -/
def execWr (addr : Addr) (data : Word) (s : State) : Host.Outcome State Fault Refusal :=
  if decodeAddr s.nmax addr = .cmd then executeCommand data s
  else
    match s.writeTarget (decodeAddr s.nmax addr) data with
    | some t => .next (t.respond .okay)
    | none => .next s.raiseAccessFault

end Sys2Proof.Machine
end

