-- ==== Sys2Proof/Machine/Dispatch.lean ====
section
/-! DEFINITION. One arm per instruction. -/

namespace Sys2Proof.Machine

def exec (i : Instr) (s : State) : Host.Outcome State Fault Refusal :=
  match i with
  | .rd addr => Sys2Proof.Machine.execRd addr s
  | .wr addr data => Sys2Proof.Machine.execWr addr data s
  | .cadd => Sys2Proof.Machine.execCadd s
  | .cmul => Sys2Proof.Machine.execCmul s
  | .cexp => Sys2Proof.Machine.execCexp s
  | .bfly => Sys2Proof.Machine.execBfly s
  | .xform => Sys2Proof.Machine.execXform s

end Sys2Proof.Machine
end

