-- ==== Sys2Proof/Machine/Step.lean ====
section
/-! DEFINITION. One step: the next event at the host port (R30, R31). -/

namespace Sys2Proof.Machine

/-- One step. A transaction is performed completely, then it leaves the port (R31). A reset puts FFTC in the reset state (R140). With nothing
presented FFTC is idle and keeps all its state (R131, R149 c). -/
def step (s : State) : Host.Outcome State Fault Refusal :=
  match s.pending with
  | [] => .next s
  | .rst _ :: rest => .next (s.applyReset.finishEvent rest)
  | .txn t _ :: rest =>
    match exec (decodeTxn t) s with
    | .next u => .next (u.finishEvent rest)
    | .fault f => .fault f
    | .refused r => .refused r

/-- Present a table word at the port before everything else the host presents, with draw input 0. -/
def State.withFetchWord (s : State) (nbits w : Nat) : State :=
  { s with pending := .txn (tableTxn nbits w) 0 :: s.pending }

end Sys2Proof.Machine
end

