-- ==== Sys2Proof/Machine/Script.lean ====
section
/-! DEFINITION. The host-script notation (R57) and the pseudo-instructions (R58): how a script becomes what the host
presents at the port, and what it expects back. It is the host's notation, no part of FFTC. -/

namespace Sys2Proof.Machine

/-- A decimal literal: `digits * 10^exponent`, negative or not (R57). -/
structure Decimal where
  negative : Bool
  digits : Nat
  exponent : Int
  deriving DecidableEq, Repr

/-- The outcome a script line expects (R57): `OKAY`, a value of an `rd`, `CMDERR` or `ACCFAULT`. -/
inductive Expected where
  | okay
  | value (w : Word)
  | cmdErr
  | accFault
  deriving DecidableEq, Repr

/-- The pseudo-instructions (R58). -/
inductive Pseudo where
  | cadd
  | cmul
  | cexp
  | bfly
  | xform
  | setc (r : OperandReg) (re im : Decimal)
  | setx (i : Nat) (re im : Decimal)
  | setlen (n : Nat)
  | getcOperand (r : OperandReg)
  | getcResult (r : ResultReg)
  | gety (i : Nat)
  | getx (i : Nat)
  deriving DecidableEq, Repr

/-- A script line: one transaction with what it expects, or a pseudo-instruction (R57). -/
inductive ScriptLine where
  | rd (addr : Addr) (expect : Expected)
  | wr (addr : Addr) (data : Word) (expect : Expected)
  | pseudo (p : Pseudo)
  deriving DecidableEq, Repr

/-- `f64(decimal)`: the binary64 nearest the decimal value; `f64(-0.0)` is `-0` (R57). -/
def decimalWord (d : Decimal) : Word :=
  withSign d.negative
    (roundMag (d.digits * 10 ^ d.exponent.toNat * 2 ^ 1074) (10 ^ (-d.exponent).toNat))

/-- The word address of a symbol (R57; values in R35, R36, R37). An element index must stay in its region. -/
def targetAddr : Target → Option Addr
  | .cap => some 0x00000000
  | .cmd => some 0x00000001
  | .status => some 0x00000002
  | .len => some 0x00000003
  | .ylen => some 0x00000004
  | .operand .ca .re => some 0x00000008
  | .operand .ca .im => some 0x00000009
  | .operand .cb .re => some 0x0000000A
  | .operand .cb .im => some 0x0000000B
  | .operand .cw .re => some 0x0000000C
  | .operand .cw .im => some 0x0000000D
  | .result .cr0 .re => some 0x00000010
  | .result .cr0 .im => some 0x00000011
  | .result .cr1 .re => some 0x00000012
  | .result .cr1 .im => some 0x00000013
  | .sample i c => if i < 2 ^ 29 then some (BitVec.ofNat 32 (0x40000000 + wordOffset i c)) else none
  | .spectrum i c => if i < 2 ^ 29 then some (BitVec.ofNat 32 (0x80000000 + wordOffset i c)) else none
  | .unmapped => none

/-- `wr <symbol>, <data>` as transactions; none for a symbol that has no address. -/
def wrSymbol (t : Target) (data : Word) : List TxnWord :=
  ((targetAddr t).map fun a => packTxn true a data).toList

/-- `rd <symbol>` as transactions. -/
def rdSymbol (t : Target) : List TxnWord :=
  ((targetAddr t).map fun a => packTxn false a 0).toList

/-- The expansion of a pseudo-instruction (R58), real part first. -/
def expandPseudo : Pseudo → List TxnWord
  | .cadd => wrSymbol .cmd 0x0000000000000001
  | .cmul => wrSymbol .cmd 0x0000000000000002
  | .cexp => wrSymbol .cmd 0x0000000000000003
  | .bfly => wrSymbol .cmd 0x0000000000000004
  | .xform => wrSymbol .cmd 0x0000000000000005
  | .setc r re im => wrSymbol (.operand r .re) (decimalWord re) ++ wrSymbol (.operand r .im) (decimalWord im)
  | .setx i re im => wrSymbol (.sample i .re) (decimalWord re) ++ wrSymbol (.sample i .im) (decimalWord im)
  | .setlen n => wrSymbol .len (BitVec.ofNat 64 n)
  | .getcOperand r => rdSymbol (.operand r .re) ++ rdSymbol (.operand r .im)
  | .getcResult r => rdSymbol (.result r .re) ++ rdSymbol (.result r .im)
  | .gety i => rdSymbol (.spectrum i .re) ++ rdSymbol (.spectrum i .im)
  | .getx i => rdSymbol (.sample i .re) ++ rdSymbol (.sample i .im)

/-- The transactions of a script line (R57, R58). -/
def lineTxns : ScriptLine → List TxnWord
  | .rd addr _ => [packTxn false addr 0]
  | .wr addr data _ => [packTxn true addr data]
  | .pseudo p => expandPseudo p

/-- What arrives at the port for a script, line after line (R57); `draw` gives the draw input of each transaction. -/
def scriptEvents (draw : Nat → Nat) (lines : List ScriptLine) : List PortEvent :=
  (lines.flatMap lineTxns).zipIdx.map fun e => .txn e.1 (draw e.2)

/-- What a line expects of each of its transactions. `OKAY` is the default R57 states for a `wr`. DESIGN CHOICE (log 14,
safe): an `rd` without an expectation expects `OKAY` with any data, and a pseudo-instruction expects `OKAY` of each
transaction it expands to. -/
def lineExpects : ScriptLine → List Expected
  | .rd _ expect => [expect]
  | .wr _ _ expect => [expect]
  | .pseudo p => (expandPseudo p).map fun _ => .okay

/-- Whether a response is the expected one; the expectation `OKAY` takes any data (R57). -/
def meetsExpected : Expected → Response → Bool
  | .okay, .okay => true
  | .okay, .okayData _ => true
  | .value w, .okayData v => v == w
  | .cmdErr, .cmdErr => true
  | .accFault, .accFault => true
  | _, _ => false

/-! The text of a line, as characters. -/

/-- A token of a script line. -/
inductive Tok where
  | word (cs : List Char)
  | comma
  | lpar
  | rpar
  | arrow
  deriving DecidableEq, Repr

/-- A finished word, if there is one. -/
def endWord (cur : List Char) (rest : List Tok) : List Tok :=
  match cur with
  | [] => rest
  | _ :: _ => .word cur.reverse :: rest

/-- The tokens of a line up to its comment; `cur` is the word being read, reversed. -/
def lexLine : List Char → List Char → List Tok
  | [], cur => endWord cur []
  | ';' :: _, cur => endWord cur []
  | ',' :: rest, cur => endWord cur (.comma :: lexLine rest [])
  | '(' :: rest, cur => endWord cur (.lpar :: lexLine rest [])
  | ')' :: rest, cur => endWord cur (.rpar :: lexLine rest [])
  | ' ' :: rest, cur => endWord cur (lexLine rest [])
  | '-' :: '>' :: rest, cur => endWord cur (.arrow :: lexLine rest [])
  | c :: rest, cur => lexLine rest (c :: cur)

/-- The value of a digit in a base up to 16. -/
def digitValue (base : Nat) (c : Char) : Option Nat :=
  let n := c.toNat
  let v :=
    if 48 ≤ n ∧ n ≤ 57 then n - 48
    else if 65 ≤ n ∧ n ≤ 70 then n - 55
    else if 97 ≤ n ∧ n ≤ 102 then n - 87
    else base
  if v < base then some v else none

/-- The value of a digit string, after the digits already read. -/
def digitsFrom (base : Nat) : List Char → Nat → Option Nat
  | [], acc => some acc
  | c :: rest, acc =>
    match digitValue base c with
    | some v => digitsFrom base rest (acc * base + v)
    | none => none

/-- A digit string, not empty. -/
def parseDigits (base : Nat) : List Char → Option Nat
  | [] => none
  | c :: rest => digitsFrom base (c :: rest) 0

/-- A hexadecimal number `0x...` below a bound. -/
def parseHex (bound : Nat) : List Char → Option Nat
  | '0' :: 'x' :: rest => (parseDigits 16 rest).filter fun v => decide (v < bound)
  | _ => none

/-- The exponent of a decimal literal. -/
def parseExponent : List Char → Option Int
  | [] => some 0
  | 'e' :: '-' :: rest => (parseDigits 10 rest).map fun v => -(v : Int)
  | 'e' :: '+' :: rest => (parseDigits 10 rest).map fun v => (v : Int)
  | 'e' :: rest => (parseDigits 10 rest).map fun v => (v : Int)
  | _ => none

/-- The characters before and from the first that is not a decimal digit. -/
def spanDigits : List Char → List Char × List Char
  | [] => ([], [])
  | c :: rest =>
    if (digitValue 10 c).isSome then (c :: (spanDigits rest).1, (spanDigits rest).2) else ([], c :: rest)

/-- An unsigned decimal literal: digits, a fraction, an exponent. -/
def parseUnsignedDecimal (negative : Bool) (cs : List Char) : Option Decimal :=
  let whole := spanDigits cs
  let (fraction, tail) :=
    match whole.2 with
    | '.' :: rest => spanDigits rest
    | rest => ([], rest)
  match parseDigits 10 (whole.1 ++ fraction), parseExponent tail with
  | some digits, some e => some ⟨negative, digits, e - fraction.length⟩
  | _, _ => none

/-- A decimal literal, with its sign. -/
def parseDecimal : List Char → Option Decimal
  | '-' :: rest => parseUnsignedDecimal true rest
  | cs => parseUnsignedDecimal false cs

/-- The half a symbol names: `.re` or `.im`. -/
def parseComponent : List Char → Option Component
  | ['.', 'r', 'e'] => some .re
  | ['.', 'i', 'm'] => some .im
  | _ => none

/-- An element `[i].re` or `[i].im`. -/
def parseElement (target : Nat → Component → Target) (cs : List Char) : Option Target :=
  match (spanDigits cs).2 with
  | ']' :: rest =>
    match parseDigits 10 (spanDigits cs).1, parseComponent rest with
    | some i, some c => some (target i c)
    | _, _ => none
  | _ => none

/-- An operand register name. -/
def parseOperandReg : List Char → Option OperandReg
  | ['C', 'A'] => some .ca
  | ['C', 'B'] => some .cb
  | ['C', 'W'] => some .cw
  | _ => none

/-- A result register name. -/
def parseResultReg : List Char → Option ResultReg
  | ['C', 'R', '0'] => some .cr0
  | ['C', 'R', '1'] => some .cr1
  | _ => none

/-- A symbol of R57. -/
def parseSymbol : List Char → Option Target
  | ['C', 'A', 'P'] => some .cap
  | ['C', 'M', 'D'] => some .cmd
  | ['S', 'T', 'A', 'T', 'U', 'S'] => some .status
  | ['L', 'E', 'N'] => some .len
  | ['Y', 'L', 'E', 'N'] => some .ylen
  | 'X' :: '[' :: rest => parseElement .sample rest
  | 'Y' :: '[' :: rest => parseElement .spectrum rest
  | 'C' :: 'R' :: n :: rest =>
    match parseResultReg ['C', 'R', n], parseComponent rest with
    | some r, some c => some (.result r c)
    | _, _ => none
  | 'C' :: a :: rest =>
    match parseOperandReg ['C', a], parseComponent rest with
    | some r, some c => some (.operand r c)
    | _, _ => none
  | _ => none

/-- `<addr>`: a 32-bit hexadecimal number or a symbol (R57). -/
def parseAddr (cs : List Char) : Option Addr :=
  match parseHex (2 ^ 32) cs with
  | some v => some (BitVec.ofNat 32 v)
  | none => (parseSymbol cs).bind targetAddr

/-- An integer below `2^64`, hexadecimal or decimal (R57). -/
def parseWord (cs : List Char) : Option Word :=
  match parseHex (2 ^ 64) cs with
  | some v => some (BitVec.ofNat 64 v)
  | none => ((parseDigits 10 cs).filter fun v => decide (v < 2 ^ 64)).map (BitVec.ofNat 64)

/-- `<data>` and what follows it: an integer or `f64(<decimal>)` (R57). -/
def parseData : List Tok → Option (Word × List Tok)
  | .word ['f', '6', '4'] :: .lpar :: .word d :: .rpar :: rest => (parseDecimal d).map fun v => (decimalWord v, rest)
  | .word d :: rest => (parseWord d).map fun w => (w, rest)
  | _ => none

/-- What the script expects, from the tokens after the operands (R57). DESIGN CHOICE (log 14, safe): `<value>` is an
integer in hexadecimal or unsigned decimal and no `f64(...)`; `-> OKAY` and `-> CMDERR` are taken on an `rd` as well and
`-> <value>` on a `wr`, where no answer meets it; nothing said is `OKAY` on an `rd` too. -/
def parseExpected : List Tok → Option Expected
  | [] => some .okay
  | [.arrow, .word ['O', 'K', 'A', 'Y']] => some .okay
  | [.arrow, .word ['C', 'M', 'D', 'E', 'R', 'R']] => some .cmdErr
  | [.arrow, .word ['A', 'C', 'C', 'F', 'A', 'U', 'L', 'T']] => some .accFault
  | [.arrow, .word v] => (parseWord v).map .value
  | _ => none

/-- A complex literal `(re, im)` at the end of a line. -/
def parsePair : List Tok → Option (Decimal × Decimal)
  | [.lpar, .word re, .comma, .word im, .rpar] =>
    match parseDecimal re, parseDecimal im with
    | some a, some b => some (a, b)
    | _, _ => none
  | _ => none

/-- The pseudo-instruction of a mnemonic in lower case and its operands (R58). -/
def parsePseudo : List Char → List Tok → Option Pseudo
  | ['c', 'a', 'd', 'd'], [] => some .cadd
  | ['c', 'm', 'u', 'l'], [] => some .cmul
  | ['c', 'e', 'x', 'p'], [] => some .cexp
  | ['b', 'f', 'l', 'y'], [] => some .bfly
  | ['x', 'f', 'o', 'r', 'm'], [] => some .xform
  | ['s', 'e', 't', 'c'], .word r :: .comma :: rest =>
    match parseOperandReg r, parsePair rest with
    | some r, some (re, im) => some (.setc r re im)
    | _, _ => none
  | ['s', 'e', 't', 'x'], .word i :: .comma :: rest =>
    match parseDigits 10 i, parsePair rest with
    | some i, some (re, im) => some (.setx i re im)
    | _, _ => none
  | ['s', 'e', 't', 'l', 'e', 'n'], [.word n] => (parseWord n).map fun w => .setlen w.toNat
  | ['g', 'e', 't', 'c'], [.word r] =>
    match parseOperandReg r, parseResultReg r with
    | some r, _ => some (.getcOperand r)
    | none, some r => some (.getcResult r)
    | none, none => none
  | ['g', 'e', 't', 'y'], [.word i] => (parseDigits 10 i).map .gety
  | ['g', 'e', 't', 'x'], [.word i] => (parseDigits 10 i).map .getx
  | _, _ => none

/-- A line from its lower-case mnemonic and the tokens after it (R57). DESIGN CHOICE (log 14, safe): a
pseudo-instruction line carries no expectation. -/
def parseTokens (mnemonic : List Char) (rest : List Tok) : Option ScriptLine :=
  match mnemonic, rest with
  | ['r', 'd'], .word a :: expect =>
    match parseAddr a, parseExpected expect with
    | some addr, some e => some (.rd addr e)
    | _, _ => none
  | ['w', 'r'], .word a :: .comma :: data =>
    match parseAddr a, parseData data with
    | some addr, some (w, expect) => (parseExpected expect).map (.wr addr w)
    | _, _ => none
  | m, operands => (parsePseudo m operands).map .pseudo

/-- A script line from its characters: `mnemonic operands ; comment`, the mnemonic in any case (R57). -/
def parseLine (text : List Char) : Option ScriptLine :=
  match lexLine text [] with
  | .word m :: rest => parseTokens (m.map Char.toLower) rest
  | _ => none

end Sys2Proof.Machine
end

