-- ==== Sys2Proof/Safety.lean ====
section
/-! DEFINITION. What a good state is, and the frame relations statements are written in. -/

namespace Sys2Proof.Machine

/-- `STATUS` holds the reset value or one of the three outcomes (R15). -/
def State.statusLegal (s : State) : Prop :=
  s.status = 0x0000000000000000 ∨ s.status = 0x0000000000000001 ∨
    s.status = 0x0000000000000102 ∨ s.status = 0x0000000000000202

/-- `YLEN` is 0 or a power of two not above `NMAX` (R18). -/
def State.ylenLegal (s : State) : Prop :=
  s.ylen = 0 ∨ ∃ p : Nat, p ≤ s.log2Nmax.val ∧ s.ylen.toNat = 2 ^ p

/-- Both buffers are in canonical form and hold words at offsets `0` to `2*NMAX - 1` only (R32). -/
def State.buffersLegal (s : State) : Prop :=
  Buffer.wf s.x ∧ Buffer.wf s.y ∧ (∀ e ∈ s.x, e.1 < 2 * s.nmax) ∧ (∀ e ∈ s.y, e.1 < 2 * s.nmax)

/-- Every readable word of `Y` has been written by a transform (R21, R148). -/
def State.spectrumComplete (s : State) : Prop :=
  ∀ off, off < 2 * s.ylen.toNat → (bufferWord s.y off).isSome = true

/-- The invariant of FFTC. -/
structure State.Inv (s : State) : Prop where
  status : s.statusLegal
  ylen : s.ylenLegal
  buffers : s.buffersLegal
  spectrum : s.spectrumComplete

/-! Frames: what a step from `s` to `t` leaves unchanged. -/

/-- `CA`, `CB`, `CW` unchanged. -/
def State.sameOperands (s t : State) : Prop := t.ca = s.ca ∧ t.cb = s.cb ∧ t.cw = s.cw

/-- `CR0`, `CR1` unchanged. -/
def State.sameResults (s t : State) : Prop := t.cr0 = s.cr0 ∧ t.cr1 = s.cr1

/-- `CAP` and `LEN` unchanged. -/
def State.sameControl (s t : State) : Prop := t.log2Nmax = s.log2Nmax ∧ t.len = s.len

/-- Every word of `X` reads as before. -/
def State.sameX (s t : State) : Prop := ∀ off, t.xWord off = s.xWord off

/-- `YLEN` and every word of `Y` as before. -/
def State.sameY (s t : State) : Prop := t.ylen = s.ylen ∧ ∀ off, t.yWord off = s.yWord off

/-- What is presented at the port unchanged, and with it the draw input. -/
def State.samePort (s t : State) : Prop := t.pending = s.pending

/-- All of FFTC's state as before, `STATUS` included: only the answer may differ. -/
def State.sameFftc (s t : State) : Prop :=
  t.status = s.status ∧ s.sameOperands t ∧ s.sameResults t ∧ s.sameControl t ∧ s.sameX t ∧ s.sameY t ∧ s.samePort t

/-- The command succeeded: `DONE` 1, `ERR` 0, `ECODE` 0, the whole of `STATUS` written, answer `OKAY` (R15, R56). -/
def State.succeeded (t : State) : Prop := t.status = 0x0000000000000001 ∧ t.response = some .okay

/-- The causes (a) to (g) of an AccessFault, as R42 lists them, in numbers. -/
def accessFaultCause (write : Bool) (nmax ylen : Nat) (addr : Addr) : Prop :=
  let region := addr.toNat / 2 ^ 30
  let offset := addr.toNat % 2 ^ 30
  region = 3 ∨
  (region = 0 ∧ ¬(offset ≤ 0x04 ∨ (0x08 ≤ offset ∧ offset ≤ 0x0D) ∨ (0x10 ≤ offset ∧ offset ≤ 0x13))) ∨
  ((region = 1 ∨ region = 2) ∧ 2 * nmax ≤ offset) ∨
  (write = false ∧ region = 0 ∧ offset = 0x01) ∨
  (write = true ∧ region = 0 ∧
    (offset = 0x00 ∨ offset = 0x02 ∨ offset = 0x04 ∨ (0x10 ≤ offset ∧ offset ≤ 0x13))) ∨
  (write = true ∧ region = 2) ∨
  (write = false ∧ region = 2 ∧ ylen ≤ offset / 2)

/-- What presents reset as the next event (R140). -/
def State.resetNext (s : State) : Prop := ∃ draw rest, s.pending = .rst draw :: rest

/-! What it means for a binary64 result to be the correctly rounded one (R66, R68 a). `v / scale` is the exact value in
units of 2^-1074. -/

/-- `r` is nearest to the exact value among all finite numbers, subnormals included, and where another number is as
near, the last bit of `r` is 0 (ties to even). -/
def roundedTo (v : Int) (scale : Nat) (r : Word) : Prop :=
  ∀ c : Word, isFinite c = true →
    |fval r * scale - v| ≤ |fval c * scale - v| ∧
    (|fval r * scale - v| = |fval c * scale - v| → fval c ≠ fval r → r.getLsbD 0 = false)

/-- The rounded magnitude of the exact value exceeds the largest finite number `(2^53 - 1) * 2^2045` units: it is at
least half a last place above it. -/
def overflows (v : Int) (scale : Nat) : Prop := (2 ^ 54 - 1) * 2 ^ 2044 * (scale : Int) ≤ |v|

/-- Equal as real numbers, `+0` and `-0` counted equal (R82). -/
def numericallyEqual (a b : Word) : Prop :=
  isFinite a = true ∧ isFinite b = true ∧ fval a = fval b

/-- No component is a NaN. -/
def noNaN (z : ComplexValue) : Prop := isNaN z.re = false ∧ isNaN z.im = false

/-- Every half of `z` that is no NaN is the same word in `z'`: equal apart from NaN draws (R71, R74). -/
def agreesUpToNaN (z z' : ComplexValue) : Prop := ∀ c : Component, isNaN (z.half c) = false → z'.half c = z.half c

/-- Both components are finite. -/
def bothFinite (z : ComplexValue) : Prop := isFinite z.re = true ∧ isFinite z.im = true

/-- `cneg(b)` (R82). -/
def cneg (b : ComplexValue) : ComplexValue := ⟨fneg b.re, fneg b.im⟩

/-- Operands for which a sum is an invalid operation (R68 c). -/
def addInvalid (a b : Word) : Prop := isInf a = true ∧ isInf b = true ∧ fsign a ≠ fsign b

/-- Operands for which a difference is an invalid operation (R68 c). -/
def subInvalid (a b : Word) : Prop := isInf a = true ∧ isInf b = true ∧ fsign a = fsign b

/-- Operands for which a product is an invalid operation (R68 c). -/
def mulInvalid (a b : Word) : Prop :=
  (isZero a = true ∧ isInf b = true) ∨ (isInf a = true ∧ isZero b = true)

end Sys2Proof.Machine
end

