-- ==== Sys2Proof/Certificates/Slice0/Obligations.lean ====
section
/-! DEFINITION. The statements for the provers, each from the numbered rules it cites. -/

open Sys2Proof Sys2Proof.Machine

/-! ## The port, reset, the whole machine -/

/-- R31 and 20_memory.md section 1; the form of the port is the model's (log 1). Taking the transaction off the port
changes nothing but what is still presented. -/
def Obligations.StepPerformsPresentedTransaction : Prop :=
  ∀ (s : State) (t : TxnWord) (draw : Nat) (i : Instr) (rest : List PortEvent),
    s.pending = .txn t draw :: rest → decodeTxn t = i → i.wellFormed = true →
    (∀ u, exec i s = .next u → step s = .next { u with pending := rest }) ∧
    (∀ f, exec i s = .fault f → step s = .fault f) ∧ (∀ r, exec i s = .refused r → step s = .refused r) ∧
    s.draw = Config.nanDraw draw

/-- 60_exceptions.md section 7: between transactions FFTC is idle and keeps all its state. The idle step is the model's (log 1). -/
def Obligations.IdleStepKeepsAllState : Prop :=
  ∀ s : State, s.pending = [] → step s = .next s

/-- R24, R140 for the state right after reset and after reset between transactions. `YLEN = 0`, so no `Y` is readable, and
an `XFORM` raises InvalidLength. What reset leaves unspecified is not stated. -/
def Obligations.ResetLeavesResetState : Prop :=
  let isReset (t : State) : Prop :=
    t.status = 0x0000000000000000 ∧ t.len = 0 ∧ t.ylen = 0 ∧
    (∃ u w, exec (.rd 0x00000000) t = .next u ∧ u.response = some (.okayData w) ∧ w.toNat = 2 ^ t.log2Nmax.val) ∧
    (∀ addr : Addr, addr.toNat / 2 ^ 30 = 2 → ∃ u, exec (.rd addr) t = .next u ∧ u.response = some .accFault) ∧
    (∃ u, exec .xform t = .next u ∧ u.status = 0x0000000000000102 ∧ u.response = some .cmdErr)
  isReset State.reset ∧
  ∀ (s : State) (draw : Nat) (rest : List PortEvent), s.pending = .rst draw :: rest →
    ∃ t, step s = .next t ∧ isReset t ∧ t.log2Nmax = s.log2Nmax ∧ t.pending = rest

/-- R141: reset is the only event that clears `YLEN` and the only one that returns `STATUS` to 0. -/
def Obligations.OnlyResetClearsYlenAndStatus : Prop :=
  ∀ s t : State, step s = .next t →
    (s.ylen ≠ 0 → t.ylen = 0 → s.resetNext) ∧ (s.status ≠ 0 → t.status = 0 → s.resetNext)

/-- R120, R127, R128: every error is an answer, after which FFTC is ready for the next transaction; nothing stops it. The
code 11 is never produced (R56, U7). -/
def Obligations.EveryStepCompletes : Prop :=
  (∀ (i : Instr) (s : State), ∃ t r, exec i s = .next t ∧
      t.response = some r ∧ responseCode r ≠ 0b11 ∧ s.samePort t) ∧
  (∀ s : State, ∃ t, step s = .next t)

/-- R19: `CAP` reads as `2^LOG2_NMAX` as a 64-bit unsigned integer, cannot be written, and no step changes it. -/
def Obligations.CapIsConstant : Prop :=
  (∀ s : State, ∃ t w, exec (.rd 0x00000000) s = .next t ∧ t.response = some (.okayData w) ∧
      w.toNat = 2 ^ s.log2Nmax.val ∧ s.sameFftc t) ∧
  (∀ (s : State) (d : Word), ∃ t, exec (.wr 0x00000000 d) s = .next t ∧ t.response = some .accFault ∧ s.sameFftc t) ∧
  (∀ s t : State, step s = .next t → t.log2Nmax = s.log2Nmax)

/-- R10, R15, R18, R32, R148: the invariant of FFTC holds in the state right after reset. -/
def Obligations.InvariantAtReset : Prop := State.reset.Inv

/-- R10, R15, R18, R32, R148: every step keeps the invariant: `STATUS` one of its four words, `YLEN` 0 or a power of two
not above `NMAX`, both buffers in canonical form within their windows, every readable word of `Y` written. -/
def Obligations.StepKeepsInvariant : Prop :=
  ∀ s t : State, s.Inv → step s = .next t → t.Inv

/-- R13, the write side of its table, for the one spelling of each transaction; the canonical spelling is the model's
(log 8). -/
def Obligations.WriteMatrix : Prop :=
  ∀ (i : Instr) (s t : State), i.wellFormed = true → exec i s = .next t →
    (¬ s.sameOperands t → ∃ a w, i = .wr a w ∧ 0x08 ≤ a.toNat ∧ a.toNat ≤ 0x0D) ∧
    (t.cr0 ≠ s.cr0 → i = .cadd ∨ i = .cmul ∨ i = .cexp ∨ i = .bfly) ∧
    (t.cr1 ≠ s.cr1 → i = .bfly) ∧
    (t.len ≠ s.len → ∃ w, i = .wr 0x00000003 w) ∧
    (t.x ≠ s.x → ∃ a w, i = .wr a w ∧ a.toNat / 2 ^ 30 = 1) ∧
    (t.y ≠ s.y ∨ t.ylen ≠ s.ylen → i = .xform) ∧
    (t.status ≠ s.status → i = .cadd ∨ i = .cmul ∨ i = .cexp ∨ i = .bfly ∨ i = .xform ∨ ∃ w, i = .wr cmdAddr w)

/-- R22: no command changes its own inputs, on success and on failure; a command is a constructor or a `wr` to `CMD`. -/
def Obligations.CommandsLeaveTheirInputs : Prop :=
  ∀ (i : Instr) (s t : State),
    (i = .cadd ∨ i = .cmul ∨ i = .cexp ∨ i = .bfly ∨ i = .xform ∨ ∃ w, i = .wr cmdAddr w) →
    exec i s = .next t → s.sameOperands t ∧ t.len = s.len ∧ t.x = s.x ∧ s.sameX t

/-- R15, and R56 for the answer: every command writes the whole of `STATUS` with the word of its outcome and answers
`OKAY`, code 00, or `CMDERR`, code 01, without data; `DONE` and `ERR` are never both 1, and no other transaction changes
`STATUS`. -/
def Obligations.StatusRecordsTheLatestCommand : Prop :=
  ∀ (i : Instr) (s t : State), exec i s = .next t →
    ((i = .cadd ∨ i = .cmul ∨ i = .cexp ∨ i = .bfly ∨ i = .xform ∨ ∃ w, i = .wr cmdAddr w) →
      (t.status = 0x0000000000000001 ∧
          t.response.map responseCode = some 0b00 ∧ t.response.bind responseData = none ∧
          statusDone t.status = true ∧ statusErr t.status = false ∧ statusEcode t.status = 0) ∨
      (t.status = 0x0000000000000102 ∧
          t.response.map responseCode = some 0b01 ∧ t.response.bind responseData = none ∧
          statusDone t.status = false ∧ statusErr t.status = true ∧ statusEcode t.status = 1) ∨
      (t.status = 0x0000000000000202 ∧
          t.response.map responseCode = some 0b01 ∧ t.response.bind responseData = none ∧
          statusDone t.status = false ∧ statusErr t.status = true ∧ statusEcode t.status = 2)) ∧
    (¬(i = .cadd ∨ i = .cmul ∨ i = .cexp ∨ i = .bfly ∨ i = .xform ∨ ∃ w, i = .wr cmdAddr w) →
      t.status = s.status)

/-- R148: only a transform changes the spectrum or its length between resets. -/
def Obligations.SpectrumChangesOnlyByTransform : Prop :=
  ∀ s t : State, step s = .next t → ¬ s.resetNext → (t.y ≠ s.y ∨ t.ylen ≠ s.ylen) →
    ∃ txn draw rest, s.pending = .txn txn draw :: rest ∧ decodeTxn txn = .xform

/-- R40: with the free values held, performing the same transaction again leaves the state as it is: reads and writes
are idempotent, and a command repeated gives the same state again. -/
def Obligations.RepeatingATransactionChangesNothing : Prop :=
  ∀ (i : Instr) (s t : State), exec i s = .next t → exec i t = .next t

/-! ## Encoding -/

/-- R50, R52: decoding an encoded well-formed instruction gives it back, with every operand at every value. -/
def Obligations.DecodeEncodeRoundTrip : Prop :=
  ∀ i : Instr, i.wellFormed = true → decodeTxn (encode i) = i

/-- R50: every 97-bit value is a transaction; it decodes to a well-formed instruction whose encoding it is, the `wdata` of
an `RD` being ignored. The canonical spelling is the model's (log 8). -/
def Obligations.EveryTransactionDecodes : Prop :=
  ∀ t : TxnWord, (decodeTxn t).wellFormed = true ∧
    encode (decodeTxn t) = packTxn (txnWrite t) (txnAddr t) (if txnWrite t then txnData t else 0)

/-- R50: `WR addr, data` is `{1, addr, data}` and `RD addr` is `{0, addr, 0}`, bit by bit as a number; every number below
`2^97` is such a record, and the `wdata` of an `RD` is ignored. -/
def Obligations.TransactionFieldLayout : Prop :=
  (∀ (a : Addr) (d : Word), (encode (.wr a d)).toNat = 2 ^ 96 + a.toNat * 2 ^ 64 + d.toNat) ∧
  (∀ a : Addr, (encode (.rd a)).toNat = a.toNat * 2 ^ 64) ∧
  (∀ t : TxnWord, t = packTxn (txnWrite t) (txnAddr t) (txnData t)) ∧
  (∀ (a : Addr) (d : Word), decodeTxn (packTxn false a d) = .rd a) ∧
  (∀ (a : Addr) (d : Word), a ≠ 0x00000001 → decodeTxn (packTxn true a d) = .wr a d)

/-- R52, R53: a command word selects a command exactly when all 64 bits equal one of the five words; every other word is
illegal. -/
def Obligations.ExactlyFiveCommandWords : Prop :=
  ∀ w : Word,
    (decodeCommandWord w = .ok .cadd ↔ w = 0x0000000000000001) ∧
    (decodeCommandWord w = .ok .cmul ↔ w = 0x0000000000000002) ∧
    (decodeCommandWord w = .ok .cexp ↔ w = 0x0000000000000003) ∧
    (decodeCommandWord w = .ok .bfly ↔ w = 0x0000000000000004) ∧
    (decodeCommandWord w = .ok .xform ↔ w = 0x0000000000000005) ∧
    (decodeCommandWord w = .error .illegalCommand ↔ w.toNat = 0 ∨ 5 < w.toNat)

/-- Transactions of 95_test_vectors.md decode to the instructions they stand for. -/
def Obligations.SpecTransactionsDecode : Prop :=
  decodeTxn 0x0000000020000000000000000 = .rd 0x00000002 ∧
  decodeTxn 0x14000000F3FF0000000000000 = .wr 0x4000000F 0x3FF0000000000000 ∧
  decodeTxn 0x1000000010000000000000001 = .cadd ∧
  decodeTxn 0x1000000010000000000000002 = .cmul ∧
  decodeTxn 0x1000000010000000000000003 = .cexp ∧
  decodeTxn 0x1000000010000000000000004 = .bfly ∧
  decodeTxn 0x1000000010000000000000005 = .xform ∧
  decodeTxn 0x1000000010000000000000105 = .wr 0x00000001 0x0000000000000105

/-- R58 and the symbol values of R57: each pseudo-instruction is the transactions of its row, in order, for elements that
stay in their region. -/
def Obligations.PseudoInstructionsExpand : Prop :=
  (expandPseudo .cadd).map decodeTxn = [.cadd] ∧
  (expandPseudo .cmul).map decodeTxn = [.cmul] ∧
  (expandPseudo .cexp).map decodeTxn = [.cexp] ∧
  (expandPseudo .bfly).map decodeTxn = [.bfly] ∧
  (expandPseudo .xform).map decodeTxn = [.xform] ∧
  (∀ re im, (expandPseudo (.setc .ca re im)).map decodeTxn =
    [.wr 0x00000008 (decimalWord re), .wr 0x00000009 (decimalWord im)]) ∧
  (∀ re im, (expandPseudo (.setc .cb re im)).map decodeTxn =
    [.wr 0x0000000A (decimalWord re), .wr 0x0000000B (decimalWord im)]) ∧
  (∀ re im, (expandPseudo (.setc .cw re im)).map decodeTxn =
    [.wr 0x0000000C (decimalWord re), .wr 0x0000000D (decimalWord im)]) ∧
  (∀ i re im, i < 2 ^ 29 → (expandPseudo (.setx i re im)).map decodeTxn =
    [.wr (BitVec.ofNat 32 (0x40000000 + 2 * i)) (decimalWord re),
     .wr (BitVec.ofNat 32 (0x40000000 + 2 * i + 1)) (decimalWord im)]) ∧
  (∀ n, (expandPseudo (.setlen n)).map decodeTxn = [.wr 0x00000003 (BitVec.ofNat 64 n)]) ∧
  (expandPseudo (.getcOperand .ca)).map decodeTxn = [.rd 0x00000008, .rd 0x00000009] ∧
  (expandPseudo (.getcOperand .cb)).map decodeTxn = [.rd 0x0000000A, .rd 0x0000000B] ∧
  (expandPseudo (.getcOperand .cw)).map decodeTxn = [.rd 0x0000000C, .rd 0x0000000D] ∧
  (expandPseudo (.getcResult .cr0)).map decodeTxn = [.rd 0x00000010, .rd 0x00000011] ∧
  (expandPseudo (.getcResult .cr1)).map decodeTxn = [.rd 0x00000012, .rd 0x00000013] ∧
  (∀ i, i < 2 ^ 29 → (expandPseudo (.gety i)).map decodeTxn =
    [.rd (BitVec.ofNat 32 (0x80000000 + 2 * i)), .rd (BitVec.ofNat 32 (0x80000000 + 2 * i + 1))]) ∧
  (∀ i, i < 2 ^ 29 → (expandPseudo (.getx i)).map decodeTxn =
    [.rd (BitVec.ofNat 32 (0x40000000 + 2 * i)), .rd (BitVec.ofNat 32 (0x40000000 + 2 * i + 1))])

/-- R57: the literal `f64(<decimal>)` is the binary64 nearest the decimal value `digits * 10^exponent`, when that does
not overflow; the exact value in units of 2^-1074 is `digits * 10^e * 2^1074` over the power of ten of a negative
exponent. -/
def Obligations.DecimalLiteralIsNearest : Prop :=
  ∀ d : Decimal,
    let n : Nat := d.digits * 10 ^ d.exponent.toNat * 2 ^ 1074
    let v : Int := if d.negative then -(n : Int) else n
    let scale : Nat := 10 ^ (-d.exponent).toNat
    ¬ overflows v scale →
      isFinite (decimalWord d) = true ∧ roundedTo v scale (decimalWord d) ∧ fsign (decimalWord d) = d.negative

/-! ## RD and WR -/

/-- R42, R123: a transaction raises AccessFault exactly when one of the causes (a) to (g) holds; then the answer is
`ACCFAULT`, code 10, without data, and no state changes, `STATUS` included. The other answers have the codes of R56. -/
def Obligations.AccessFaultExactly : Prop :=
  ∀ (s : State) (a : Addr),
    let answers (t : State) (code : BitVec 2) (data : Option Word) : Prop :=
      t.response.map responseCode = some code ∧ t.response.bind responseData = data
    (accessFaultCause false s.nmax s.ylen.toNat a →
      ∃ t, exec (.rd a) s = .next t ∧ answers t 0b10 none ∧ s.sameFftc t) ∧
    (¬ accessFaultCause false s.nmax s.ylen.toNat a →
      ∃ t w, exec (.rd a) s = .next t ∧ answers t 0b00 (some w)) ∧
    (∀ d : Word, accessFaultCause true s.nmax s.ylen.toNat a →
      ∃ t, exec (.wr a d) s = .next t ∧ answers t 0b10 none ∧ s.sameFftc t) ∧
    (∀ d : Word, ¬ accessFaultCause true s.nmax s.ylen.toNat a →
      ∃ t, exec (.wr a d) s = .next t ∧ (answers t 0b00 none ∨ a = cmdAddr ∧ answers t 0b01 none))

/-- R33 with the register table of R35: an `RD` of a readable register word answers `OKAY` with it and changes nothing. -/
def Obligations.RdReturnsRegisterWord : Prop :=
  ∀ s : State,
    let reads (a : Addr) (w : Word) : Prop :=
      ∃ t, exec (.rd a) s = .next t ∧ t.response = some (.okayData w) ∧ s.sameFftc t
    reads 0x00000000 (BitVec.ofNat 64 (2 ^ s.log2Nmax.val)) ∧
    reads 0x00000002 s.status ∧ reads 0x00000003 s.len ∧ reads 0x00000004 s.ylen ∧
    reads 0x00000008 s.ca.re ∧ reads 0x00000009 s.ca.im ∧
    reads 0x0000000A s.cb.re ∧ reads 0x0000000B s.cb.im ∧
    reads 0x0000000C s.cw.re ∧ reads 0x0000000D s.cw.im ∧
    reads 0x00000010 s.cr0.re ∧ reads 0x00000011 s.cr0.im ∧
    reads 0x00000012 s.cr1.re ∧ reads 0x00000013 s.cr1.im

/-- R36 with R33, R34: at every word of the X window an `RD` answers `OKAY` with that half of `X[i]` and changes nothing,
and a `WR` stores the 64 bits unchanged in it and answers `OKAY`; every other word of `X` and all else stay. `b` is
`offset[0]`. -/
def Obligations.XWindowAccess : Prop :=
  ∀ (s : State) (i : Nat) (b : Bool), i < 2 ^ s.log2Nmax.val →
    let a : Addr := BitVec.ofNat 32 (0x40000000 + 2 * i + b.toNat)
    (∃ t, exec (.rd a) s = .next t ∧
      t.response = some (.okayData (if b then (s.xElem i).im else (s.xElem i).re)) ∧ s.sameFftc t) ∧
    ∀ w : Word, ∃ t, exec (.wr a w) s = .next t ∧ t.response = some .okay ∧
      t.xWord (2 * i + b.toNat) = w ∧
      (∀ off, off ≠ 2 * i + b.toNat → t.xWord off = s.xWord off) ∧
      t.status = s.status ∧ s.sameOperands t ∧ s.sameResults t ∧ s.sameControl t ∧ s.sameY t ∧ s.samePort t

/-- R33, R37: an `RD` in the Y window answers `OKAY` with the half of `Y[i]` when `i < YLEN`, else `ACCFAULT`; a `WR`
there is always an AccessFault. -/
def Obligations.YWindowAccess : Prop :=
  ∀ (s : State) (i : Nat), i < 2 ^ s.log2Nmax.val →
    (i < s.ylen.toNat →
      (∃ t, exec (.rd (BitVec.ofNat 32 (0x80000000 + 2 * i))) s = .next t ∧
        t.response = some (.okayData (s.yElem i).re) ∧ s.sameFftc t) ∧
      (∃ t, exec (.rd (BitVec.ofNat 32 (0x80000000 + 2 * i + 1))) s = .next t ∧
        t.response = some (.okayData (s.yElem i).im) ∧ s.sameFftc t)) ∧
    (s.ylen.toNat ≤ i → ∀ b : Bool,
      ∃ t, exec (.rd (BitVec.ofNat 32 (0x80000000 + 2 * i + b.toNat))) s = .next t ∧
        t.response = some .accFault ∧ s.sameFftc t) ∧
    (∀ (b : Bool) (d : Word),
      ∃ t, exec (.wr (BitVec.ofNat 32 (0x80000000 + 2 * i + b.toNat)) d) s = .next t ∧
        t.response = some .accFault ∧ s.sameFftc t)

/-- R34, R17, R11: a `WR` to `LEN` or to a half of an operand register stores the 64 bits unchanged in exactly that word
and answers `OKAY`. -/
def Obligations.WrStoresRegisterWord : Prop :=
  ∀ (s : State) (w : Word),
    let writes (a : Addr) (t : State) : Prop := exec (.wr a w) s = .next { t with response := some .okay }
    writes 0x00000003 { s with len := w } ∧
    writes 0x00000008 { s with ca := ⟨w, s.ca.im⟩ } ∧
    writes 0x00000009 { s with ca := ⟨s.ca.re, w⟩ } ∧
    writes 0x0000000A { s with cb := ⟨w, s.cb.im⟩ } ∧
    writes 0x0000000B { s with cb := ⟨s.cb.re, w⟩ } ∧
    writes 0x0000000C { s with cw := ⟨w, s.cw.im⟩ } ∧
    writes 0x0000000D { s with cw := ⟨s.cw.re, w⟩ }

/-- R43 (1): an `RD` returns the value of the `WR` to the same word just before it, for every address a `WR` may store to. -/
def Obligations.ReadReturnsLatestWrite : Prop :=
  ∀ (s t u : State) (a : Addr) (w : Word) (d₁ d₂ : Nat) (rest : List PortEvent),
    s.pending = .txn (encode (.wr a w)) d₁ :: .txn (encode (.rd a)) d₂ :: rest → a ≠ cmdAddr →
    step s = .next t → t.response = some .okay → step t = .next u →
    u.response = some (.okayData w)

/-- R34: a `WR` to a word other than `CMD` leaves what an `RD` of any other word answers. -/
def Obligations.WriteLeavesOtherWords : Prop :=
  ∀ (s t u v : State) (a b : Addr) (w : Word), a ≠ cmdAddr → b ≠ a →
    exec (.wr a w) s = .next t → exec (.rd b) s = .next u → exec (.rd b) t = .next v →
    v.response = u.response

/-- R57's symbol values against the map of R32, R35, R36, R37: the address of a symbol decodes to what the symbol names. -/
def Obligations.SymbolAddressesDecode : Prop :=
  ∀ (nmax : Nat) (target : Target) (a : Addr), targetAddr target = some a →
    (∀ i c, target = .sample i c ∨ target = .spectrum i c → i < nmax) →
    decodeAddr nmax a = target

/-! ## Commands -/

/-- R52, R56: a `WR` of a legal command word to `CMD` performs that command. -/
def Obligations.CommandWordRunsItsCommand : Prop :=
  ∀ s : State,
    exec (.wr 0x00000001 0x0000000000000001) s = exec .cadd s ∧
    exec (.wr 0x00000001 0x0000000000000002) s = exec .cmul s ∧
    exec (.wr 0x00000001 0x0000000000000003) s = exec .cexp s ∧
    exec (.wr 0x00000001 0x0000000000000004) s = exec .bfly s ∧
    exec (.wr 0x00000001 0x0000000000000005) s = exec .xform s

/-- R53, R122: a word that is not one of the five raises IllegalCommand: `STATUS` and the answer record it, nothing else
changes. -/
def Obligations.IllegalCommandWord : Prop :=
  ∀ (s : State) (w : Word), (w.toNat = 0 ∨ 5 < w.toNat) →
    ∃ t, exec (.wr 0x00000001 w) s = .next t ∧
      t.status = 0x0000000000000202 ∧ t.response = some .cmdErr ∧
      s.sameOperands t ∧ s.sameResults t ∧ s.sameControl t ∧ s.sameX t ∧ s.sameY t ∧ s.samePort t

/-- R79, R75. `r` is the NaN draws. -/
def Obligations.CaddResult : Prop :=
  decodeTxn 0x1000000010000000000000001 = .cadd ∧
  ∀ s : State, ∃ t, exec .cadd s = .next t ∧
    (∃ r : Nat → Word, t.cr0 = ⟨fadd (r 0) s.ca.re s.cb.re, fadd (r 1) s.ca.im s.cb.im⟩) ∧
    t.succeeded ∧ t.cr1 = s.cr1 ∧
    s.sameOperands t ∧ s.sameControl t ∧ s.sameX t ∧ s.sameY t ∧ s.samePort t

/-- R80, with the formula of R77 and no fusing (R73). -/
def Obligations.CmulResult : Prop :=
  decodeTxn 0x1000000010000000000000002 = .cmul ∧
  ∀ s : State, ∃ t, exec .cmul s = .next t ∧
    (∃ r : Nat → Word, t.cr0 =
      ⟨fsub (r 4) (fmul (r 0) s.ca.re s.cb.re) (fmul (r 1) s.ca.im s.cb.im),
       fadd (r 5) (fmul (r 2) s.ca.re s.cb.im) (fmul (r 3) s.ca.im s.cb.re)⟩) ∧
    t.succeeded ∧ t.cr1 = s.cr1 ∧
    s.sameOperands t ∧ s.sameControl t ∧ s.sameX t ∧ s.sameY t ∧ s.samePort t

/-- R81, with the formula of R78. -/
def Obligations.CexpResult : Prop :=
  decodeTxn 0x1000000010000000000000003 = .cexp ∧
  ∀ s : State, ∃ t, exec .cexp s = .next t ∧
    (∃ r : Nat → Word, t.cr0 =
      ⟨fmul (r 3) (fexpf (r 0) s.ca.re) (fcos (r 1) s.ca.im),
       fmul (r 4) (fexpf (r 0) s.ca.re) (fsin (r 2) s.ca.im)⟩) ∧
    t.succeeded ∧ t.cr1 = s.cr1 ∧
    s.sameOperands t ∧ s.sameControl t ∧ s.sameX t ∧ s.sameY t ∧ s.samePort t

/-- R100, with the formula of R93 and the opposite signs of R94: the one product `w*b` is added in `CR0` and subtracted
in `CR1`. -/
def Obligations.BflyResult : Prop :=
  decodeTxn 0x1000000010000000000000004 = .bfly ∧
  ∀ s : State, ∃ t, exec .bfly s = .next t ∧
    (∃ (r : Nat → Word) (p : ComplexValue),
      p.re = fsub (r 4) (fmul (r 0) s.cw.re s.cb.re) (fmul (r 1) s.cw.im s.cb.im) ∧
      p.im = fadd (r 5) (fmul (r 2) s.cw.re s.cb.im) (fmul (r 3) s.cw.im s.cb.re) ∧
      t.cr0 = ⟨fadd (r 6) s.ca.re p.re, fadd (r 7) s.ca.im p.im⟩ ∧
      t.cr1 = ⟨fsub (r 8) s.ca.re p.re, fsub (r 9) s.ca.im p.im⟩) ∧
    t.succeeded ∧
    s.sameOperands t ∧ s.sameControl t ∧ s.sameX t ∧ s.sameY t ∧ s.samePort t

/-- R101: a valid length gives the spectrum of `X[0 .. n]` in `Y[0 .. n]` and `YLEN = n`; the rest of `Y`, `X` and every
register but `STATUS` stay. -/
def Obligations.XformResult : Prop :=
  decodeTxn 0x1000000010000000000000005 = .xform ∧
  ∀ (s : State) (p : Nat), p ≤ s.log2Nmax.val → s.len.toNat = 2 ^ p →
    ∃ t, exec .xform s = .next t ∧
      (∃ d : Draw, ∀ k, k < 2 ^ p →
        (fft d p ((List.range (2 ^ p)).map s.xElem))[k]? = some (t.yElem k)) ∧
      t.ylen = s.len ∧
      (∀ off, 2 * 2 ^ p ≤ off → t.yWord off = s.yWord off) ∧
      t.succeeded ∧
      s.sameOperands t ∧ s.sameResults t ∧ s.sameControl t ∧ s.sameX t ∧ s.samePort t

/-- R102, R121: an invalid length raises InvalidLength: `STATUS` and the answer record it, nothing else changes. -/
def Obligations.XformInvalidLength : Prop :=
  ∀ s : State, (¬ ∃ p : Nat, p ≤ s.log2Nmax.val ∧ s.len.toNat = 2 ^ p) →
    ∃ t, exec .xform s = .next t ∧
      t.status = 0x0000000000000102 ∧ t.response = some .cmdErr ∧
      s.sameOperands t ∧ s.sameResults t ∧ s.sameControl t ∧ s.sameX t ∧ s.sameY t ∧ s.samePort t

/-- R95 at the command: a transform of length 1 copies `X[0]` to `Y[0]` bit for bit. -/
def Obligations.LengthOneCopiesTheSample : Prop :=
  ∀ s : State, s.len = 1 →
    ∃ t, exec .xform s = .next t ∧ t.yElem 0 = s.xElem 0 ∧ t.ylen = 1 ∧ t.succeeded

/-- R13, the read side of its table for the arithmetic commands and `BFLY`: the results depend on the operands the
command reads and on the NaN draws, and on nothing else. -/
def Obligations.CommandsReadOnlyTheirOperands : Prop :=
  ∀ s s' : State, s.drawInput = s'.drawInput → s.ca = s'.ca →
    (∀ t t', exec .cexp s = .next t → exec .cexp s' = .next t' → t.cr0 = t'.cr0) ∧
    (s.cb = s'.cb →
      (∀ t t', exec .cadd s = .next t → exec .cadd s' = .next t' → t.cr0 = t'.cr0) ∧
      (∀ t t', exec .cmul s = .next t → exec .cmul s' = .next t' → t.cr0 = t'.cr0) ∧
      (s.cw = s'.cw → ∀ t t', exec .bfly s = .next t → exec .bfly s' = .next t' →
        t.cr0 = t'.cr0 ∧ t.cr1 = t'.cr1))

/-- R13, R20: a transform reads `LEN` and `X[0 .. n]` and nothing else; elements at index `n` and above are ignored, and
what an earlier transform left in `Y` does not matter. -/
def Obligations.XformReadsOnlyItsSamples : Prop :=
  ∀ s s' t t' : State, s.drawInput = s'.drawInput → s.log2Nmax = s'.log2Nmax → s.len = s'.len →
    (∀ j, j < s.len.toNat → s.xElem j = s'.xElem j) →
    exec .xform s = .next t → exec .xform s' = .next t' → t.response = some .okay →
    t'.response = some .okay ∧ t'.ylen = t.ylen ∧ ∀ k, k < s.len.toNat → t'.yElem k = t.yElem k

/-- R144: a result can be read by the very next transaction after the command that produced it: every command with every
result word it writes. `readsNext i a w`: with `i` and an `RD` of `a` presented one after the other, the second is
answered `OKAY` with `w`. The port is the model's (log 1), and so is the draw input of each transaction (log 3). -/
def Obligations.ResultReadableByNextTransaction : Prop :=
  ∀ (s : State) (d₁ d₂ : Nat) (rest : List PortEvent),
    let d : Draw := Config.nanDraw d₁
    let readsNext (i : Instr) (a : Addr) (w : Word) : Prop :=
      ∃ t u, step { s with pending := .txn (encode i) d₁ :: .txn (encode (.rd a)) d₂ :: rest } = .next t ∧
        step t = .next u ∧ u.response = some (.okayData w)
    (readsNext .cadd 0x00000010 (cadd d s.ca s.cb).re ∧ readsNext .cadd 0x00000011 (cadd d s.ca s.cb).im ∧
      readsNext .cadd 0x00000002 1) ∧
    (readsNext .cmul 0x00000010 (cmul d s.ca s.cb).re ∧ readsNext .cmul 0x00000011 (cmul d s.ca s.cb).im ∧
      readsNext .cmul 0x00000002 1) ∧
    (readsNext .cexp 0x00000010 (cexp d s.ca).re ∧ readsNext .cexp 0x00000011 (cexp d s.ca).im ∧
      readsNext .cexp 0x00000002 1) ∧
    (readsNext .bfly 0x00000010 (bfly d s.ca s.cb s.cw).1.re ∧ readsNext .bfly 0x00000011 (bfly d s.ca s.cb s.cw).1.im ∧
      readsNext .bfly 0x00000012 (bfly d s.ca s.cb s.cw).2.re ∧ readsNext .bfly 0x00000013 (bfly d s.ca s.cb s.cw).2.im ∧
      readsNext .bfly 0x00000002 1) ∧
    ∀ p : Nat, p ≤ s.log2Nmax.val → s.len.toNat = 2 ^ p →
      readsNext .xform 0x00000004 s.len ∧ readsNext .xform 0x00000002 1 ∧
      ∀ k, k < 2 ^ p → ∃ z,
        (fft d p ((List.range (2 ^ p)).map ({ s with pending := [.txn (encode .xform) d₁] } : State).xElem))[k]? = some z ∧
        readsNext .xform (BitVec.ofNat 32 (0x80000000 + 2 * k)) z.re ∧
        readsNext .xform (BitVec.ofNat 32 (0x80000000 + 2 * k + 1)) z.im

/-- R90: the valid lengths are exactly `1, 2, 4, ..., NMAX`. -/
def Obligations.ValidLengthsArePowersOfTwo : Prop :=
  ∀ l n : Nat, validLen (2 ^ l) n = true ↔ ∃ p, p ≤ l ∧ n = 2 ^ p

/-! ## Number system -/

/-- R66: the sum, difference or product of finite numbers is the exact one rounded once, to nearest, ties to even,
subnormals at their value, unless it overflows (R68). The exact product is in units of 2^-2148. -/
def Obligations.ArithmeticRoundsToNearestEven : Prop :=
  ∀ r a b : Word, isFinite a = true → isFinite b = true →
    (¬ overflows (fval a + fval b) 1 →
      isFinite (fadd r a b) = true ∧ roundedTo (fval a + fval b) 1 (fadd r a b)) ∧
    (¬ overflows (fval a - fval b) 1 →
      isFinite (fsub r a b) = true ∧ roundedTo (fval a - fval b) 1 (fsub r a b)) ∧
    (¬ overflows (fval a * fval b) (2 ^ 1074) →
      isFinite (fmul r a b) = true ∧ roundedTo (fval a * fval b) (2 ^ 1074) (fmul r a b))

/-- R67 (a) to (e). -/
def Obligations.SignedZeroRules : Prop :=
  (∀ r a b : Word, isNaN (fmul r a b) = false → fsign (fmul r a b) = (fsign a != fsign b)) ∧
  (∀ r a b : Word, isFinite a = true → isFinite b = true →
    (fval a + fval b = 0 →
      fadd r a b = if a = 0x8000000000000000 ∧ b = 0x8000000000000000 then 0x8000000000000000 else 0) ∧
    (fval a - fval b = 0 →
      fsub r a b = if a = 0x8000000000000000 ∧ b = 0x0000000000000000 then 0x8000000000000000 else 0)) ∧
  (∀ r x z : Word, isZero z = true → isZero x = false → isNaN x = false → fadd r x z = x ∧ fsub r x z = x) ∧
  (∀ r x : Word, isNaN x = false →
    fmul r 0x3FF0000000000000 x = x ∧ fmul r 0xBFF0000000000000 x = fneg x) ∧
  (∀ r r' a b : Word, isNaN (fsub r a b) = false → fadd r' a (fneg b) = fsub r a b) ∧
  (∀ r r' a b : Word, isNaN (fadd r' a (fneg b)) = false → fsub r a b = fadd r' a (fneg b))

/-- R68 (a), (b), (c): overflow gives the infinity of its sign, infinity operands follow the limits, invalid operations
give a NaN. -/
def Obligations.InfinityOverflowAndInvalid : Prop :=
  (∀ r a b : Word, isFinite a = true → isFinite b = true →
    (overflows (fval a + fval b) 1 → fadd r a b = withSign (decide (fval a + fval b < 0)) 0x7FF0000000000000) ∧
    (overflows (fval a - fval b) 1 → fsub r a b = withSign (decide (fval a - fval b < 0)) 0x7FF0000000000000) ∧
    (overflows (fval a * fval b) (2 ^ 1074) →
      fmul r a b = withSign (fsign a != fsign b) 0x7FF0000000000000)) ∧
  (∀ r a b : Word, isInf a = true → isNaN b = false → ¬ addInvalid a b → fadd r a b = a ∧ fadd r b a = a) ∧
  (∀ r a b : Word, isInf a = true → isNaN b = false → ¬ subInvalid a b → fsub r a b = a ∧ fsub r b a = fneg a) ∧
  (∀ r a b : Word, isInf a = true → isNaN b = false → isZero b = false →
    fmul r a b = withSign (fsign a != fsign b) 0x7FF0000000000000 ∧
    fmul r b a = withSign (fsign a != fsign b) 0x7FF0000000000000) ∧
  (∀ r a b : Word, (addInvalid a b → isNaN (fadd r a b) = true) ∧ (subInvalid a b → isNaN (fsub r a b) = true) ∧
    (mulInvalid a b → isNaN (fmul r a b) = true))

/-- R71, R74 for the three operations and `fneg`: a NaN result is a quiet NaN, any quiet NaN may be drawn, it arises from
a NaN operand or an invalid operation only, and every other result depends on the operands alone. -/
def Obligations.NaNResultsAreFreeQuietNaNs : Prop :=
  let free (op : Word → Word → Word → Word) (invalid : Word → Word → Prop) : Prop :=
    ∀ a b : Word,
      (isNaN a = true ∨ isNaN b = true ∨ invalid a b →
        (∀ r, isQuietNaN (op r a b) = true) ∧ (∀ q, isQuietNaN q = true → op q a b = q)) ∧
      (¬(isNaN a = true ∨ isNaN b = true ∨ invalid a b) →
        ∀ r r', isNaN (op r a b) = false ∧ op r a b = op r' a b)
  free fadd addInvalid ∧ free fsub subInvalid ∧ free fmul mulInvalid ∧
  ∀ (a : Word) (i : Nat), i < 64 → (fneg a).getLsbD i = (a.getLsbD i != decide (i = 63))

/-- R72: the named properties P1 to P4 of `COS`, `SIN`, `EXPF`, and that a result that is no NaN depends on the operand
alone. -/
def Obligations.TranscendentalNamedProperties : Prop :=
  (∀ r a : Word, isNaN a = true →
    isQuietNaN (fcos r a) = true ∧ isQuietNaN (fsin r a) = true ∧ isQuietNaN (fexpf r a) = true) ∧
  (∀ r a : Word, isInf a = true → isQuietNaN (fcos r a) = true ∧ isQuietNaN (fsin r a) = true) ∧
  (∀ r : Word, fexpf r 0x7FF0000000000000 = 0x7FF0000000000000 ∧ fexpf r 0xFFF0000000000000 = 0) ∧
  (∀ r : Word, fcos r 0 = 0x3FF0000000000000 ∧ fcos r 0x8000000000000000 = 0x3FF0000000000000 ∧
    fsin r 0 = 0 ∧ fsin r 0x8000000000000000 = 0x8000000000000000 ∧
    fexpf r 0 = 0x3FF0000000000000 ∧ fexpf r 0x8000000000000000 = 0x3FF0000000000000) ∧
  (∀ r a : Word, isFinite a = true →
    isFinite (fcos r a) = true ∧ fmag (fcos r a) ≤ fmag 0x3FF0000000000000 ∧
    isFinite (fsin r a) = true ∧ fmag (fsin r a) ≤ fmag 0x3FF0000000000000) ∧
  (∀ r a : Word, isNaN a = false → isNaN (fexpf r a) = false ∧ fsign (fexpf r a) = false) ∧
  (∀ r : Word,
    (fcos r 0xBFD921FB54442D18 = 0x3FED906BCF328D46 ∧ fsin r 0xBFD921FB54442D18 = 0xBFD87DE2A6AEA963) ∧
    (fcos r 0xBFE921FB54442D18 = 0x3FE6A09E667F3BCD ∧ fsin r 0xBFE921FB54442D18 = 0xBFE6A09E667F3BCC) ∧
    (fcos r 0xBFF2D97C7F3321D2 = 0x3FD87DE2A6AEA964 ∧ fsin r 0xBFF2D97C7F3321D2 = 0xBFED906BCF328D46) ∧
    (fcos r 0xBFF921FB54442D18 = 0x3C91A62633145C07 ∧ fsin r 0xBFF921FB54442D18 = 0xBFF0000000000000) ∧
    (fcos r 0xBFFF6A7A2955385E = 0xBFD87DE2A6AEA962 ∧ fsin r 0xBFFF6A7A2955385E = 0xBFED906BCF328D46) ∧
    (fcos r 0xC002D97C7F3321D2 = 0xBFE6A09E667F3BCC ∧ fsin r 0xC002D97C7F3321D2 = 0xBFE6A09E667F3BCD) ∧
    (fcos r 0xC005FDBBE9BBA775 = 0xBFED906BCF328D46 ∧ fsin r 0xC005FDBBE9BBA775 = 0xBFD87DE2A6AEA965) ∧
    (fcos r 0xC00921FB54442D18 = 0xBFF0000000000000 ∧ fsin r 0xC00921FB54442D18 = 0xBCA1A62633145C07)) ∧
  (∀ r r' a : Word, (isFinite a = true → fcos r a = fcos r' a ∧ fsin r a = fsin r' a) ∧
    (isNaN a = false → fexpf r a = fexpf r' a))

/-- R82: the laws that hold when no NaN is produced, and those that do not hold in general: associativity,
distributivity, a correctly rounded product, and `|cexp((0, t))| = 1`. -/
def Obligations.ComplexLaws : Prop :=
  (∀ (d d' : Draw) (a b : ComplexValue), noNaN (cadd d a b) → cadd d' b a = cadd d a b) ∧
  (∀ (d d' : Draw) (a b : ComplexValue), noNaN (cmul d a b) → cmul d' b a = cmul d a b) ∧
  (∀ (d d' : Draw) (a b : ComplexValue), noNaN (csub d a b) → cadd d' a (cneg b) = csub d a b) ∧
  (∀ (d : Draw) (a : ComplexValue), bothFinite a →
    numericallyEqual (cadd d a ⟨0, 0⟩).re a.re ∧ numericallyEqual (cadd d a ⟨0, 0⟩).im a.im) ∧
  (∀ (d : Draw) (b : ComplexValue), bothFinite b →
    numericallyEqual (cmul d ⟨0x3FF0000000000000, 0⟩ b).re b.re ∧
    numericallyEqual (cmul d ⟨0x3FF0000000000000, 0⟩ b).im b.im) ∧
  (∃ (d : Draw) (a b c : ComplexValue), noNaN (cadd d (cadd d a b) c) ∧ noNaN (cadd d a (cadd d b c)) ∧
    cadd d (cadd d a b) c ≠ cadd d a (cadd d b c)) ∧
  (∃ (d : Draw) (a b c : ComplexValue), noNaN (cmul d (cmul d a b) c) ∧ noNaN (cmul d a (cmul d b c)) ∧
    cmul d (cmul d a b) c ≠ cmul d a (cmul d b c)) ∧
  (∃ (d : Draw) (a b c : ComplexValue), noNaN (cmul d a (cadd d b c)) ∧ noNaN (cadd d (cmul d a b) (cmul d a c)) ∧
    cmul d a (cadd d b c) ≠ cadd d (cmul d a b) (cmul d a c)) ∧
  (∃ (d : Draw) (a b : ComplexValue), bothFinite (cmul d a b) ∧
    ¬ roundedTo (fval a.re * fval b.re - fval a.im * fval b.im) (2 ^ 1074) (cmul d a b).re) ∧
  (∃ (d : Draw) (t : Word), isFinite t = true ∧
    fval (cexp d ⟨0, t⟩).re ^ 2 + fval (cexp d ⟨0, t⟩).im ^ 2 ≠ (2 ^ 1074) ^ 2)

/-- R78: with a zero real part, `cexp` is `(COS(t), SIN(t))` bit for bit for finite `t`. -/
def Obligations.CexpOfImaginaryIsCosSin : Prop :=
  ∀ (d : Draw) (r : Word) (z : ComplexValue), isZero z.re = true → isFinite z.im = true →
    cexp d z = ⟨fcos r z.im, fsin r z.im⟩

/-! ## FFT engine -/

/-- R91: `theta` is the rounded `TWO_PI * k / n` negated; it depends on `k/n` alone, is what multiplying `k` by the exactly
scaled `TWO_PI / n` gives, is `-0` at `k = 0`, and is finite with magnitude below `TWO_PI / 2`. -/
def Obligations.TwiddleAngle : Prop :=
  ∀ (r : Word) (k m : Nat), 1 ≤ m → m ≤ 29 → k < 2 ^ (m - 1) →
    roundedTo (-(fmag 0x401921FB54442D18 * k : Nat)) (2 ^ m) (theta k m) ∧
    theta k m = theta (2 * k) (m + 1) ∧
    theta k m = fneg (fmul r (u2f k) (0x401921FB54442D18 - BitVec.ofNat 64 (m * 2 ^ 52))) ∧
    theta 0 m = 0x8000000000000000 ∧
    isFinite (theta k m) = true ∧ fmag (theta k m) < fmag 0x400921FB54442D18

/-- R92: the twiddle factor is `(COS(theta), SIN(theta))`, the same for the length doubled with `k`, `(1.0, -0)` at
`k = 0`, and the three values the rule gives. -/
def Obligations.TwiddleFactor : Prop :=
  ∀ (d : Draw) (r : Word) (k m : Nat), 1 ≤ m → m ≤ 29 → k < 2 ^ (m - 1) →
    twiddle d k m = ⟨fcos r (theta k m), fsin r (theta k m)⟩ ∧
    (∀ d' : Draw, twiddle d' (2 * k) (m + 1) = twiddle d k m) ∧
    twiddle d 0 m = ⟨0x3FF0000000000000, 0x8000000000000000⟩ ∧
    twiddle d 1 2 = ⟨0x3C91A62633145C07, 0xBFF0000000000000⟩ ∧
    twiddle d 1 3 = ⟨0x3FE6A09E667F3BCD, 0xBFE6A09E667F3BCC⟩ ∧
    twiddle d 3 3 = ⟨0xBFE6A09E667F3BCC, 0xBFE6A09E667F3BCD⟩

/-- R95, R96: the recursion, element by element: `even[j] = x[2j]`, `odd[j] = x[2j+1]`, and butterfly `k` of `G[k]` and
`U[k]` with the twiddle of this level's length gives elements `k` and `k + n/2`. Draws are free at each level. -/
def Obligations.TransformRecursion : Prop :=
  (∀ (d : Draw) (z : ComplexValue), fft d 0 [z] = [z]) ∧
  ∀ (d : Draw) (p : Nat) (x : List ComplexValue), x.length = 2 ^ (p + 1) →
    ∃ (dG dU : Draw) (dB dT : Nat → Draw) (even odd : List ComplexValue),
      even.length = 2 ^ p ∧ odd.length = 2 ^ p ∧
      (∀ j, j < 2 ^ p → even[j]? = x[2 * j]? ∧ odd[j]? = x[2 * j + 1]?) ∧
      (fft d (p + 1) x).length = 2 ^ (p + 1) ∧
      ∀ k, k < 2 ^ p → ∃ g u, (fft dG p even)[k]? = some g ∧ (fft dU p odd)[k]? = some u ∧
        (fft d (p + 1) x)[k]? = some (bfly (dB k) g u (twiddle (dT k) k (p + 1))).1 ∧
        (fft d (p + 1) x)[k + 2 ^ p]? = some (bfly (dB k) g u (twiddle (dT k) k (p + 1))).2

/-- R98: the cascade of stages on bit-reversed input gives the same values as the recursion, bit for bit: as an algorithm,
whatever the butterfly, and in binary64 whatever the draws of either, NaN draws aside. That NaNs come out equal too is the
model's, and stands in CascadeEqualsRecursionNaNsIncluded (log 3). -/
def Obligations.CascadeEqualsRecursion : Prop :=
  (∀ (α : Type) (bf : Nat → Nat → Nat → Nat → α → α → α × α) (p : Nat) (x : List α),
    x.length = 2 ^ p → cascadeWith bf p x = fftWith bf p 1 0 x) ∧
  (∀ (d d' : Draw) (p : Nat) (x : List ComplexValue), x.length = 2 ^ p →
    (cascade d p x).length = 2 ^ p ∧
    ∀ (k : Nat) (z : ComplexValue), (cascade d p x)[k]? = some z →
      ∃ z', (fft d' p x)[k]? = some z' ∧ agreesUpToNaN z z') ∧
  (List.range 2).map (bitrev 1) = [0, 1] ∧ (List.range 4).map (bitrev 2) = [0, 2, 1, 3] ∧
  (List.range 8).map (bitrev 3) = [0, 4, 2, 6, 1, 5, 3, 7] ∧
  (List.range 16).map (bitrev 4) = [0, 8, 4, 12, 2, 10, 6, 14, 1, 9, 5, 13, 3, 11, 7, 15]

/-- R97: read in the complex numbers, the recursion computes the DFT sum, in natural order, unscaled. -/
def Obligations.ExactTransformIsTheDft : Prop :=
  ∀ (p : Nat) (x : List ℂ), x.length = 2 ^ p → ∀ k : Nat, k < 2 ^ p →
    (fftWith (fun (_ _ m k : Nat) (g u : ℂ) =>
        (g + Complex.exp (-2 * (Real.pi : ℂ) * Complex.I * (k : ℂ) / 2 ^ m) * u,
         g - Complex.exp (-2 * (Real.pi : ℂ) * Complex.I * (k : ℂ) / 2 ^ m) * u)) p 1 0 x)[k]? =
      some (∑ j ∈ Finset.range (2 ^ p),
        x.getD j 0 * Complex.exp (-2 * (Real.pi : ℂ) * Complex.I * (j : ℂ) * (k : ℂ) / 2 ^ p))

/-- 41_fft_engine.md section 8, the DC component: for a constant sequence of a finite value `c` with `n*c` not
overflowing, `Y[0] = n*c` exactly and every other output is a zero of either sign. -/
def Obligations.ConstantInputGivesOnlyDc : Prop :=
  ∀ (d : Draw) (p : Nat) (c : ComplexValue), bothFinite c →
    2 ^ p * fmag c.re ≤ fmag 0x7FEFFFFFFFFFFFFF → 2 ^ p * fmag c.im ≤ fmag 0x7FEFFFFFFFFFFFFF →
    ∃ y ys, fft d p (List.replicate (2 ^ p) c) = y :: ys ∧ bothFinite y ∧
      fval y.re = 2 ^ p * fval c.re ∧ fval y.im = 2 ^ p * fval c.im ∧
      ∀ z ∈ ys, isZero z.re = true ∧ isZero z.im = true

/-- R74, R99: apart from the NaN draws a transform, and each function it is built from, is a function of its arguments,
half by half: a half that is no NaN is the same word whatever the draws, also where another half is a NaN. -/
def Obligations.TransformIsAFunctionUpToNaN : Prop :=
  ∀ d d' : Draw,
    (∀ a b w : ComplexValue,
      agreesUpToNaN (cadd d a b) (cadd d' a b) ∧ agreesUpToNaN (csub d a b) (csub d' a b) ∧
      agreesUpToNaN (cmul d a b) (cmul d' a b) ∧ agreesUpToNaN (cexp d a) (cexp d' a) ∧
      agreesUpToNaN (bfly d a b w).1 (bfly d' a b w).1 ∧ agreesUpToNaN (bfly d a b w).2 (bfly d' a b w).2) ∧
    ∀ (p : Nat) (x : List ComplexValue), x.length = 2 ^ p → ∀ (k : Nat) (z : ComplexValue),
      (fft d p x)[k]? = some z → ∃ z', (fft d' p x)[k]? = some z' ∧ agreesUpToNaN z z'

/-- 95_test_vectors.md S1 (V-XF-3): the source's known pair, exactly, every zero `+0`; and with it the sign rule R94: the
upper half is not a copy of the lower half. -/
def Obligations.KnownTransformPair : Prop :=
  ∀ d : Draw,
    fft d 2 [⟨0x3FF0000000000000, 0⟩, ⟨0, 0⟩, ⟨0xBFF0000000000000, 0⟩, ⟨0, 0⟩] =
      [⟨0, 0⟩, ⟨0x4000000000000000, 0⟩, ⟨0, 0⟩, ⟨0x4000000000000000, 0⟩] ∧
    fft d 1 [⟨0x3FF0000000000000, 0x4000000000000000⟩, ⟨0x4008000000000000, 0xC010000000000000⟩] =
      [⟨0x4010000000000000, 0xC000000000000000⟩, ⟨0xC000000000000000, 0x4018000000000000⟩]

/-- The model's choice, log 3, beside R98, which sets NaN draws aside: the draws of a butterfly are named by its place in
the transform, so that with one and the same draws the cascade and the recursion are equal in every bit, NaNs included. -/
def Obligations.CascadeEqualsRecursionNaNsIncluded : Prop :=
  ∀ (d : Draw) (p : Nat) (x : List ComplexValue), x.length = 2 ^ p → cascade d p x = fft d p x
end

