-- ==== Sys2Proof/Laws/Binary64.lean ====
section
/-! SUPPORT. What the one rounding function does: it brackets the exact value between two neighbouring magnitudes and
takes the nearer. -/

namespace Sys2Proof.Machine

/-- The magnitude, in units of 2^-1074, of the bits 62:0 of a finite number. -/
def magOf (bits : Nat) : Nat :=
  if bits / 2 ^ 52 = 0 then bits % 2 ^ 52 else (2 ^ 52 + bits % 2 ^ 52) * 2 ^ (bits / 2 ^ 52 - 1)

theorem fmag_eq_magOf (a : Word) : fmag a = magOf (a.toNat % 2 ^ 63) := by
  have h1 : a.toNat % 2 ^ 63 / 2 ^ 52 = fexp a := by simp only [fexp]; omega
  have h2 : a.toNat % 2 ^ 63 % 2 ^ 52 = ffrac a := by simp only [ffrac]; omega
  rw [magOf, h1, h2, fmag]

/-- The magnitude whose exponent field and fraction are those of `k * 2^52 + m`, `m` a 53-bit significand. -/
theorem magOf_bits (k m : Nat) (hk : k = 0 ∨ 2 ^ 52 ≤ m) (hm : m ≤ 2 ^ 53) : magOf (k * 2 ^ 52 + m) = m * 2 ^ k := by
  rcases Nat.lt_or_ge m (2 ^ 52) with h | h
  · obtain rfl : k = 0 := by omega
    rw [magOf, if_pos (by omega)]; omega
  · rcases Nat.lt_or_ge m (2 ^ 53) with h' | h'
    · have hd : (k * 2 ^ 52 + m) / 2 ^ 52 = k + 1 := by omega
      have hr : (k * 2 ^ 52 + m) % 2 ^ 52 = m - 2 ^ 52 := by omega
      rw [magOf, hd, hr, if_neg (by omega), Nat.add_sub_cancel,
        show 2 ^ 52 + (m - 2 ^ 52) = m by omega]
    · obtain rfl : m = 2 ^ 53 := by omega
      have hd : (k * 2 ^ 52 + 2 ^ 53) / 2 ^ 52 = k + 2 := by omega
      have hr : (k * 2 ^ 52 + 2 ^ 53) % 2 ^ 52 = 0 := by omega
      rw [magOf, hd, hr, if_neg (by omega), Nat.add_zero, show k + 2 - 1 = k + 1 by omega, pow_succ]
      ring

/-- Larger bits, larger magnitude: one step. -/
theorem magOf_lt_succ (b : Nat) : magOf b < magOf (b + 1) := by
  obtain ⟨k, m, hk, hm, rfl⟩ : ∃ k m, (k = 0 ∨ 2 ^ 52 ≤ m) ∧ m < 2 ^ 53 ∧ b = k * 2 ^ 52 + m := by
    rcases Nat.lt_or_ge b (2 ^ 53) with h | h
    · exact ⟨0, b, .inl rfl, h, by omega⟩
    · exact ⟨b / 2 ^ 52 - 1, b % 2 ^ 52 + 2 ^ 52, .inr (by omega), by omega, by omega⟩
  rw [magOf_bits k m hk (by omega), Nat.add_assoc, magOf_bits k (m + 1) (by omega) (by omega)]
  exact Nat.mul_lt_mul_of_pos_right (by omega) (Nat.two_pow_pos k)

theorem magOf_strictMono : StrictMono magOf := strictMono_nat_of_lt_succ magOf_lt_succ

/-- Everything the rounding function does: the exact value lies from the magnitude of `b` up to that of `b + 1`, and the
result is the nearer of the two, the even one if they are equally near, unless that is beyond the largest finite one. -/
theorem roundMag_bracket (num den : Nat) (hd : 0 < den) :
    ∃ b, magOf b * den ≤ num ∧ num < magOf (b + 1) * den ∧
      ((roundMag num den = min b (0x7FF * 2 ^ 52) ∧
          (2 * num < (magOf b + magOf (b + 1)) * den ∨ 2 * num = (magOf b + magOf (b + 1)) * den ∧ b % 2 = 0)) ∨
       (roundMag num den = min (b + 1) (0x7FF * 2 ^ 52) ∧
          ((magOf b + magOf (b + 1)) * den < 2 * num ∨ 2 * num = (magOf b + magOf (b + 1)) * den ∧ b % 2 = 1))) := by
  obtain ⟨k, hk⟩ : ∃ k, k = Nat.log2 (num / den) - 52 := ⟨_, rfl⟩
  obtain ⟨m, hm⟩ : ∃ m, m = num / (den * 2 ^ k) := ⟨_, rfl⟩
  have hunit : 0 < den * 2 ^ k := Nat.mul_pos hd (Nat.two_pow_pos k)
  have hq : m = num / den / 2 ^ k := by rw [hm, Nat.div_div_eq_div_mul]
  have hlt : num / den < 2 ^ (Nat.log2 (num / den) + 1) := Nat.lt_log2_self
  have hm53 : m < 2 ^ 53 := by
    rw [hq, Nat.div_lt_iff_lt_mul (Nat.two_pow_pos k), ← pow_add]
    exact lt_of_lt_of_le hlt (Nat.pow_le_pow_right (by norm_num) (by omega))
  have hk52 : k = 0 ∨ 2 ^ 52 ≤ m := by
    rcases Nat.eq_zero_or_pos k with h | h
    · exact .inl h
    · right
      have hne : num / den ≠ 0 := fun h0 => by rw [h0, Nat.log2_zero] at hk; omega
      rw [hq, Nat.le_div_iff_mul_le (Nat.two_pow_pos k), ← pow_add, show 52 + k = Nat.log2 (num / den) by omega]
      exact Nat.log2_self_le hne
  have hb := magOf_bits k m hk52 (by omega)
  have hb' := magOf_bits k (m + 1) (by omega) (by omega)
  have hdm : den * 2 ^ k * m + num % (den * 2 ^ k) = num := by rw [hm]; exact Nat.div_add_mod _ _
  have hr : num % (den * 2 ^ k) < den * 2 ^ k := Nat.mod_lt _ hunit
  have hpar : (k * 2 ^ 52 + m) % 2 = m % 2 := by omega
  have e1 : magOf (k * 2 ^ 52 + m) * den = den * 2 ^ k * m := by rw [hb]; ring
  have e2 : magOf (k * 2 ^ 52 + m + 1) * den = den * 2 ^ k * m + den * 2 ^ k := by
    rw [Nat.add_assoc, hb']; ring
  have hround : roundMag num den = min (k * 2 ^ 52 +
      (if den * 2 ^ k < 2 * (num % (den * 2 ^ k)) ∨ (2 * (num % (den * 2 ^ k)) = den * 2 ^ k ∧ m % 2 = 1)
        then m + 1 else m)) (0x7FF * 2 ^ 52) := by
    simp only [roundMag, hk, hm]
  refine ⟨k * 2 ^ 52 + m, by omega, by omega, ?_⟩
  rw [hround, add_mul, e1, e2, hpar]
  split
  · right; exact ⟨by rw [Nat.add_assoc], by omega⟩
  · left; exact ⟨rfl, by omega⟩

/-- Only the ratio of the two numbers counts. -/
theorem roundMag_scale (num den c : Nat) (hc : 0 < c) : roundMag (num * c) (den * c) = roundMag num den := by
  have h1 : num * c / (den * c) = num / den := Nat.mul_div_mul_right _ _ hc
  have h2 : ∀ k, num * c / (den * c * 2 ^ k) = num / (den * 2 ^ k) := fun k => by
    rw [show den * c * 2 ^ k = den * 2 ^ k * c by ring]; exact Nat.mul_div_mul_right _ _ hc
  have h3 : ∀ k, num * c % (den * c * 2 ^ k) = num % (den * 2 ^ k) * c := fun k => by
    rw [show den * c * 2 ^ k = den * 2 ^ k * c by ring]; exact Nat.mul_mod_mul_right _ _ _
  have h4 : ∀ k r, (den * c * 2 ^ k < 2 * (r * c)) ↔ (den * 2 ^ k < 2 * r) := fun k r => by
    rw [show den * c * 2 ^ k = den * 2 ^ k * c by ring, show 2 * (r * c) = 2 * r * c by ring]
    exact Nat.mul_lt_mul_right hc
  have h5 : ∀ k r, (2 * (r * c) = den * c * 2 ^ k) ↔ (2 * r = den * 2 ^ k) := fun k r => by
    rw [show den * c * 2 ^ k = den * 2 ^ k * c by ring, show 2 * (r * c) = 2 * r * c by ring]
    exact Nat.mul_left_inj hc.ne'
  simp only [roundMag, h1, h2, h3, h4, h5]

/-- A magnitude that is representable is not changed by rounding. -/
theorem roundMag_exact (b den : Nat) (hd : 0 < den) (hb : b ≤ 0x7FF * 2 ^ 52) : roundMag (magOf b * den) den = b := by
  obtain ⟨c, h1, h2, h3⟩ := roundMag_bracket (magOf b * den) den hd
  have hcb : c = b := by
    have l1 : c ≤ b := magOf_strictMono.le_iff_le.1 (Nat.le_of_mul_le_mul_right h1 hd)
    have l2 : b < c + 1 := magOf_strictMono.lt_iff_lt.1 (Nat.lt_of_mul_lt_mul_right h2)
    omega
  subst hcb
  have hlt := Nat.mul_lt_mul_of_pos_right (magOf_lt_succ c) hd
  rcases h3 with ⟨h3, _⟩ | ⟨_, h3⟩
  · rw [h3]; omega
  · rw [add_mul] at h3; omega

theorem roundMag_le (num den : Nat) : roundMag num den ≤ 0x7FF * 2 ^ 52 := Nat.min_le_right _ _

/-! Words: sign, kind, magnitude, value. -/

theorem toNat_withSign (s : Bool) (b : Nat) (h : b < 2 ^ 63) : (withSign s b).toNat = s.toNat * 2 ^ 63 + b := by
  have : (withSign s b).toNat = (BitVec.ofBool s ++ BitVec.ofNat 63 b).toNat := rfl
  rw [this, BitVec.toNat_append, BitVec.toNat_ofNat, Nat.mod_eq_of_lt h, ← Nat.shiftLeft_add_eq_or_of_lt h,
    Nat.shiftLeft_eq, BitVec.toNat_ofBool]

theorem fsign_eq (a : Word) : fsign a = decide (2 ^ 63 ≤ a.toNat) := by
  have := a.isLt
  rw [fsign, BitVec.getLsbD, Nat.testBit_eq_decide_div_mod_eq]
  congr 1
  apply propext
  omega

theorem fsign_withSign (s : Bool) (b : Nat) (h : b < 2 ^ 63) : fsign (withSign s b) = s := by
  rw [fsign_eq, toNat_withSign s b h]
  cases s <;> simp <;> omega

theorem fmag_withSign (s : Bool) (b : Nat) (h : b < 2 ^ 63) : fmag (withSign s b) = magOf b := by
  rw [fmag_eq_magOf, toNat_withSign s b h]
  congr 1
  cases s <;> simp <;> omega

theorem fval_withSign (s : Bool) (b : Nat) (h : b < 2 ^ 63) :
    fval (withSign s b) = if s then -(magOf b : Int) else (magOf b : Int) := by
  rw [fval, fsign_withSign s b h, fmag_withSign s b h]

theorem isFinite_iff (a : Word) : isFinite a = true ↔ a.toNat % 2 ^ 63 < 0x7FF * 2 ^ 52 := by
  have := a.isLt
  simp only [isFinite, fexp, bne_iff_ne, ne_eq]
  omega

theorem isZero_iff (a : Word) : isZero a = true ↔ a.toNat % 2 ^ 63 = 0 := by
  simp only [isZero, fexp, ffrac, Bool.and_eq_true, beq_iff_eq]; omega

theorem isInf_iff (a : Word) : isInf a = true ↔ a.toNat % 2 ^ 63 = 0x7FF * 2 ^ 52 := by
  have := a.isLt
  simp only [isInf, fexp, ffrac, Bool.and_eq_true, beq_iff_eq]; omega

theorem isNaN_iff (a : Word) : isNaN a = true ↔ 0x7FF * 2 ^ 52 < a.toNat % 2 ^ 63 := by
  have := a.isLt
  simp only [isNaN, fexp, ffrac, Bool.and_eq_true, beq_iff_eq, bne_iff_ne]; omega

theorem isNaN_false_iff (a : Word) : isNaN a = false ↔ a.toNat % 2 ^ 63 ≤ 0x7FF * 2 ^ 52 := by
  rw [Bool.eq_false_iff, Ne, isNaN_iff]; omega

theorem isFinite_withSign (s : Bool) (b : Nat) (h : b < 2 ^ 63) :
    isFinite (withSign s b) = true ↔ b < 0x7FF * 2 ^ 52 := by
  rw [isFinite_iff, toNat_withSign s b h]
  cases s <;> simp <;> omega

theorem lsb_withSign (s : Bool) (b : Nat) (h : b < 2 ^ 63) : (withSign s b).getLsbD 0 = decide (b % 2 = 1) := by
  rw [BitVec.getLsbD, Nat.testBit_eq_decide_div_mod_eq, toNat_withSign s b h]
  congr 1
  apply propext
  cases s <;> simp <;> omega

theorem eq_withSign (a : Word) : a = withSign (fsign a) (a.toNat % 2 ^ 63) := by
  have := a.isLt
  apply BitVec.eq_of_toNat_eq
  rw [toNat_withSign _ _ (Nat.mod_lt _ (by norm_num)), fsign_eq]
  by_cases h : 2 ^ 63 ≤ a.toNat
  · rw [decide_eq_true h]; simp only [Bool.toNat_true]; omega
  · rw [decide_eq_false h]; simp only [Bool.toNat_false]; omega

theorem word_eq {a b : Word} (hs : fsign a = fsign b) (hm : a.toNat % 2 ^ 63 = b.toNat % 2 ^ 63) : a = b := by
  rw [eq_withSign a, eq_withSign b, hs, hm]

theorem withSign_mod (s : Bool) (b : Nat) (h : b < 2 ^ 63) : (withSign s b).toNat % 2 ^ 63 = b := by
  rw [toNat_withSign s b h]; cases s <;> simp <;> omega

theorem toNat_mod (a : Word) : a.toNat % 2 ^ 63 < 2 ^ 63 := Nat.mod_lt _ (by norm_num)

theorem fval_eq_magOf (a : Word) : fval a = if fsign a then -(magOf (a.toNat % 2 ^ 63) : Int) else (magOf (a.toNat % 2 ^ 63) : Int) := by
  rw [fval, fmag_eq_magOf]

theorem magOf_zero : magOf 0 = 0 := by decide

theorem magOf_eq_zero (b : Nat) : magOf b = 0 ↔ b = 0 := by
  rw [← magOf_zero]; exact magOf_strictMono.injective.eq_iff

theorem fval_eq_zero (a : Word) : fval a = 0 ↔ isZero a = true := by
  rw [isZero_iff, fval_eq_magOf, ← magOf_eq_zero]; split <;> omega

theorem fmag_eq_zero (a : Word) : fmag a = 0 ↔ isZero a = true := by
  rw [isZero_iff, fmag_eq_magOf, magOf_eq_zero]

theorem roundMag_lt (num den : Nat) : roundMag num den < 2 ^ 63 :=
  lt_of_le_of_lt (roundMag_le num den) (by norm_num)

theorem roundMag_magOf (b : Nat) (h : b ≤ 0x7FF * 2 ^ 52) : roundMag (magOf b) 1 = b := by
  have := roundMag_exact b 1 (by norm_num) h
  rwa [Nat.mul_one] at this

/-- Rounding does not go past a representable magnitude. -/
theorem roundMag_le_of_le (num den c : Nat) (hd : 0 < den) (h : num ≤ magOf c * den) : roundMag num den ≤ c := by
  obtain ⟨b, h1, h2, h3⟩ := roundMag_bracket num den hd
  have hbc : b ≤ c := magOf_strictMono.le_iff_le.1 (Nat.le_of_mul_le_mul_right (h1.trans h) hd)
  rcases Nat.eq_or_lt_of_le hbc with rfl | hlt
  · have := Nat.mul_lt_mul_of_pos_right (magOf_lt_succ b) hd
    rw [add_mul] at h3
    rcases h3 with ⟨h3, _⟩ | ⟨h3, _⟩ <;> omega
  · rcases h3 with ⟨h3, _⟩ | ⟨h3, _⟩ <;> omega

/-- The rounded magnitude is nearest among all values of words, and even where another value is as near. -/
theorem roundMag_nearest (num den : Nat) (hd : 0 < den) (hf : roundMag num den < 0x7FF * 2 ^ 52) (c : Int)
    (hc : ∃ j : Nat, c = magOf j ∨ c = -(magOf j : Int)) :
    |(magOf (roundMag num den) : Int) * den - num| ≤ |c * den - num| ∧
    (|(magOf (roundMag num den) : Int) * den - num| = |c * den - num| → c ≠ magOf (roundMag num den) →
      roundMag num den % 2 = 0) := by
  obtain ⟨b, h1, h2, h3⟩ := roundMag_bracket num den hd
  obtain ⟨lo, hlo⟩ : ∃ lo : Int, lo = (magOf b : Int) * den := ⟨_, rfl⟩
  obtain ⟨hi, hhi⟩ : ∃ hi : Int, hi = (magOf (b + 1) : Int) * den := ⟨_, rfl⟩
  have h1' : lo ≤ num := by rw [hlo]; exact_mod_cast h1
  have h2' : (num : Int) < hi := by rw [hhi]; exact_mod_cast h2
  have hlo0 : 0 ≤ lo := by rw [hlo]; positivity
  have hdd : (0 : Int) < den := by exact_mod_cast hd
  have hcc : c * den < lo ∨ c = magOf b ∨ c = magOf (b + 1) ∨ hi < c * den := by
    have key : c < magOf b ∨ c = magOf b ∨ c = magOf (b + 1) ∨ (magOf (b + 1) : Int) < c := by
      obtain ⟨j, rfl | rfl⟩ := hc
      · rcases Nat.lt_trichotomy j b with h | h | h
        · left; exact_mod_cast magOf_strictMono h
        · right; left; rw [h]
        · rcases Nat.lt_or_ge (b + 1) j with h' | h'
          · right; right; right; exact_mod_cast magOf_strictMono h'
          · right; right; left; rw [show j = b + 1 by omega]
      · have := magOf_strictMono.monotone (Nat.zero_le b); omega
    rcases key with h | h | h | h
    · left; rw [hlo]; exact Int.mul_lt_mul_of_pos_right h hdd
    · exact .inr (.inl h)
    · exact .inr (.inr (.inl h))
    · right; right; right; rw [hhi]; exact Int.mul_lt_mul_of_pos_right h hdd
  have hs : (((magOf b + magOf (b + 1)) * den : Nat) : Int) = lo + hi := by push_cast; rw [hlo, hhi]; ring
  rcases h3 with ⟨hr, ht⟩ | ⟨hr, ht⟩
  · have hrb : roundMag num den = b := by omega
    have ht' : 2 * (num : Int) < lo + hi ∨ 2 * (num : Int) = lo + hi ∧ b % 2 = 0 := by
      rw [← hs]; rcases ht with h | h <;> [left; right] <;> [exact_mod_cast h; exact_mod_cast h]
    rw [hrb, ← hlo]
    rcases hcc with h | rfl | rfl | h
    · rw [abs_of_nonpos (by omega), abs_of_nonpos (by omega)]; omega
    · rw [← hlo]; simp
    · rw [← hhi, abs_of_nonpos (by omega), abs_of_nonneg (by omega)]; omega
    · rw [abs_of_nonpos (by omega), abs_of_nonneg (by omega)]; omega
  · have hrb : roundMag num den = b + 1 := by omega
    have ht' : lo + hi < 2 * (num : Int) ∨ 2 * (num : Int) = lo + hi ∧ b % 2 = 1 := by
      rw [← hs]; rcases ht with h | h <;> [left; right] <;> [exact_mod_cast h; exact_mod_cast h]
    rw [hrb, ← hhi]
    rcases hcc with h | rfl | rfl | h
    · rw [abs_of_nonneg (by omega), abs_of_nonpos (by omega)]; omega
    · rw [← hlo, abs_of_nonneg (by omega), abs_of_nonpos (by omega)]; omega
    · rw [← hhi]; simp
    · rw [abs_of_nonneg (by omega), abs_of_nonneg (by omega)]; omega

theorem magOf_max : magOf (0x7FF * 2 ^ 52 - 1) = (2 ^ 53 - 1) * 2 ^ 2045 := by decide +kernel

theorem magOf_inf : magOf (0x7FF * 2 ^ 52) = 2 ^ 53 * 2 ^ 2045 := by decide +kernel

theorem roundMag_overflow (num den : Nat) (hd : 0 < den) :
    roundMag num den = 0x7FF * 2 ^ 52 ↔ (2 ^ 54 - 1) * 2 ^ 2044 * den ≤ num := by
  obtain ⟨b, h1, h2, h3⟩ := roundMag_bracket num den hd
  obtain ⟨M, hM⟩ : ∃ M, M = 0x7FF * 2 ^ 52 - 1 := ⟨_, rfl⟩
  have hM1 : 0x7FF * 2 ^ 52 = M + 1 := by omega
  rw [hM1] at h3 ⊢
  have e1 : magOf M = (2 ^ 53 - 1) * 2 ^ 2045 := by rw [hM]; exact magOf_max
  have e2 : magOf (M + 1) = 2 ^ 53 * 2 ^ 2045 := by rw [← hM1]; exact magOf_inf
  have hT : (magOf M + magOf (M + 1)) * den = 2 * ((2 ^ 54 - 1) * 2 ^ 2044 * den) := by
    rw [e1, e2]; generalize hq : (2:Nat) ^ 2044 = q
    have : (2:Nat) ^ 2045 = 2 * q := by rw [← hq, ← pow_succ']
    rw [this, Nat.mul_assoc (2 ^ 54 - 1) q den]
    have e : ∀ c : Nat, c * (2 * q) * den = 2 * (c * (q * den)) := fun c => by ring
    rw [add_mul, e, e]
    generalize q * den = z
    omega
  have hodd : M % 2 = 1 := by omega
  have hmono := magOf_strictMono.monotone
  rcases Nat.lt_trichotomy b M with h | h | h
  · -- below
    have k : magOf (b + 1) * den ≤ magOf M * den := Nat.mul_le_mul_right _ (hmono (by omega))
    have k2 : magOf M * den ≤ magOf (M + 1) * den := Nat.mul_le_mul_right _ (hmono (by omega))
    rw [add_mul] at hT
    constructor
    · intro h; rcases h3 with ⟨h3, _⟩ | ⟨h3, _⟩ <;> omega
    · intro; omega
  · subst h
    rcases h3 with ⟨h3, h4⟩ | ⟨h3, h4⟩ <;> rw [hT] at h4 <;> constructor <;> intro <;> omega
  · have k : magOf (M + 1) * den ≤ magOf b * den := Nat.mul_le_mul_right _ (hmono (by omega))
    have k2 : magOf M * den ≤ magOf (M + 1) * den := Nat.mul_le_mul_right _ (hmono (by omega))
    rw [add_mul] at hT
    constructor
    · intro; omega
    · intro; rcases h3 with ⟨h3, _⟩ | ⟨h3, _⟩ <;> omega

/-- A word is a NaN, an infinity or finite. -/
theorem word_kinds (a : Word) : (isNaN a = true ∧ isInf a = false ∧ isFinite a = false) ∨ (isNaN a = false ∧ isInf a = true ∧ isFinite a = false) ∨
   (isNaN a = false ∧ isInf a = false ∧ isFinite a = true) := by
  simp only [Bool.eq_false_iff, Ne, isNaN_iff, isInf_iff, isFinite_iff]; omega

theorem isFinite_kinds (a : Word) (h : isFinite a = true) : isNaN a = false ∧ isInf a = false := by
  simp only [isFinite, isNaN, isInf] at *
  simp at h; simp [h]

theorem isZero_fin {a : Word} (h : isZero a = true) : isFinite a = true := by
  rw [isZero_iff] at h; rw [isFinite_iff, h]; norm_num

theorem isNaN_quietNaN (r : Word) : isNaN (quietNaN r) = true := by
  rw [isNaN_iff]
  have h := (quietNaN r).isLt
  have hle : 0x7FF8000000000000 ≤ (quietNaN r).toNat % 2 ^ 63 := by
    have e : (quietNaN r).toNat % 2 ^ 63 = (r.toNat % 2 ^ 63) ||| 0x7FF8000000000000 := by
      rw [quietNaN, BitVec.toNat_or, Nat.or_mod_two_pow]; rfl
    rw [e]; exact Nat.right_le_or
  omega

theorem isQuiet_quietNaN (r : Word) : isQuietNaN (quietNaN r) = true := by
  rw [isQuietNaN, isNaN_quietNaN, Bool.true_and, quietNaN, BitVec.getLsbD_or]
  rw [show (0x7FF8000000000000 : Word).getLsbD 51 = true by decide]; simp

theorem fneg_eq (a : Word) : fneg a = withSign (!fsign a) (a.toNat % 2 ^ 63) := by
  have h := a.isLt
  apply BitVec.eq_of_toNat_eq
  rw [toNat_withSign _ _ (Nat.mod_lt _ (by norm_num)), fneg, BitVec.toNat_xor, fsign_eq]
  have : (0x8000000000000000 : Word).toNat = 2 ^ 63 := by decide
  rw [this]
  have hx : a.toNat ^^^ 2 ^ 63 = if 2 ^ 63 ≤ a.toNat then a.toNat - 2 ^ 63 else a.toNat + 2 ^ 63 := by
    apply Nat.eq_of_testBit_eq
    intro i
    rw [Nat.testBit_xor, Nat.testBit_two_pow]
    split
    · rename_i hh
      have e : a.toNat = 2 ^ 63 + (a.toNat - 2 ^ 63) := by omega
      have hl : a.toNat - 2 ^ 63 < 2 ^ 63 := by omega
      by_cases hi : i = 63
      · subst hi
        rw [Nat.testBit_lt_two_pow hl, e, Nat.testBit_two_pow_add_eq, Nat.testBit_lt_two_pow hl]; simp
      · rcases Nat.lt_or_ge i 63 with hi' | hi'
        · rw [e, Nat.testBit_two_pow_add_gt hi', show 2 ^ 63 + (a.toNat - 2 ^ 63) - 2 ^ 63 = a.toNat - 2 ^ 63 by omega]
          simp [Ne.symm hi]
        · have : 2 ^ 64 ≤ 2 ^ i := Nat.pow_le_pow_right (by norm_num) (by omega)
          rw [Nat.testBit_lt_two_pow (by omega), Nat.testBit_lt_two_pow (by omega)]; simp [Ne.symm hi]
    · rename_i hh
      have hl : a.toNat < 2 ^ 63 := by omega
      rw [Nat.add_comm]
      by_cases hi : i = 63
      · subst hi
        rw [Nat.testBit_lt_two_pow hl, Nat.testBit_two_pow_add_eq, Nat.testBit_lt_two_pow hl]; simp
      · rcases Nat.lt_or_ge i 63 with hi' | hi'
        · rw [Nat.testBit_two_pow_add_gt hi']; simp [Ne.symm hi]
        · have : 2 ^ 64 ≤ 2 ^ i := Nat.pow_le_pow_right (by norm_num) (by omega)
          rw [Nat.testBit_lt_two_pow (by omega), Nat.testBit_lt_two_pow (by omega)]; simp [Ne.symm hi]
  rw [hx]
  by_cases h : 2 ^ 63 ≤ a.toNat
  · rw [decide_eq_true h, if_pos h]; simp only [Bool.not_true, Bool.toNat_false]; omega
  · rw [decide_eq_false h, if_neg h]; simp only [Bool.not_false, Bool.toNat_true]; omega

theorem fneg_mod (a : Word) : (fneg a).toNat % 2 ^ 63 = a.toNat % 2 ^ 63 := by
  rw [fneg_eq, withSign_mod _ _ (toNat_mod a)]

theorem fsign_fneg (a : Word) : fsign (fneg a) = !fsign a := by
  rw [fneg_eq, fsign_withSign _ _ (toNat_mod a)]

theorem isNaN_congr {a b : Word} (h : a.toNat % 2 ^ 63 = b.toNat % 2 ^ 63) : isNaN a = isNaN b := by
  rw [Bool.eq_iff_iff, isNaN_iff, isNaN_iff, h]

theorem isInf_congr {a b : Word} (h : a.toNat % 2 ^ 63 = b.toNat % 2 ^ 63) : isInf a = isInf b := by
  rw [Bool.eq_iff_iff, isInf_iff, isInf_iff, h]

theorem isFinite_congr {a b : Word} (h : a.toNat % 2 ^ 63 = b.toNat % 2 ^ 63) : isFinite a = isFinite b := by
  rw [Bool.eq_iff_iff, isFinite_iff, isFinite_iff, h]

theorem isNaN_fneg (a : Word) : isNaN (fneg a) = isNaN a := isNaN_congr (fneg_mod a)

theorem isInf_fneg (a : Word) : isInf (fneg a) = isInf a := isInf_congr (fneg_mod a)

theorem isFinite_fneg (a : Word) : isFinite (fneg a) = isFinite a := isFinite_congr (fneg_mod a)

theorem fval_fneg (a : Word) : fval (fneg a) = - fval a := by
  rw [fval_eq_magOf, fval_eq_magOf, fsign_fneg, fneg_mod]
  cases fsign a <;> simp

theorem roundMag_notNaN (s : Bool) (b : Nat) (h : b ≤ 0x7FF * 2 ^ 52) : isNaN (withSign s b) = false := by
  rw [isNaN_false_iff, withSign_mod _ _ (by omega)]; exact h

theorem roundSum_notNaN (v : Int) (z : Bool) : isNaN (roundSum v z) = false := by
  unfold roundSum; split
  · exact roundMag_notNaN _ _ (by norm_num)
  · exact roundMag_notNaN _ _ (roundMag_le _ _)

theorem roundSum_exact (a : Word) (z : Bool) (hf : isFinite a = true) (hz : isZero a = false) : roundSum (fval a) z = a := by
  have h0 : fval a ≠ 0 := fun h => by rw [fval_eq_zero] at h; rw [h] at hz; cases hz
  rw [isFinite_iff] at hf
  rw [roundSum, if_neg h0]
  have e1 : (fval a).natAbs = magOf (a.toNat % 2 ^ 63) := by rw [fval_eq_magOf]; split <;> omega
  have e2 : decide (fval a < 0) = fsign a := by
    rw [fval_eq_magOf] at h0 ⊢
    cases hs : fsign a <;> simp [hs] at h0 ⊢ <;> omega
  rw [e1, e2, roundMag_magOf _ (by omega), ← eq_withSign]

theorem fadd_fin (r a b : Word) (ha : isFinite a = true) (hb : isFinite b = true) :
    fadd r a b = roundSum (fval a + fval b) (fsign a && fsign b) := by
  simp [fadd, isFinite_kinds a ha, isFinite_kinds b hb]

theorem fsub_fin (r a b : Word) (ha : isFinite a = true) (hb : isFinite b = true) :
    fsub r a b = roundSum (fval a - fval b) (fsign a && !fsign b) := by
  simp [fsub, isFinite_kinds a ha, isFinite_kinds b hb]

theorem fmul_fin (r a b : Word) (ha : isFinite a = true) (hb : isFinite b = true) :
    fmul r a b = withSign (fsign a != fsign b) (roundMag (fmag a * fmag b) (2 ^ 1074)) := by
  simp [fmul, isFinite_kinds a ha, isFinite_kinds b hb]

theorem fval_mul (a b : Word) : fval a * fval b = if (fsign a != fsign b) = true then -((fmag a * fmag b : Nat) : Int) else ((fmag a * fmag b : Nat) : Int) := by
  unfold fval
  cases fsign a <;> cases fsign b <;> simp

theorem fsign_of_neg (a : Word) : (fval a < 0 → fsign a = true) ∧ (0 < fval a → fsign a = false) := by
  rw [fval_eq_magOf]; cases fsign a <;> simp

theorem u2f_fin (k : Nat) (hk : k < 2 ^ 53) : isFinite (u2f k) = true ∧ fmag (u2f k) = k * 2 ^ 1074 ∧ fsign (u2f k) = false := by
  obtain ⟨b, hb, hbm⟩ : ∃ b, b < 0x7FF * 2 ^ 52 ∧ magOf b = k * 2 ^ 1074 := by
    rcases Nat.eq_zero_or_pos k with rfl | hpos
    · exact ⟨0, by norm_num, by rw [magOf_zero]; simp⟩
    · have hl := Nat.log2_self_le (n := k) (by omega)
      have hu := Nat.lt_log2_self (n := k)
      have hl52 : Nat.log2 k ≤ 52 := by
        by_contra hc
        have : 2 ^ 53 ≤ 2 ^ Nat.log2 k := Nat.pow_le_pow_right (by norm_num) (by omega)
        omega
      refine ⟨(1074 - (52 - Nat.log2 k)) * 2 ^ 52 + k * 2 ^ (52 - Nat.log2 k), ?_, ?_⟩
      · have : k * 2 ^ (52 - Nat.log2 k) < 2 ^ 53 := by
          calc k * 2 ^ (52 - Nat.log2 k) < 2 ^ (Nat.log2 k + 1) * 2 ^ (52 - Nat.log2 k) := Nat.mul_lt_mul_of_pos_right hu (Nat.two_pow_pos _)
            _ = 2 ^ 53 := by rw [← pow_add]; congr 1; omega
        omega
      · rw [magOf_bits]
        · rw [Nat.mul_assoc, ← pow_add]; congr 2; omega
        · right
          calc 2 ^ 52 = 2 ^ Nat.log2 k * 2 ^ (52 - Nat.log2 k) := by rw [← pow_add]; congr 1; omega
            _ ≤ _ := Nat.mul_le_mul_right _ hl
        · have : k * 2 ^ (52 - Nat.log2 k) < 2 ^ 53 := by
            calc k * 2 ^ (52 - Nat.log2 k) < 2 ^ (Nat.log2 k + 1) * 2 ^ (52 - Nat.log2 k) := Nat.mul_lt_mul_of_pos_right hu (Nat.two_pow_pos _)
              _ = 2 ^ 53 := by rw [← pow_add]; congr 1; omega
          omega
  have hr : u2f k = withSign false b := by rw [u2f, ← hbm, roundMag_magOf _ (by omega)]
  rw [hr]
  exact ⟨(isFinite_withSign _ _ (by omega)).2 hb, by rw [fmag_withSign _ _ (by omega), hbm], fsign_withSign _ _ (by omega)⟩

end Sys2Proof.Machine
end

