-- ==== Sys2Proof/Laws/Buffers.lean ====
section
/-! SUPPORT. Buffers: what is read after a write, and that every buffer operation keeps the canonical form. -/

namespace Sys2Proof.Machine

@[simp] theorem bufferWord_nil (off : Nat) : bufferWord [] off = none := rfl

theorem bufferWord_cons (k : Nat) (v : Word) (b : Buffer) (off : Nat) :
    bufferWord ((k, v) :: b) off = if k = off then some v else bufferWord b off := rfl

/-- In a canonical buffer nothing is listed below the first entry. -/
theorem bufferWord_below (b : Buffer) (off : Nat) (h : ∀ e ∈ b, off < e.1) : bufferWord b off = none := by
  induction b with
  | nil => rfl
  | cons e b ih =>
    obtain ⟨k, v⟩ := e
    have hk := h (k, v) (by simp)
    rw [bufferWord_cons, if_neg (by simp at hk; omega)]
    exact ih fun e he => h e (by simp [he])

/-- A write is read back. -/
@[simp] theorem bufferWord_put_same (b : Buffer) (off : Nat) (w : Word) :
    bufferWord (bufferPut b off w) off = some w := by
  induction b with
  | nil => simp [bufferPut, bufferWord_cons]
  | cons e b ih =>
    obtain ⟨k, v⟩ := e
    simp only [bufferPut]
    split
    · simp [bufferWord_cons]
    · split
      · simp [bufferWord_cons]
      · rw [bufferWord_cons, if_neg (by omega), ih]

/-- A write leaves every other offset alone. -/
theorem bufferWord_put_other (b : Buffer) (off i : Nat) (w : Word) (h : i ≠ off) :
    bufferWord (bufferPut b off w) i = bufferWord b i := by
  induction b with
  | nil => simp [bufferPut, bufferWord_cons, Ne.symm h]
  | cons e b ih =>
    obtain ⟨k, v⟩ := e
    simp only [bufferPut]
    split
    · rw [bufferWord_cons, if_neg (Ne.symm h)]
    · split
      · subst_vars; simp [bufferWord_cons, Ne.symm h]
      · simp only [bufferWord_cons, ih]

theorem bufferWord_put (b : Buffer) (off i : Nat) (w : Word) :
    bufferWord (bufferPut b off w) i = if i = off then some w else bufferWord b i := by
  split
  · subst_vars; exact bufferWord_put_same b _ w
  · exact bufferWord_put_other b off i w ‹_›

/-- What a write leaves listed: the word written or what was listed. -/
theorem mem_bufferPut {b : Buffer} {off : Nat} {w : Word} {e : Nat × Word} (h : e ∈ bufferPut b off w) :
    e = (off, w) ∨ e ∈ b := by
  induction b with
  | nil => simpa [bufferPut] using h
  | cons f b ih =>
    obtain ⟨k, v⟩ := f
    simp only [bufferPut] at h
    split at h
    · simpa using h
    · split at h
      · rcases List.mem_cons.1 h with h | h
        · exact .inl h
        · exact .inr (by simp [h])
      · rcases List.mem_cons.1 h with h | h
        · exact .inr (by simp [h])
        · rcases ih h with h | h
          · exact .inl h
          · exact .inr (by simp [h])

/-- A write keeps the canonical form. -/
theorem bufferPut_wf {b : Buffer} (h : Buffer.wf b) (off : Nat) (w : Word) : Buffer.wf (bufferPut b off w) := by
  induction b with
  | nil => simp [bufferPut, Buffer.wf]
  | cons e b ih =>
    obtain ⟨k, v⟩ := e
    have hb := List.pairwise_cons.1 h
    simp only [bufferPut]
    split
    · refine List.pairwise_cons.2 ⟨fun e he => ?_, h⟩
      rcases List.mem_cons.1 he with rfl | he
      · simpa
      · have := hb.1 e he; simp only at this ⊢; omega
    · split
      · subst_vars; exact List.pairwise_cons.2 ⟨hb.1, hb.2⟩
      · refine List.pairwise_cons.2 ⟨fun e he => ?_, ih hb.2⟩
        rcases mem_bufferPut he with rfl | he
        · simp only; omega
        · exact hb.1 e he

/-- Writing the same word again changes nothing. -/
theorem bufferPut_idem (b : Buffer) (off : Nat) (w : Word) :
    bufferPut (bufferPut b off w) off w = bufferPut b off w := by
  induction b with
  | nil => simp [bufferPut]
  | cons e b ih =>
    obtain ⟨k, v⟩ := e
    by_cases h1 : off < k
    · simp [bufferPut, h1]
    · by_cases h2 : off = k
      · simp [bufferPut, h2]
      · simp [bufferPut, h1, h2, ih]

/-! A complex element. -/

theorem bufferPutComplex_wf {b : Buffer} (h : Buffer.wf b) (i : Nat) (z : ComplexValue) :
    Buffer.wf (bufferPutComplex b i z) :=
  bufferPut_wf (bufferPut_wf h _ _) _ _

theorem bufferWord_putComplex (b : Buffer) (i off : Nat) (z : ComplexValue) :
    bufferWord (bufferPutComplex b i z) off =
      if off = 2 * i then some z.re else if off = 2 * i + 1 then some z.im else bufferWord b off := by
  simp only [bufferPutComplex, bufferWord_put]
  by_cases h : off = 2 * i + 1
  · rw [if_pos h, if_neg (by omega), if_pos h]
  · rw [if_neg h, if_neg h]

/-! A sequence of elements. -/

theorem bufferPutSeq_wf {b : Buffer} (h : Buffer.wf b) (i : Nat) (zs : List ComplexValue) :
    Buffer.wf (bufferPutSeq b i zs) := by
  induction zs generalizing b i with
  | nil => exact h
  | cons z zs ih => exact ih (bufferPutComplex_wf h i z) (i + 1)

/-- Offsets outside the elements written read as before. -/
theorem bufferWord_putSeq_other (b : Buffer) (i off : Nat) (zs : List ComplexValue)
    (h : off < 2 * i ∨ 2 * (i + zs.length) ≤ off) :
    bufferWord (bufferPutSeq b i zs) off = bufferWord b off := by
  induction zs generalizing b i with
  | nil => rfl
  | cons z zs ih =>
    simp only [List.length_cons] at h
    rw [bufferPutSeq, ih _ _ (by omega), bufferWord_putComplex, if_neg (by omega), if_neg (by omega)]

/-- The real part of an element written. -/
theorem bufferWord_putSeq_re (b : Buffer) (i k : Nat) (zs : List ComplexValue) (h : k < zs.length) :
    bufferWord (bufferPutSeq b i zs) (2 * (i + k)) = some (zs[k]).re := by
  induction zs generalizing b i k with
  | nil => simp at h
  | cons z zs ih =>
    rw [bufferPutSeq]
    cases k with
    | zero =>
      rw [bufferWord_putSeq_other _ _ _ _ (by omega), bufferWord_putComplex]
      simp
    | succ k =>
      have := ih (bufferPutComplex b i z) (i + 1) k (by simpa using h)
      rw [show 2 * (i + (k + 1)) = 2 * (i + 1 + k) by omega, this]
      simp

/-- The imaginary part of an element written. -/
theorem bufferWord_putSeq_im (b : Buffer) (i k : Nat) (zs : List ComplexValue) (h : k < zs.length) :
    bufferWord (bufferPutSeq b i zs) (2 * (i + k) + 1) = some (zs[k]).im := by
  induction zs generalizing b i k with
  | nil => simp at h
  | cons z zs ih =>
    rw [bufferPutSeq]
    cases k with
    | zero =>
      rw [bufferWord_putSeq_other _ _ _ _ (by omega), bufferWord_putComplex]
      simp
    | succ k =>
      have := ih (bufferPutComplex b i z) (i + 1) k (by simpa using h)
      rw [show 2 * (i + (k + 1)) + 1 = 2 * (i + 1 + k) + 1 by omega, this]
      simp

/-- What a sequence of writes leaves listed. -/
theorem mem_bufferPutSeq {b : Buffer} {i : Nat} {zs : List ComplexValue} {e : Nat × Word}
    (h : e ∈ bufferPutSeq b i zs) : e.1 < 2 * (i + zs.length) ∨ e ∈ b := by
  induction zs generalizing b i with
  | nil => exact .inr h
  | cons z zs ih =>
    simp only [List.length_cons]
    rcases ih h with h | h
    · exact .inl (by omega)
    · rcases mem_bufferPut h with rfl | h
      · left; simp only; omega
      · rcases mem_bufferPut h with rfl | h
        · left; simp only; omega
        · exact .inr h

/-- The buffers of the state after reset are in canonical form. -/
theorem reset_buffers_wf : Buffer.wf State.reset.x ∧ Buffer.wf State.reset.y := ⟨List.Pairwise.nil, List.Pairwise.nil⟩

end Sys2Proof.Machine
end

