-- ==== Sys2Proof/Laws/Decode.lean ====
section
/-! SUPPORT. The fields of a packed transaction, and what the command decoder answers. -/

namespace Sys2Proof

/-- The record as a number (R50). -/
theorem toNat_packTxn (write : Bool) (addr : Addr) (data : Word) :
    (packTxn write addr data).toNat = write.toNat * 2 ^ 96 + addr.toNat * 2 ^ 64 + data.toNat := by
  have h : (packTxn write addr data).toNat = (BitVec.ofBool write ++ addr ++ data).toNat := rfl
  rw [h, BitVec.toNat_append, BitVec.toNat_append, ← Nat.shiftLeft_add_eq_or_of_lt data.isLt,
    ← Nat.shiftLeft_add_eq_or_of_lt addr.isLt, Nat.shiftLeft_eq, Nat.shiftLeft_eq, BitVec.toNat_ofBool]
  omega

@[simp] theorem txnWrite_packTxn (write : Bool) (addr : Addr) (data : Word) :
    txnWrite (packTxn write addr data) = write := by
  have h := toNat_packTxn write addr data
  have ha := addr.isLt
  have hd := data.isLt
  rw [txnWrite, BitVec.getLsbD, Nat.testBit_eq_decide_div_mod_eq, h]
  cases write <;> simp <;> omega

@[simp] theorem txnAddr_packTxn (write : Bool) (addr : Addr) (data : Word) :
    txnAddr (packTxn write addr data) = addr := by
  have h := toNat_packTxn write addr data
  have ha := addr.isLt
  have hd := data.isLt
  apply BitVec.eq_of_toNat_eq
  rw [txnAddr, BitVec.extractLsb'_toNat, Nat.shiftRight_eq_div_pow, h]
  cases write <;> simp <;> omega

@[simp] theorem txnData_packTxn (write : Bool) (addr : Addr) (data : Word) :
    txnData (packTxn write addr data) = data := by
  have h := toNat_packTxn write addr data
  have ha := addr.isLt
  have hd := data.isLt
  apply BitVec.eq_of_toNat_eq
  rw [txnData, BitVec.extractLsb'_toNat, Nat.shiftRight_eq_div_pow, h]
  cases write <;> simp <;> omega

/-- The command decoder answers one of the five commands, for its word, or that the word is illegal. -/
theorem decodeCommandWord_cases (w : Word) :
    (w = 1 ∧ decodeCommandWord w = .ok .cadd) ∨ (w = 2 ∧ decodeCommandWord w = .ok .cmul) ∨
    (w = 3 ∧ decodeCommandWord w = .ok .cexp) ∨ (w = 4 ∧ decodeCommandWord w = .ok .bfly) ∨
    (w = 5 ∧ decodeCommandWord w = .ok .xform) ∨
    ((w.toNat = 0 ∨ 5 < w.toNat) ∧ decodeCommandWord w = .error .illegalCommand) := by
  have hsplit : w.toNat = (w.extractLsb' 8 56).toNat * 2 ^ 8 + (w.extractLsb' 0 8).toNat := by
    simp only [BitVec.extractLsb'_toNat, Nat.shiftRight_eq_div_pow]
    have := w.isLt
    omega
  by_cases hz : w.extractLsb' 8 56 = 0
  · have hw : w.toNat = (w.extractLsb' 0 8).toNat := by rw [hsplit, hz]; simp
    have hw' : w = BitVec.ofNat 64 (w.extractLsb' 0 8).toNat := by
      apply BitVec.eq_of_toNat_eq; rw [← hw]; simp
    unfold decodeCommandWord
    rw [if_neg (by simpa using hz)]
    rw [hw]
    generalize (w.extractLsb' 0 8).toNat = k at hw'
    match k, hw' with
    | 0, _ => exact .inr (.inr (.inr (.inr (.inr ⟨.inl rfl, rfl⟩))))
    | 1, h => exact .inl ⟨h, rfl⟩
    | 2, h => exact .inr (.inl ⟨h, rfl⟩)
    | 3, h => exact .inr (.inr (.inl ⟨h, rfl⟩))
    | 4, h => exact .inr (.inr (.inr (.inl ⟨h, rfl⟩)))
    | 5, h => exact .inr (.inr (.inr (.inr (.inl ⟨h, rfl⟩))))
    | k + 6, _ => exact .inr (.inr (.inr (.inr (.inr ⟨.inr (by omega), rfl⟩))))
  · refine .inr (.inr (.inr (.inr (.inr ⟨?_, by unfold decodeCommandWord; rw [if_pos hz]⟩))))
    have : (w.extractLsb' 8 56).toNat ≠ 0 := fun h => hz (BitVec.eq_of_toNat_eq (by simpa using h))
    omega

end Sys2Proof
end

