-- ==== Sys2Proof/Laws/State.lean ====
section
/-! SUPPORT. Every field of the state after every named update, so that no proof unfolds a record update. -/

namespace Sys2Proof.Machine

@[simp] theorem State.respond_log2Nmax (s : State) (r : Response) : (s.respond r).log2Nmax = s.log2Nmax := rfl
@[simp] theorem State.respond_status (s : State) (r : Response) : (s.respond r).status = s.status := rfl
@[simp] theorem State.respond_len (s : State) (r : Response) : (s.respond r).len = s.len := rfl
@[simp] theorem State.respond_ylen (s : State) (r : Response) : (s.respond r).ylen = s.ylen := rfl
@[simp] theorem State.respond_ca (s : State) (r : Response) : (s.respond r).ca = s.ca := rfl
@[simp] theorem State.respond_cb (s : State) (r : Response) : (s.respond r).cb = s.cb := rfl
@[simp] theorem State.respond_cw (s : State) (r : Response) : (s.respond r).cw = s.cw := rfl
@[simp] theorem State.respond_cr0 (s : State) (r : Response) : (s.respond r).cr0 = s.cr0 := rfl
@[simp] theorem State.respond_cr1 (s : State) (r : Response) : (s.respond r).cr1 = s.cr1 := rfl
@[simp] theorem State.respond_x (s : State) (r : Response) : (s.respond r).x = s.x := rfl
@[simp] theorem State.respond_y (s : State) (r : Response) : (s.respond r).y = s.y := rfl
@[simp] theorem State.respond_pending (s : State) (r : Response) : (s.respond r).pending = s.pending := rfl
@[simp] theorem State.respond_response (s : State) (r : Response) : (s.respond r).response = some r := rfl
@[simp] theorem State.respond_drawInput (s : State) (r : Response) : (s.respond r).drawInput = s.drawInput := rfl

@[simp] theorem State.finishCommand_log2Nmax (s : State) : s.finishCommand.log2Nmax = s.log2Nmax := rfl
@[simp] theorem State.finishCommand_status (s : State) : s.finishCommand.status = statusSuccess := rfl
@[simp] theorem State.finishCommand_len (s : State) : s.finishCommand.len = s.len := rfl
@[simp] theorem State.finishCommand_ylen (s : State) : s.finishCommand.ylen = s.ylen := rfl
@[simp] theorem State.finishCommand_ca (s : State) : s.finishCommand.ca = s.ca := rfl
@[simp] theorem State.finishCommand_cb (s : State) : s.finishCommand.cb = s.cb := rfl
@[simp] theorem State.finishCommand_cw (s : State) : s.finishCommand.cw = s.cw := rfl
@[simp] theorem State.finishCommand_cr0 (s : State) : s.finishCommand.cr0 = s.cr0 := rfl
@[simp] theorem State.finishCommand_cr1 (s : State) : s.finishCommand.cr1 = s.cr1 := rfl
@[simp] theorem State.finishCommand_x (s : State) : s.finishCommand.x = s.x := rfl
@[simp] theorem State.finishCommand_y (s : State) : s.finishCommand.y = s.y := rfl
@[simp] theorem State.finishCommand_pending (s : State) : s.finishCommand.pending = s.pending := rfl
@[simp] theorem State.finishCommand_response (s : State) : s.finishCommand.response = some .okay := rfl
@[simp] theorem State.finishCommand_drawInput (s : State) : s.finishCommand.drawInput = s.drawInput := rfl

@[simp] theorem State.raiseCommandError_log2Nmax (s : State) (e : ErrorCode) : (s.raiseCommandError e).log2Nmax = s.log2Nmax := rfl
@[simp] theorem State.raiseCommandError_status (s : State) (e : ErrorCode) : (s.raiseCommandError e).status = statusFailure e := rfl
@[simp] theorem State.raiseCommandError_len (s : State) (e : ErrorCode) : (s.raiseCommandError e).len = s.len := rfl
@[simp] theorem State.raiseCommandError_ylen (s : State) (e : ErrorCode) : (s.raiseCommandError e).ylen = s.ylen := rfl
@[simp] theorem State.raiseCommandError_ca (s : State) (e : ErrorCode) : (s.raiseCommandError e).ca = s.ca := rfl
@[simp] theorem State.raiseCommandError_cb (s : State) (e : ErrorCode) : (s.raiseCommandError e).cb = s.cb := rfl
@[simp] theorem State.raiseCommandError_cw (s : State) (e : ErrorCode) : (s.raiseCommandError e).cw = s.cw := rfl
@[simp] theorem State.raiseCommandError_cr0 (s : State) (e : ErrorCode) : (s.raiseCommandError e).cr0 = s.cr0 := rfl
@[simp] theorem State.raiseCommandError_cr1 (s : State) (e : ErrorCode) : (s.raiseCommandError e).cr1 = s.cr1 := rfl
@[simp] theorem State.raiseCommandError_x (s : State) (e : ErrorCode) : (s.raiseCommandError e).x = s.x := rfl
@[simp] theorem State.raiseCommandError_y (s : State) (e : ErrorCode) : (s.raiseCommandError e).y = s.y := rfl
@[simp] theorem State.raiseCommandError_pending (s : State) (e : ErrorCode) : (s.raiseCommandError e).pending = s.pending := rfl
@[simp] theorem State.raiseCommandError_response (s : State) (e : ErrorCode) : (s.raiseCommandError e).response = some .cmdErr := rfl
@[simp] theorem State.raiseCommandError_drawInput (s : State) (e : ErrorCode) : (s.raiseCommandError e).drawInput = s.drawInput := rfl

@[simp] theorem State.raiseAccessFault_log2Nmax (s : State) : s.raiseAccessFault.log2Nmax = s.log2Nmax := rfl
@[simp] theorem State.raiseAccessFault_status (s : State) : s.raiseAccessFault.status = s.status := rfl
@[simp] theorem State.raiseAccessFault_len (s : State) : s.raiseAccessFault.len = s.len := rfl
@[simp] theorem State.raiseAccessFault_ylen (s : State) : s.raiseAccessFault.ylen = s.ylen := rfl
@[simp] theorem State.raiseAccessFault_ca (s : State) : s.raiseAccessFault.ca = s.ca := rfl
@[simp] theorem State.raiseAccessFault_cb (s : State) : s.raiseAccessFault.cb = s.cb := rfl
@[simp] theorem State.raiseAccessFault_cw (s : State) : s.raiseAccessFault.cw = s.cw := rfl
@[simp] theorem State.raiseAccessFault_cr0 (s : State) : s.raiseAccessFault.cr0 = s.cr0 := rfl
@[simp] theorem State.raiseAccessFault_cr1 (s : State) : s.raiseAccessFault.cr1 = s.cr1 := rfl
@[simp] theorem State.raiseAccessFault_x (s : State) : s.raiseAccessFault.x = s.x := rfl
@[simp] theorem State.raiseAccessFault_y (s : State) : s.raiseAccessFault.y = s.y := rfl
@[simp] theorem State.raiseAccessFault_pending (s : State) : s.raiseAccessFault.pending = s.pending := rfl
@[simp] theorem State.raiseAccessFault_response (s : State) : s.raiseAccessFault.response = some .accFault := rfl
@[simp] theorem State.raiseAccessFault_drawInput (s : State) : s.raiseAccessFault.drawInput = s.drawInput := rfl

@[simp] theorem State.writeLen_log2Nmax (s : State) (w : Word) : (s.writeLen w).log2Nmax = s.log2Nmax := rfl
@[simp] theorem State.writeLen_status (s : State) (w : Word) : (s.writeLen w).status = s.status := rfl
@[simp] theorem State.writeLen_len (s : State) (w : Word) : (s.writeLen w).len = w := rfl
@[simp] theorem State.writeLen_ylen (s : State) (w : Word) : (s.writeLen w).ylen = s.ylen := rfl
@[simp] theorem State.writeLen_ca (s : State) (w : Word) : (s.writeLen w).ca = s.ca := rfl
@[simp] theorem State.writeLen_cb (s : State) (w : Word) : (s.writeLen w).cb = s.cb := rfl
@[simp] theorem State.writeLen_cw (s : State) (w : Word) : (s.writeLen w).cw = s.cw := rfl
@[simp] theorem State.writeLen_cr0 (s : State) (w : Word) : (s.writeLen w).cr0 = s.cr0 := rfl
@[simp] theorem State.writeLen_cr1 (s : State) (w : Word) : (s.writeLen w).cr1 = s.cr1 := rfl
@[simp] theorem State.writeLen_x (s : State) (w : Word) : (s.writeLen w).x = s.x := rfl
@[simp] theorem State.writeLen_y (s : State) (w : Word) : (s.writeLen w).y = s.y := rfl
@[simp] theorem State.writeLen_pending (s : State) (w : Word) : (s.writeLen w).pending = s.pending := rfl
@[simp] theorem State.writeLen_response (s : State) (w : Word) : (s.writeLen w).response = s.response := rfl
@[simp] theorem State.writeLen_drawInput (s : State) (w : Word) : (s.writeLen w).drawInput = s.drawInput := rfl

@[simp] theorem State.writeX_log2Nmax (s : State) (off : Nat) (w : Word) : (s.writeX off w).log2Nmax = s.log2Nmax := rfl
@[simp] theorem State.writeX_status (s : State) (off : Nat) (w : Word) : (s.writeX off w).status = s.status := rfl
@[simp] theorem State.writeX_len (s : State) (off : Nat) (w : Word) : (s.writeX off w).len = s.len := rfl
@[simp] theorem State.writeX_ylen (s : State) (off : Nat) (w : Word) : (s.writeX off w).ylen = s.ylen := rfl
@[simp] theorem State.writeX_ca (s : State) (off : Nat) (w : Word) : (s.writeX off w).ca = s.ca := rfl
@[simp] theorem State.writeX_cb (s : State) (off : Nat) (w : Word) : (s.writeX off w).cb = s.cb := rfl
@[simp] theorem State.writeX_cw (s : State) (off : Nat) (w : Word) : (s.writeX off w).cw = s.cw := rfl
@[simp] theorem State.writeX_cr0 (s : State) (off : Nat) (w : Word) : (s.writeX off w).cr0 = s.cr0 := rfl
@[simp] theorem State.writeX_cr1 (s : State) (off : Nat) (w : Word) : (s.writeX off w).cr1 = s.cr1 := rfl
@[simp] theorem State.writeX_x (s : State) (off : Nat) (w : Word) : (s.writeX off w).x = bufferPut s.x off w := rfl
@[simp] theorem State.writeX_y (s : State) (off : Nat) (w : Word) : (s.writeX off w).y = s.y := rfl
@[simp] theorem State.writeX_pending (s : State) (off : Nat) (w : Word) : (s.writeX off w).pending = s.pending := rfl
@[simp] theorem State.writeX_response (s : State) (off : Nat) (w : Word) : (s.writeX off w).response = s.response := rfl
@[simp] theorem State.writeX_drawInput (s : State) (off : Nat) (w : Word) : (s.writeX off w).drawInput = s.drawInput := rfl

@[simp] theorem State.writeCr0_log2Nmax (s : State) (z : ComplexValue) : (s.writeCr0 z).log2Nmax = s.log2Nmax := rfl
@[simp] theorem State.writeCr0_status (s : State) (z : ComplexValue) : (s.writeCr0 z).status = s.status := rfl
@[simp] theorem State.writeCr0_len (s : State) (z : ComplexValue) : (s.writeCr0 z).len = s.len := rfl
@[simp] theorem State.writeCr0_ylen (s : State) (z : ComplexValue) : (s.writeCr0 z).ylen = s.ylen := rfl
@[simp] theorem State.writeCr0_ca (s : State) (z : ComplexValue) : (s.writeCr0 z).ca = s.ca := rfl
@[simp] theorem State.writeCr0_cb (s : State) (z : ComplexValue) : (s.writeCr0 z).cb = s.cb := rfl
@[simp] theorem State.writeCr0_cw (s : State) (z : ComplexValue) : (s.writeCr0 z).cw = s.cw := rfl
@[simp] theorem State.writeCr0_cr0 (s : State) (z : ComplexValue) : (s.writeCr0 z).cr0 = z := rfl
@[simp] theorem State.writeCr0_cr1 (s : State) (z : ComplexValue) : (s.writeCr0 z).cr1 = s.cr1 := rfl
@[simp] theorem State.writeCr0_x (s : State) (z : ComplexValue) : (s.writeCr0 z).x = s.x := rfl
@[simp] theorem State.writeCr0_y (s : State) (z : ComplexValue) : (s.writeCr0 z).y = s.y := rfl
@[simp] theorem State.writeCr0_pending (s : State) (z : ComplexValue) : (s.writeCr0 z).pending = s.pending := rfl
@[simp] theorem State.writeCr0_response (s : State) (z : ComplexValue) : (s.writeCr0 z).response = s.response := rfl
@[simp] theorem State.writeCr0_drawInput (s : State) (z : ComplexValue) : (s.writeCr0 z).drawInput = s.drawInput := rfl

@[simp] theorem State.writeCr1_log2Nmax (s : State) (z : ComplexValue) : (s.writeCr1 z).log2Nmax = s.log2Nmax := rfl
@[simp] theorem State.writeCr1_status (s : State) (z : ComplexValue) : (s.writeCr1 z).status = s.status := rfl
@[simp] theorem State.writeCr1_len (s : State) (z : ComplexValue) : (s.writeCr1 z).len = s.len := rfl
@[simp] theorem State.writeCr1_ylen (s : State) (z : ComplexValue) : (s.writeCr1 z).ylen = s.ylen := rfl
@[simp] theorem State.writeCr1_ca (s : State) (z : ComplexValue) : (s.writeCr1 z).ca = s.ca := rfl
@[simp] theorem State.writeCr1_cb (s : State) (z : ComplexValue) : (s.writeCr1 z).cb = s.cb := rfl
@[simp] theorem State.writeCr1_cw (s : State) (z : ComplexValue) : (s.writeCr1 z).cw = s.cw := rfl
@[simp] theorem State.writeCr1_cr0 (s : State) (z : ComplexValue) : (s.writeCr1 z).cr0 = s.cr0 := rfl
@[simp] theorem State.writeCr1_cr1 (s : State) (z : ComplexValue) : (s.writeCr1 z).cr1 = z := rfl
@[simp] theorem State.writeCr1_x (s : State) (z : ComplexValue) : (s.writeCr1 z).x = s.x := rfl
@[simp] theorem State.writeCr1_y (s : State) (z : ComplexValue) : (s.writeCr1 z).y = s.y := rfl
@[simp] theorem State.writeCr1_pending (s : State) (z : ComplexValue) : (s.writeCr1 z).pending = s.pending := rfl
@[simp] theorem State.writeCr1_response (s : State) (z : ComplexValue) : (s.writeCr1 z).response = s.response := rfl
@[simp] theorem State.writeCr1_drawInput (s : State) (z : ComplexValue) : (s.writeCr1 z).drawInput = s.drawInput := rfl

@[simp] theorem State.writeSpectrum_log2Nmax (s : State) (n : Word) (out : List ComplexValue) : (s.writeSpectrum n out).log2Nmax = s.log2Nmax := rfl
@[simp] theorem State.writeSpectrum_status (s : State) (n : Word) (out : List ComplexValue) : (s.writeSpectrum n out).status = s.status := rfl
@[simp] theorem State.writeSpectrum_len (s : State) (n : Word) (out : List ComplexValue) : (s.writeSpectrum n out).len = s.len := rfl
@[simp] theorem State.writeSpectrum_ylen (s : State) (n : Word) (out : List ComplexValue) : (s.writeSpectrum n out).ylen = n := rfl
@[simp] theorem State.writeSpectrum_ca (s : State) (n : Word) (out : List ComplexValue) : (s.writeSpectrum n out).ca = s.ca := rfl
@[simp] theorem State.writeSpectrum_cb (s : State) (n : Word) (out : List ComplexValue) : (s.writeSpectrum n out).cb = s.cb := rfl
@[simp] theorem State.writeSpectrum_cw (s : State) (n : Word) (out : List ComplexValue) : (s.writeSpectrum n out).cw = s.cw := rfl
@[simp] theorem State.writeSpectrum_cr0 (s : State) (n : Word) (out : List ComplexValue) : (s.writeSpectrum n out).cr0 = s.cr0 := rfl
@[simp] theorem State.writeSpectrum_cr1 (s : State) (n : Word) (out : List ComplexValue) : (s.writeSpectrum n out).cr1 = s.cr1 := rfl
@[simp] theorem State.writeSpectrum_x (s : State) (n : Word) (out : List ComplexValue) : (s.writeSpectrum n out).x = s.x := rfl
@[simp] theorem State.writeSpectrum_y (s : State) (n : Word) (out : List ComplexValue) : (s.writeSpectrum n out).y = bufferPutSeq s.y 0 out := rfl
@[simp] theorem State.writeSpectrum_pending (s : State) (n : Word) (out : List ComplexValue) : (s.writeSpectrum n out).pending = s.pending := rfl
@[simp] theorem State.writeSpectrum_response (s : State) (n : Word) (out : List ComplexValue) : (s.writeSpectrum n out).response = s.response := rfl
@[simp] theorem State.writeSpectrum_drawInput (s : State) (n : Word) (out : List ComplexValue) : (s.writeSpectrum n out).drawInput = s.drawInput := rfl

@[simp] theorem State.finishEvent_log2Nmax (s : State) (rest : List PortEvent) : (s.finishEvent rest).log2Nmax = s.log2Nmax := rfl
@[simp] theorem State.finishEvent_status (s : State) (rest : List PortEvent) : (s.finishEvent rest).status = s.status := rfl
@[simp] theorem State.finishEvent_len (s : State) (rest : List PortEvent) : (s.finishEvent rest).len = s.len := rfl
@[simp] theorem State.finishEvent_ylen (s : State) (rest : List PortEvent) : (s.finishEvent rest).ylen = s.ylen := rfl
@[simp] theorem State.finishEvent_ca (s : State) (rest : List PortEvent) : (s.finishEvent rest).ca = s.ca := rfl
@[simp] theorem State.finishEvent_cb (s : State) (rest : List PortEvent) : (s.finishEvent rest).cb = s.cb := rfl
@[simp] theorem State.finishEvent_cw (s : State) (rest : List PortEvent) : (s.finishEvent rest).cw = s.cw := rfl
@[simp] theorem State.finishEvent_cr0 (s : State) (rest : List PortEvent) : (s.finishEvent rest).cr0 = s.cr0 := rfl
@[simp] theorem State.finishEvent_cr1 (s : State) (rest : List PortEvent) : (s.finishEvent rest).cr1 = s.cr1 := rfl
@[simp] theorem State.finishEvent_x (s : State) (rest : List PortEvent) : (s.finishEvent rest).x = s.x := rfl
@[simp] theorem State.finishEvent_y (s : State) (rest : List PortEvent) : (s.finishEvent rest).y = s.y := rfl
@[simp] theorem State.finishEvent_pending (s : State) (rest : List PortEvent) : (s.finishEvent rest).pending = rest := rfl
@[simp] theorem State.finishEvent_response (s : State) (rest : List PortEvent) : (s.finishEvent rest).response = s.response := rfl

@[simp] theorem State.applyReset_log2Nmax (s : State) : s.applyReset.log2Nmax = s.log2Nmax := rfl
@[simp] theorem State.applyReset_status (s : State) : s.applyReset.status = 0 := rfl
@[simp] theorem State.applyReset_len (s : State) : s.applyReset.len = 0 := rfl
@[simp] theorem State.applyReset_ylen (s : State) : s.applyReset.ylen = 0 := rfl
@[simp] theorem State.applyReset_ca (s : State) : s.applyReset.ca = unspecifiedComplex s.drawInput 0x08 := rfl
@[simp] theorem State.applyReset_cb (s : State) : s.applyReset.cb = unspecifiedComplex s.drawInput 0x0A := rfl
@[simp] theorem State.applyReset_cw (s : State) : s.applyReset.cw = unspecifiedComplex s.drawInput 0x0C := rfl
@[simp] theorem State.applyReset_cr0 (s : State) : s.applyReset.cr0 = unspecifiedComplex s.drawInput 0x10 := rfl
@[simp] theorem State.applyReset_cr1 (s : State) : s.applyReset.cr1 = unspecifiedComplex s.drawInput 0x12 := rfl
@[simp] theorem State.applyReset_x (s : State) : s.applyReset.x = [] := rfl
@[simp] theorem State.applyReset_y (s : State) : s.applyReset.y = [] := rfl
@[simp] theorem State.applyReset_pending (s : State) : s.applyReset.pending = s.pending := rfl
@[simp] theorem State.applyReset_response (s : State) : s.applyReset.response = none := rfl
@[simp] theorem State.applyReset_drawInput (s : State) : s.applyReset.drawInput = s.drawInput := rfl

@[simp] theorem State.writeOperand_log2Nmax (s : State) (r : OperandReg) (c : Component) (w : Word) :
    (s.writeOperand r c w).log2Nmax = s.log2Nmax := by cases r <;> rfl
@[simp] theorem State.writeOperand_status (s : State) (r : OperandReg) (c : Component) (w : Word) :
    (s.writeOperand r c w).status = s.status := by cases r <;> rfl
@[simp] theorem State.writeOperand_len (s : State) (r : OperandReg) (c : Component) (w : Word) :
    (s.writeOperand r c w).len = s.len := by cases r <;> rfl
@[simp] theorem State.writeOperand_ylen (s : State) (r : OperandReg) (c : Component) (w : Word) :
    (s.writeOperand r c w).ylen = s.ylen := by cases r <;> rfl
@[simp] theorem State.writeOperand_ca (s : State) (r : OperandReg) (c : Component) (w : Word) :
    (s.writeOperand r c w).ca = if r = .ca then s.ca.setHalf c w else s.ca := by cases r <;> rfl
@[simp] theorem State.writeOperand_cb (s : State) (r : OperandReg) (c : Component) (w : Word) :
    (s.writeOperand r c w).cb = if r = .cb then s.cb.setHalf c w else s.cb := by cases r <;> rfl
@[simp] theorem State.writeOperand_cw (s : State) (r : OperandReg) (c : Component) (w : Word) :
    (s.writeOperand r c w).cw = if r = .cw then s.cw.setHalf c w else s.cw := by cases r <;> rfl
@[simp] theorem State.writeOperand_cr0 (s : State) (r : OperandReg) (c : Component) (w : Word) :
    (s.writeOperand r c w).cr0 = s.cr0 := by cases r <;> rfl
@[simp] theorem State.writeOperand_cr1 (s : State) (r : OperandReg) (c : Component) (w : Word) :
    (s.writeOperand r c w).cr1 = s.cr1 := by cases r <;> rfl
@[simp] theorem State.writeOperand_x (s : State) (r : OperandReg) (c : Component) (w : Word) :
    (s.writeOperand r c w).x = s.x := by cases r <;> rfl
@[simp] theorem State.writeOperand_y (s : State) (r : OperandReg) (c : Component) (w : Word) :
    (s.writeOperand r c w).y = s.y := by cases r <;> rfl
@[simp] theorem State.writeOperand_pending (s : State) (r : OperandReg) (c : Component) (w : Word) :
    (s.writeOperand r c w).pending = s.pending := by cases r <;> rfl
@[simp] theorem State.writeOperand_response (s : State) (r : OperandReg) (c : Component) (w : Word) :
    (s.writeOperand r c w).response = s.response := by cases r <;> rfl
@[simp] theorem State.writeOperand_drawInput (s : State) (r : OperandReg) (c : Component) (w : Word) :
    (s.writeOperand r c w).drawInput = s.drawInput := by cases r <;> rfl

/-! What is computed from the state: the reads that an update leaves alone. -/

@[simp] theorem State.respond_nmax (s : State) (r : Response) : (s.respond r).nmax = s.nmax := rfl
@[simp] theorem State.respond_draw (s : State) (r : Response) : (s.respond r).draw = s.draw := rfl
@[simp] theorem State.respond_xWord (s : State) (r : Response) (off : Nat) : (s.respond r).xWord off = s.xWord off := rfl
@[simp] theorem State.respond_yWord (s : State) (r : Response) (off : Nat) : (s.respond r).yWord off = s.yWord off := rfl
@[simp] theorem State.finishCommand_nmax (s : State) : s.finishCommand.nmax = s.nmax := rfl
@[simp] theorem State.finishCommand_draw (s : State) : s.finishCommand.draw = s.draw := rfl
@[simp] theorem State.finishCommand_xWord (s : State) (off : Nat) : s.finishCommand.xWord off = s.xWord off := rfl
@[simp] theorem State.finishCommand_yWord (s : State) (off : Nat) : s.finishCommand.yWord off = s.yWord off := rfl
@[simp] theorem State.raiseCommandError_nmax (s : State) (e : ErrorCode) : (s.raiseCommandError e).nmax = s.nmax := rfl
@[simp] theorem State.raiseCommandError_draw (s : State) (e : ErrorCode) : (s.raiseCommandError e).draw = s.draw := rfl
@[simp] theorem State.raiseCommandError_xWord (s : State) (e : ErrorCode) (off : Nat) : (s.raiseCommandError e).xWord off = s.xWord off := rfl
@[simp] theorem State.raiseCommandError_yWord (s : State) (e : ErrorCode) (off : Nat) : (s.raiseCommandError e).yWord off = s.yWord off := rfl
@[simp] theorem State.raiseAccessFault_nmax (s : State) : s.raiseAccessFault.nmax = s.nmax := rfl
@[simp] theorem State.raiseAccessFault_draw (s : State) : s.raiseAccessFault.draw = s.draw := rfl
@[simp] theorem State.raiseAccessFault_xWord (s : State) (off : Nat) : s.raiseAccessFault.xWord off = s.xWord off := rfl
@[simp] theorem State.raiseAccessFault_yWord (s : State) (off : Nat) : s.raiseAccessFault.yWord off = s.yWord off := rfl
@[simp] theorem State.writeLen_nmax (s : State) (w : Word) : (s.writeLen w).nmax = s.nmax := rfl
@[simp] theorem State.writeLen_draw (s : State) (w : Word) : (s.writeLen w).draw = s.draw := rfl
@[simp] theorem State.writeLen_xWord (s : State) (w : Word) (off : Nat) : (s.writeLen w).xWord off = s.xWord off := rfl
@[simp] theorem State.writeLen_yWord (s : State) (w : Word) (off : Nat) : (s.writeLen w).yWord off = s.yWord off := rfl
@[simp] theorem State.writeX_nmax (s : State) (off : Nat) (w : Word) : (s.writeX off w).nmax = s.nmax := rfl
@[simp] theorem State.writeX_draw (s : State) (off : Nat) (w : Word) : (s.writeX off w).draw = s.draw := rfl
@[simp] theorem State.writeX_yWord (s : State) (off : Nat) (w : Word) (i : Nat) : (s.writeX off w).yWord i = s.yWord i := rfl
@[simp] theorem State.writeCr0_nmax (s : State) (z : ComplexValue) : (s.writeCr0 z).nmax = s.nmax := rfl
@[simp] theorem State.writeCr0_draw (s : State) (z : ComplexValue) : (s.writeCr0 z).draw = s.draw := rfl
@[simp] theorem State.writeCr0_xWord (s : State) (z : ComplexValue) (off : Nat) : (s.writeCr0 z).xWord off = s.xWord off := rfl
@[simp] theorem State.writeCr0_yWord (s : State) (z : ComplexValue) (off : Nat) : (s.writeCr0 z).yWord off = s.yWord off := rfl
@[simp] theorem State.writeCr1_nmax (s : State) (z : ComplexValue) : (s.writeCr1 z).nmax = s.nmax := rfl
@[simp] theorem State.writeCr1_draw (s : State) (z : ComplexValue) : (s.writeCr1 z).draw = s.draw := rfl
@[simp] theorem State.writeCr1_xWord (s : State) (z : ComplexValue) (off : Nat) : (s.writeCr1 z).xWord off = s.xWord off := rfl
@[simp] theorem State.writeCr1_yWord (s : State) (z : ComplexValue) (off : Nat) : (s.writeCr1 z).yWord off = s.yWord off := rfl
@[simp] theorem State.writeSpectrum_nmax (s : State) (n : Word) (out : List ComplexValue) : (s.writeSpectrum n out).nmax = s.nmax := rfl
@[simp] theorem State.writeSpectrum_draw (s : State) (n : Word) (out : List ComplexValue) : (s.writeSpectrum n out).draw = s.draw := rfl
@[simp] theorem State.writeSpectrum_xWord (s : State) (n : Word) (out : List ComplexValue) (off : Nat) : (s.writeSpectrum n out).xWord off = s.xWord off := rfl
@[simp] theorem State.finishEvent_nmax (s : State) (rest : List PortEvent) : (s.finishEvent rest).nmax = s.nmax := rfl
@[simp] theorem State.applyReset_nmax (s : State) : s.applyReset.nmax = s.nmax := rfl
@[simp] theorem State.applyReset_draw (s : State) : s.applyReset.draw = s.draw := rfl
@[simp] theorem State.writeOperand_nmax (s : State) (r : OperandReg) (c : Component) (w : Word) : (s.writeOperand r c w).nmax = s.nmax := by cases r <;> rfl
@[simp] theorem State.writeOperand_draw (s : State) (r : OperandReg) (c : Component) (w : Word) : (s.writeOperand r c w).draw = s.draw := by cases r <;> rfl
@[simp] theorem State.writeOperand_xWord (s : State) (r : OperandReg) (c : Component) (w : Word) (off : Nat) : (s.writeOperand r c w).xWord off = s.xWord off := by cases r <;> rfl
@[simp] theorem State.writeOperand_yWord (s : State) (r : OperandReg) (c : Component) (w : Word) (off : Nat) : (s.writeOperand r c w).yWord off = s.yWord off := by cases r <;> rfl

@[simp] theorem PortEvent.draw_txn (t : TxnWord) (draw : Nat) : (PortEvent.txn t draw).draw = draw := rfl
@[simp] theorem PortEvent.draw_rst (draw : Nat) : (PortEvent.rst draw).draw = draw := rfl

/-- The draw input is that of the event at the head of the port (R31). -/
theorem State.drawInput_of_pending {s : State} {e : PortEvent} {rest : List PortEvent} (h : s.pending = e :: rest) :
    s.drawInput = e.draw := by rw [State.drawInput, h]

end Sys2Proof.Machine
end

