-- ==== Sys2Proof/Laws/Ops.lean ====
section
/-! SUPPORT. One lemma per shared operation that says everything it can do, and the one that says what a step can do. -/

namespace Sys2Proof.Machine

/-! The address map. -/

theorem addrRegion_eq (a : Addr) : addrRegion a = a.toNat / 2 ^ 30 := by
  have := a.isLt
  simp only [addrRegion, BitVec.extractLsb'_toNat, Nat.shiftRight_eq_div_pow]
  omega

theorem addrOffset_eq (a : Addr) : addrOffset a = a.toNat % 2 ^ 30 := by
  simp [addrOffset, BitVec.extractLsb'_toNat]

/-- The register table, read backwards. -/
theorem registerTarget_cases (off : Nat) :
    (off = 0 ∧ registerTarget off = .cap) ∨ (off = 1 ∧ registerTarget off = .cmd) ∨
    (off = 2 ∧ registerTarget off = .status) ∨ (off = 3 ∧ registerTarget off = .len) ∨
    (off = 4 ∧ registerTarget off = .ylen) ∨
    (∃ r c, 0x08 ≤ off ∧ off ≤ 0x0D ∧ registerTarget off = .operand r c) ∨
    (∃ r c, 0x10 ≤ off ∧ off ≤ 0x13 ∧ registerTarget off = .result r c) ∨
    ((off = 5 ∨ off = 6 ∨ off = 7 ∨ off = 0x0E ∨ off = 0x0F ∨ 0x14 ≤ off) ∧ registerTarget off = .unmapped) := by
  by_cases h : off < 0x14
  · interval_cases off <;> simp [registerTarget]
  · obtain ⟨k, rfl⟩ : ∃ k, off = k + 0x14 := ⟨off - 0x14, by omega⟩
    refine .inr (.inr (.inr (.inr (.inr (.inr (.inr ⟨by omega, rfl⟩))))))

@[simp] theorem wordOffset_split (off : Nat) : wordOffset (off / 2) (offsetComponent off) = off := by
  unfold offsetComponent
  split <;> simp only [wordOffset] <;> omega

/-- What an address can name, and where it then lies (R32, R35, R36, R37). -/
theorem decodeAddr_cases (n : Nat) (a : Addr) :
    (a.toNat / 2 ^ 30 = 0 ∧ decodeAddr n a = registerTarget (a.toNat % 2 ^ 30)) ∨
    (a.toNat / 2 ^ 30 = 1 ∧ a.toNat % 2 ^ 30 < 2 * n ∧
      decodeAddr n a = .sample (a.toNat % 2 ^ 30 / 2) (offsetComponent (a.toNat % 2 ^ 30))) ∨
    (a.toNat / 2 ^ 30 = 2 ∧ a.toNat % 2 ^ 30 < 2 * n ∧
      decodeAddr n a = .spectrum (a.toNat % 2 ^ 30 / 2) (offsetComponent (a.toNat % 2 ^ 30))) ∨
    ((a.toNat / 2 ^ 30 = 1 ∨ a.toNat / 2 ^ 30 = 2) ∧ 2 * n ≤ a.toNat % 2 ^ 30 ∧ decodeAddr n a = .unmapped) ∨
    (a.toNat / 2 ^ 30 = 3 ∧ decodeAddr n a = .unmapped) := by
  have hlt := a.isLt
  have hr := addrRegion_eq a
  have ho := addrOffset_eq a
  have hcase : a.toNat / 2 ^ 30 = 0 ∨ a.toNat / 2 ^ 30 = 1 ∨ a.toNat / 2 ^ 30 = 2 ∨ a.toNat / 2 ^ 30 = 3 := by omega
  unfold decodeAddr
  rw [hr, ho]
  rcases hcase with h | h | h | h <;> rw [h]
  · exact .inl ⟨rfl, rfl⟩
  · by_cases hb : a.toNat % 2 ^ 30 < 2 * n
    · exact .inr (.inl ⟨rfl, hb, by simp only [if_pos hb]⟩)
    · exact .inr (.inr (.inr (.inl ⟨.inl rfl, by omega, by simp only [if_neg hb]⟩)))
  · by_cases hb : a.toNat % 2 ^ 30 < 2 * n
    · exact .inr (.inr (.inl ⟨rfl, hb, by simp only [if_pos hb]⟩))
    · exact .inr (.inr (.inr (.inl ⟨.inr rfl, by omega, by simp only [if_neg hb]⟩)))
  · exact .inr (.inr (.inr (.inr ⟨rfl, rfl⟩)))

/-- Only the address of `CMD` names `CMD`. -/
theorem decodeAddr_eq_cmd (n : Nat) (a : Addr) : decodeAddr n a = .cmd ↔ a = cmdAddr := by
  constructor
  · intro h
    rcases decodeAddr_cases n a with ⟨h0, hd⟩ | ⟨_, _, hd⟩ | ⟨_, _, hd⟩ | ⟨_, _, hd⟩ | ⟨_, hd⟩ <;> rw [hd] at h
    · rcases registerTarget_cases (a.toNat % 2 ^ 30) with
        ⟨_, hr⟩ | ⟨ho, _⟩ | ⟨_, hr⟩ | ⟨_, hr⟩ | ⟨_, hr⟩ | ⟨_, _, _, _, hr⟩ | ⟨_, _, _, _, hr⟩ | ⟨_, hr⟩
      case inr.inl => apply BitVec.eq_of_toNat_eq; simp only [cmdAddr]; simp; omega
      all_goals rw [hr] at h; cases h
    all_goals cases h
  · rintro rfl; rfl

/-! Commands. -/

/-- Everything a command word can do (R56). -/
theorem executeCommand_cases (w : Word) (s : State) :
    (w = 1 ∧ executeCommand w s = execCadd s) ∨ (w = 2 ∧ executeCommand w s = execCmul s) ∨
    (w = 3 ∧ executeCommand w s = execCexp s) ∨ (w = 4 ∧ executeCommand w s = execBfly s) ∨
    (w = 5 ∧ executeCommand w s = execXform s) ∨
    ((w.toNat = 0 ∨ 5 < w.toNat) ∧ executeCommand w s = .next (s.raiseCommandError .illegalCommand)) := by
  rcases decodeCommandWord_cases w with ⟨rfl, _⟩ | ⟨rfl, _⟩ | ⟨rfl, _⟩ | ⟨rfl, _⟩ | ⟨rfl, _⟩ | ⟨hw, hd⟩
  · exact .inl ⟨rfl, rfl⟩
  · exact .inr (.inl ⟨rfl, rfl⟩)
  · exact .inr (.inr (.inl ⟨rfl, rfl⟩))
  · exact .inr (.inr (.inr (.inl ⟨rfl, rfl⟩)))
  · exact .inr (.inr (.inr (.inr (.inl ⟨rfl, rfl⟩))))
  · refine .inr (.inr (.inr (.inr (.inr ⟨hw, ?_⟩))))
    unfold decodeCommandWord at hd
    unfold executeCommand
    split at hd
    · rw [if_pos (by assumption)]
    · rw [if_neg (by assumption)]
      generalize (w.extractLsb' 0 8).toNat = k at hd ⊢
      match k, hd with
      | 0, _ => rfl
      | k + 6, _ => rfl

/-- Everything `XFORM` can do (R101, R102). -/
theorem execXform_cases (s : State) :
    (validLen s.nmax s.len.toNat = true ∧
      execXform s = .next (s.writeSpectrum s.len (s.spectrum s.len.toNat)).finishCommand) ∨
    (validLen s.nmax s.len.toNat = false ∧ execXform s = .next (s.raiseCommandError .invalidLength)) := by
  unfold execXform
  cases h : validLen s.nmax s.len.toNat <;> simp

/-- Everything an `RD` can do (R33). -/
theorem execRd_cases (a : Addr) (s : State) :
    (∃ w, s.readTarget (decodeAddr s.nmax a) = some w ∧ execRd a s = .next (s.respond (.okayData w))) ∨
    (s.readTarget (decodeAddr s.nmax a) = none ∧ execRd a s = .next s.raiseAccessFault) := by
  unfold execRd
  cases h : s.readTarget (decodeAddr s.nmax a) <;> simp

/-- Everything a `WR` can do (R34). -/
theorem execWr_cases (a : Addr) (d : Word) (s : State) :
    (a = cmdAddr ∧ execWr a d s = executeCommand d s) ∨
    (∃ t, a ≠ cmdAddr ∧ s.writeTarget (decodeAddr s.nmax a) d = some t ∧ execWr a d s = .next (t.respond .okay)) ∨
    (a ≠ cmdAddr ∧ s.writeTarget (decodeAddr s.nmax a) d = none ∧ execWr a d s = .next s.raiseAccessFault) := by
  unfold execWr
  by_cases h : a = cmdAddr
  · exact .inl ⟨h, if_pos ((decodeAddr_eq_cmd _ _).2 h)⟩
  · rw [if_neg fun hc => h ((decodeAddr_eq_cmd _ _).1 hc)]
    cases hw : s.writeTarget (decodeAddr s.nmax a) d with
    | some t => exact .inr (.inl ⟨t, h, rfl, rfl⟩)
    | none => exact .inr (.inr ⟨h, rfl, rfl⟩)

/-- Everything a write of a target can do (R34). -/
theorem writeTarget_cases {s t : State} {target : Target} {w : Word} (h : s.writeTarget target w = some t) :
    (target = .len ∧ t = s.writeLen w) ∨
    (∃ r c, target = .operand r c ∧ t = s.writeOperand r c w) ∨
    (∃ i c, target = .sample i c ∧ t = s.writeX (wordOffset i c) w) := by
  cases target <;> simp [State.writeTarget] at h
  · exact .inl ⟨rfl, h.symm⟩
  · exact .inr (.inl ⟨_, _, rfl, h.symm⟩)
  · exact .inr (.inr ⟨_, _, rfl, h.symm⟩)

/-- Everything a step can do (R31, R131, R140). -/
theorem step_cases {s t : State} (h : step s = .next t) :
    (s.pending = [] ∧ t = s) ∨
    (∃ draw rest, s.pending = .rst draw :: rest ∧ t = s.applyReset.finishEvent rest) ∨
    (∃ txn draw rest u, s.pending = .txn txn draw :: rest ∧ exec (decodeTxn txn) s = .next u ∧ t = u.finishEvent rest) := by
  unfold step at h
  split at h
  · exact .inl ⟨by assumption, by injection h with h; exact h.symm⟩
  · exact .inr (.inl ⟨_, _, by assumption, by injection h with h; exact h.symm⟩)
  · split at h
    · exact .inr (.inr ⟨_, _, _, _, by assumption, by assumption, by injection h with h; exact h.symm⟩)
    · cases h
    · cases h

end Sys2Proof.Machine
end

