-- ==== Sys2Proof/Laws/Exec.lean ====
section
/-! SUPPORT. Said once: every next state an instruction can give, under a name for each case, so that a claim over all
instructions is a case analysis of thirteen cases. -/

namespace Sys2Proof.Machine

/-- The next states of instruction `i` in state `s`. A command is its constructor or a `wr` of its word to `CMD`. -/
inductive ExecNext (i : Instr) (s : State) : State → Prop where
  | rdWord (a : Addr) (w : Word) (hi : i = .rd a) (hw : s.readTarget (decodeAddr s.nmax a) = some w) :
      ExecNext i s (s.respond (.okayData w))
  | rdFault (a : Addr) (hi : i = .rd a) (hw : s.readTarget (decodeAddr s.nmax a) = none) :
      ExecNext i s s.raiseAccessFault
  | wrFault (a : Addr) (w : Word) (hi : i = .wr a w) (ha : a ≠ cmdAddr)
      (hw : s.writeTarget (decodeAddr s.nmax a) w = none) : ExecNext i s s.raiseAccessFault
  | wrLen (w : Word) (hi : i = .wr 0x00000003 w) : ExecNext i s ((s.writeLen w).respond .okay)
  | wrOperand (a : Addr) (w : Word) (r : OperandReg) (c : Component) (hi : i = .wr a w)
      (hlo : 0x08 ≤ a.toNat) (hhi : a.toNat ≤ 0x0D) (ha : decodeAddr s.nmax a = .operand r c) :
      ExecNext i s ((s.writeOperand r c w).respond .okay)
  | wrSample (a : Addr) (w : Word) (off : Nat) (hi : i = .wr a w) (ha : a.toNat = 2 ^ 30 + off)
      (ho : off < 2 * s.nmax) : ExecNext i s ((s.writeX off w).respond .okay)
  | cadd (hi : i = .cadd ∨ i = .wr cmdAddr 1) : ExecNext i s (s.writeCr0 (cadd s.draw s.ca s.cb)).finishCommand
  | cmul (hi : i = .cmul ∨ i = .wr cmdAddr 2) : ExecNext i s (s.writeCr0 (cmul s.draw s.ca s.cb)).finishCommand
  | cexp (hi : i = .cexp ∨ i = .wr cmdAddr 3) : ExecNext i s (s.writeCr0 (cexp s.draw s.ca)).finishCommand
  | bfly (hi : i = .bfly ∨ i = .wr cmdAddr 4) :
      ExecNext i s ((s.writeCr0 (bfly s.draw s.ca s.cb s.cw).1).writeCr1 (bfly s.draw s.ca s.cb s.cw).2).finishCommand
  | xform (hi : i = .xform ∨ i = .wr cmdAddr 5) (hv : validLen s.nmax s.len.toNat = true) :
      ExecNext i s (s.writeSpectrum s.len (s.spectrum s.len.toNat)).finishCommand
  | invalidLength (hi : i = .xform ∨ i = .wr cmdAddr 5) (hv : validLen s.nmax s.len.toNat = false) :
      ExecNext i s (s.raiseCommandError .invalidLength)
  | illegalCommand (w : Word) (hi : i = .wr cmdAddr w) (hw : w.toNat = 0 ∨ 5 < w.toNat) :
      ExecNext i s (s.raiseCommandError .illegalCommand)

/-- An `XFORM` ends in one of its two cases. -/
theorem execXform_next {i : Instr} {s t : State} (hi : i = .xform ∨ i = .wr cmdAddr 5) (h : execXform s = .next t) :
    ExecNext i s t := by
  rcases execXform_cases s with ⟨hv, h'⟩ | ⟨hv, h'⟩ <;> (rw [h'] at h; injection h with h; subst h)
  · exact .xform hi hv
  · exact .invalidLength hi hv

/-- A command word ends in the case of its command, or of the illegal words. -/
theorem executeCommand_next {w : Word} {s t : State} (h : executeCommand w s = .next t) :
    ExecNext (.wr cmdAddr w) s t := by
  rcases executeCommand_cases w s with ⟨rfl, h'⟩ | ⟨rfl, h'⟩ | ⟨rfl, h'⟩ | ⟨rfl, h'⟩ | ⟨rfl, h'⟩ | ⟨hw, h'⟩ <;>
    rw [h'] at h
  case inr.inr.inr.inr.inl => exact execXform_next (.inr rfl) h
  all_goals injection h with h; subst h
  · exact .cadd (.inr rfl)
  · exact .cmul (.inr rfl)
  · exact .cexp (.inr rfl)
  · exact .bfly (.inr rfl)
  · exact .illegalCommand w rfl hw

/-- The address of a word a `WR` may store to. -/
theorem decodeAddr_writable {n : Nat} {a : Addr} :
    (decodeAddr n a = .len → a = 0x00000003) ∧
    (∀ r c, decodeAddr n a = .operand r c → 0x08 ≤ a.toNat ∧ a.toNat ≤ 0x0D) ∧
    (∀ i c, decodeAddr n a = .sample i c → a.toNat = 2 ^ 30 + wordOffset i c ∧ wordOffset i c < 2 * n) := by
  rcases decodeAddr_cases n a with ⟨h, hd⟩ | ⟨h, hb, hd⟩ | ⟨_, _, hd⟩ | ⟨_, _, hd⟩ | ⟨_, hd⟩ <;> rw [hd]
  · rcases registerTarget_cases (a.toNat % 2 ^ 30) with
      ⟨_, hr⟩ | ⟨_, hr⟩ | ⟨_, hr⟩ | ⟨ho, hr⟩ | ⟨_, hr⟩ | ⟨_, _, hl, hu, hr⟩ | ⟨_, _, _, _, hr⟩ | ⟨_, hr⟩ <;> rw [hr]
    case inr.inr.inr.inl =>
      refine ⟨fun _ => BitVec.eq_of_toNat_eq (by simp; omega), by simp, by simp⟩
    case inr.inr.inr.inr.inr.inl => exact ⟨by simp, fun _ _ _ => by omega, by simp⟩
    all_goals simp
  · refine ⟨by simp, by simp, fun i c hs => ?_⟩
    injection hs with hi hc
    subst hi hc
    rw [wordOffset_split]
    omega
  all_goals simp

/-- Everything an instruction can do. -/
theorem exec_next_cases {i : Instr} {s t : State} (h : exec i s = .next t) : ExecNext i s t := by
  cases i with
  | rd a =>
    rcases execRd_cases a s with ⟨w, hw, h'⟩ | ⟨hw, h'⟩ <;> (rw [exec, h'] at h; injection h with h; subst h)
    · exact .rdWord a w rfl hw
    · exact .rdFault a rfl hw
  | wr a d =>
    rcases execWr_cases a d s with ⟨rfl, h'⟩ | ⟨u, hc, hw, h'⟩ | ⟨hc, hw, h'⟩ <;> rw [exec, h'] at h
    · exact executeCommand_next h
    · injection h with h; subst h
      have hd := decodeAddr_writable (n := s.nmax) (a := a)
      rcases writeTarget_cases hw with ⟨ht, rfl⟩ | ⟨r, c, ht, rfl⟩ | ⟨k, c, ht, rfl⟩
      · obtain rfl := hd.1 ht; exact .wrLen d rfl
      · obtain ⟨hl, hu⟩ := hd.2.1 r c ht; exact .wrOperand a d r c rfl hl hu ht
      · obtain ⟨ha, ho⟩ := hd.2.2 k c ht; exact .wrSample a d _ rfl ha ho
    · injection h with h; subst h; exact .wrFault a d rfl hc hw
  | cadd => rw [exec, execCadd] at h; injection h with h; subst h; exact .cadd (.inl rfl)
  | cmul => rw [exec, execCmul] at h; injection h with h; subst h; exact .cmul (.inl rfl)
  | cexp => rw [exec, execCexp] at h; injection h with h; subst h; exact .cexp (.inl rfl)
  | bfly => rw [exec, execBfly] at h; injection h with h; subst h; exact .bfly (.inl rfl)
  | xform => exact execXform_next (.inl rfl) h

/-- `NMAX` is at most `2^29` (R5), so a buffer fits its region (R32). -/
theorem nmax_le (s : State) : s.nmax ≤ 2 ^ 29 :=
  Nat.pow_le_pow_right (by norm_num) (Nat.le_of_lt_succ s.log2Nmax.isLt)

/-- The address of a half of `X[i]` (R36). -/
theorem decodeAddr_sampleAddr (n i : Nat) (b : Bool) (hi : i < n) (hn : n ≤ 2 ^ 29) :
    decodeAddr n (BitVec.ofNat 32 (0x40000000 + 2 * i + b.toNat)) = .sample i (if b then .im else .re) := by
  have hb := Bool.toNat_lt b
  have ht : (BitVec.ofNat 32 (0x40000000 + 2 * i + b.toNat)).toNat = 0x40000000 + 2 * i + b.toNat := by
    rw [BitVec.toNat_ofNat]; omega
  rcases decodeAddr_cases n (BitVec.ofNat 32 (0x40000000 + 2 * i + b.toNat)) with
    ⟨h, _⟩ | ⟨_, _, hd⟩ | ⟨h, _⟩ | ⟨_, h, _⟩ | ⟨h, _⟩ <;> rw [ht] at *
  case inr.inl =>
    rw [hd, show (0x40000000 + 2 * i + b.toNat) % 2 ^ 30 = 2 * i + b.toNat by omega]
    cases b <;> simp [offsetComponent]; omega
  all_goals omega

/-- The address of a half of `Y[i]` (R37). -/
theorem decodeAddr_spectrumAddr (n i : Nat) (b : Bool) (hi : i < n) (hn : n ≤ 2 ^ 29) :
    decodeAddr n (BitVec.ofNat 32 (0x80000000 + 2 * i + b.toNat)) = .spectrum i (if b then .im else .re) := by
  have hb := Bool.toNat_lt b
  have ht : (BitVec.ofNat 32 (0x80000000 + 2 * i + b.toNat)).toNat = 0x80000000 + 2 * i + b.toNat := by
    rw [BitVec.toNat_ofNat]; omega
  rcases decodeAddr_cases n (BitVec.ofNat 32 (0x80000000 + 2 * i + b.toNat)) with
    ⟨h, _⟩ | ⟨h, _⟩ | ⟨_, _, hd⟩ | ⟨_, h, _⟩ | ⟨h, _⟩ <;> rw [ht] at *
  case inr.inr.inl =>
    rw [hd, show (0x80000000 + 2 * i + b.toNat) % 2 ^ 30 = 2 * i + b.toNat by omega]
    cases b <;> simp [offsetComponent]; omega
  all_goals omega

end Sys2Proof.Machine
end

