-- ==== Sys2Proof/Laws/Fft.lean ====
section
/-! SUPPORT. Lengths and elements of the parts of a transform. -/

namespace Sys2Proof.Machine

theorem evens_getElem? {α : Type} (x : List α) (j : Nat) : (evens x)[j]? = x[2 * j]? := by
  induction x using evens.induct generalizing j with
  | case1 => simp [evens]
  | case2 a => cases j <;> simp [evens]
  | case3 a b x ih =>
    cases j with
    | zero => simp [evens]
    | succ j => simp [evens, ih, show 2 * (j + 1) = 2 * j + 2 by omega]

theorem odds_getElem? {α : Type} (x : List α) (j : Nat) : (odds x)[j]? = x[2 * j + 1]? := by
  induction x using odds.induct generalizing j with
  | case1 => simp [odds]
  | case2 a => simp [odds]
  | case3 a b x ih =>
    cases j with
    | zero => simp [odds]
    | succ j => simp [odds, ih, show 2 * (j + 1) + 1 = 2 * j + 1 + 2 by omega]

theorem evens_length {α : Type} (x : List α) : (evens x).length = (x.length + 1) / 2 := by
  induction x using evens.induct with
  | case1 => simp [evens]
  | case2 a => simp [evens]
  | case3 a b x ih => simp [evens, ih]; omega

theorem odds_length {α : Type} (x : List α) : (odds x).length = x.length / 2 := by
  induction x using odds.induct with
  | case1 => simp [odds]
  | case2 a => simp [odds]
  | case3 a b x ih => simp [odds, ih]; omega

theorem butterflies_length {α : Type} (bf : Nat → α → α → α × α) (k : Nat) (g u : List α) :
    (butterflies bf k g u).length = min g.length u.length := by
  induction g generalizing k u with
  | nil => simp [butterflies]
  | cons a g ih =>
    cases u with
    | nil => simp [butterflies]
    | cons b u => simp [butterflies, ih]

theorem butterflies_getElem? {α : Type} (bf : Nat → α → α → α × α) (k : Nat) (g u : List α) (i : Nat) (a b : α)
    (ha : g[i]? = some a) (hb : u[i]? = some b) : (butterflies bf k g u)[i]? = some (bf (k + i) a b) := by
  induction g generalizing k u i with
  | nil => simp at ha
  | cons a' g ih =>
    cases u with
    | nil => simp at hb
    | cons b' u =>
      cases i with
      | zero => simp_all [butterflies]
      | succ i =>
        simp only [List.getElem?_cons_succ] at ha hb
        simp only [butterflies, List.getElem?_cons_succ, ih (k + 1) u i ha hb]
        congr 2; omega

theorem combine_length {α : Type} (bf : Nat → α → α → α × α) (g u : List α) (h : g.length = u.length) :
    (combine bf g u).length = 2 * g.length := by
  simp [combine, butterflies_length, h]; omega

/-- The length of a transform (R96: length preservation). -/
theorem fftWith_length {α : Type} (bf : Nat → Nat → Nat → Nat → α → α → α × α) (p stride offset : Nat) (x : List α)
    (h : x.length = 2 ^ p) : (fftWith bf p stride offset x).length = 2 ^ p := by
  induction p generalizing stride offset x with
  | zero => exact h
  | succ p ih =>
    have h2 : 2 ^ (p + 1) = 2 * 2 ^ p := by ring
    have he : (evens x).length = 2 ^ p := by rw [evens_length]; omega
    have ho : (odds x).length = 2 ^ p := by rw [odds_length]; omega
    rw [fftWith, combine_length, ih _ _ _ he, h2]
    rw [ih _ _ _ he, ih _ _ _ ho]

end Sys2Proof.Machine
end

