-- ==== Sys2Proof/Laws/PerInstr.lean ====
section
/-! SUPPORT. Families of statements about every instruction as syntax, one lemma per constructor. -/

/-- The fields of an instruction's transaction (R50, R51, R52): an `RD` has `write` 0, its address and data 0; a `WR` has
`write` 1, its address and its data; a command is a `WR` to `CMD` of a word that decodes to it, with bits 63:8 zero. -/
def Sys2Proof.Laws.TxnFields.Statement (i : Sys2Proof.Instr) : Prop :=
  match i with
  | .rd addr =>
    Sys2Proof.txnWrite (Sys2Proof.encode i) = false ∧ Sys2Proof.txnAddr (Sys2Proof.encode i) = addr ∧
      Sys2Proof.txnData (Sys2Proof.encode i) = 0
  | .wr addr data =>
    Sys2Proof.txnWrite (Sys2Proof.encode i) = true ∧ Sys2Proof.txnAddr (Sys2Proof.encode i) = addr ∧
      Sys2Proof.txnData (Sys2Proof.encode i) = data
  | .cadd | .cmul | .cexp | .bfly | .xform =>
    Sys2Proof.txnWrite (Sys2Proof.encode i) = true ∧ Sys2Proof.txnAddr (Sys2Proof.encode i) = Sys2Proof.cmdAddr ∧
      Sys2Proof.decodeCommandWord (Sys2Proof.txnData (Sys2Proof.encode i)) = .ok i ∧
      (Sys2Proof.txnData (Sys2Proof.encode i)).extractLsb' 8 56 = 0

theorem Sys2Proof.Laws.TxnFields.rd (addr : Sys2Proof.Addr) : Sys2Proof.Laws.TxnFields.Statement (.rd addr) := by
  simp [Statement, Sys2Proof.encode]

theorem Sys2Proof.Laws.TxnFields.wr (addr : Sys2Proof.Addr) (data : Sys2Proof.Word) :
    Sys2Proof.Laws.TxnFields.Statement (.wr addr data) := by
  simp [Statement, Sys2Proof.encode]

theorem Sys2Proof.Laws.TxnFields.cadd : Sys2Proof.Laws.TxnFields.Statement .cadd := ⟨rfl, rfl, rfl, rfl⟩

theorem Sys2Proof.Laws.TxnFields.cmul : Sys2Proof.Laws.TxnFields.Statement .cmul := ⟨rfl, rfl, rfl, rfl⟩

theorem Sys2Proof.Laws.TxnFields.cexp : Sys2Proof.Laws.TxnFields.Statement .cexp := ⟨rfl, rfl, rfl, rfl⟩

theorem Sys2Proof.Laws.TxnFields.bfly : Sys2Proof.Laws.TxnFields.Statement .bfly := ⟨rfl, rfl, rfl, rfl⟩

theorem Sys2Proof.Laws.TxnFields.xform : Sys2Proof.Laws.TxnFields.Statement .xform := ⟨rfl, rfl, rfl, rfl⟩
end

