-- ==== Sys2Proof/Laws/Rounding.lean ====
section
/-! SUPPORT. The rounding of a word against what Safety calls correctly rounded, and when an operation gives a NaN. -/

namespace Sys2Proof.Machine

theorem overflows_iff (v : Int) (den : Nat) : overflows v den ↔ (2 ^ 54 - 1) * 2 ^ 2044 * den ≤ v.natAbs := by
  unfold overflows
  rw [Int.abs_eq_natAbs]
  generalize hq : (2:Nat) ^ 2044 = q
  have : (2:Int) ^ 2044 = (q : Int) := by rw [← hq]; push_cast; rfl
  rw [this, show (2:Int) ^ 54 - 1 = ((2 ^ 54 - 1 : Nat) : Int) by norm_num]
  exact_mod_cast Iff.rfl

/-- The exact value overflows just when its rounded magnitude is the infinity. -/
theorem overflows_iff_roundMag (v : Int) (den : Nat) (hd : 0 < den) :
    overflows v den ↔ roundMag v.natAbs den = 0x7FF * 2 ^ 52 := by
  rw [overflows_iff, roundMag_overflow _ _ hd]

theorem roundedTo_withSign (s : Bool) (num den : Nat) (hd : 0 < den)
    (hf : isFinite (withSign s (roundMag num den)) = true) (v : Int) (hv : v = if s then -(num : Int) else num) :
    roundedTo v den (withSign s (roundMag num den)) := by
  have hlt := roundMag_lt num den
  rw [isFinite_withSign _ _ hlt] at hf
  intro c _
  rw [fval_withSign _ _ hlt, lsb_withSign _ _ hlt]
  have hc : ∃ j : Nat, fval c = magOf j ∨ fval c = -(magOf j : Int) := by
    refine ⟨c.toNat % 2 ^ 63, ?_⟩
    rw [fval_eq_magOf]; split <;> simp
  have hc' : ∃ j : Nat, -fval c = magOf j ∨ -fval c = -(magOf j : Int) := by
    obtain ⟨j, h | h⟩ := hc <;> refine ⟨j, ?_⟩ <;> omega
  cases s
  · simp only [Bool.false_eq_true, if_false] at hv ⊢
    obtain ⟨k1, k2⟩ := roundMag_nearest num den hd hf _ hc
    rw [hv]
    exact ⟨k1, fun e n => by have := k2 e n; simp; omega⟩
  · simp only [if_true] at hv ⊢
    obtain ⟨k1, k2⟩ := roundMag_nearest num den hd hf _ hc'
    rw [hv]
    have e1 : ∀ x y : Int, |-x * den - -y| = |x * den - y| := fun x y => by
      rw [← abs_neg]; congr 1; ring
    have e2 : ∀ y : Int, |fval c * den - -y| = |-fval c * den - y| := fun y => by
      rw [← abs_neg]; congr 1; ring
    rw [e1, e2]
    exact ⟨k1, fun e n => by have := k2 e (by omega); simp; omega⟩

theorem fadd_nan (r a b : Word) : (isNaN a = true ∨ isNaN b = true ∨ addInvalid a b) → fadd r a b = quietNaN r := by
  rintro (h | h | ⟨h1, h2, h3⟩)
  · simp [fadd, h]
  · simp [fadd, h]
  · have := word_kinds a; have := word_kinds b
    simp [fadd]; simp_all

theorem fsub_nan (r a b : Word) : (isNaN a = true ∨ isNaN b = true ∨ subInvalid a b) → fsub r a b = quietNaN r := by
  rintro (h | h | ⟨h1, h2, h3⟩)
  · simp [fsub, h]
  · simp [fsub, h]
  · have := word_kinds a; have := word_kinds b
    simp [fsub]; simp_all

theorem fmul_nan (r a b : Word) : (isNaN a = true ∨ isNaN b = true ∨ mulInvalid a b) → fmul r a b = quietNaN r := by
  have zi : ∀ x, isZero x = true → isInf x = false ∧ isNaN x = false := fun x h => by
    have := isFinite_kinds x (isZero_fin h); exact ⟨this.2, this.1⟩
  rintro (h | h | ⟨h1, h2⟩ | ⟨h1, h2⟩)
  · simp [fmul, h]
  · simp [fmul, h]
  · have := word_kinds b; have := zi a h1
    simp [fmul]; simp_all
  · have := word_kinds a; have := zi b h2
    simp [fmul]; simp_all

end Sys2Proof.Machine
end

