-- ==== Sys2Proof/Laws/Transcendental.lean ====
section
/-! SUPPORT. The range of `COS` and `SIN`, and the twiddle angle as a rounded magnitude. -/

namespace Sys2Proof.Machine

theorem clampUnit_range (r : Word) : (clampUnit r).toNat % 2 ^ 63 ≤ 0x3FF0000000000000 := by
  have e : fone.toNat = 0x3FF0000000000000 := by decide
  unfold clampUnit; rw [e]; split
  · assumption
  · rw [withSign_mod _ _ (by norm_num)]

theorem trigRow_ok (P : Word → Word → Prop) (a c s : Word) (t : List (Word × Word × Word)) (h : trigRow a t = some (c, s))
    (hp : ∀ e ∈ t, P e.2.1 e.2.2) : P c s := by
  induction t with
  | nil => cases h
  | cons e t ih =>
    obtain ⟨x, c', s'⟩ := e
    simp only [trigRow] at h
    split at h
    · injection h with h; injection h with h1 h2; subst h1 h2; exact hp (x, c', s') (by simp)
    · exact ih h fun e he => hp e (by simp [he])

theorem trigTable_range : ∀ e ∈ trigTable, e.2.1.toNat % 2 ^ 63 ≤ 0x3FF0000000000000 ∧ e.2.2.toNat % 2 ^ 63 ≤ 0x3FF0000000000000 := by
  intro e he
  simp only [trigTable, List.mem_cons, List.not_mem_nil, or_false] at he
  rcases he with rfl | rfl | rfl | rfl | rfl | rfl | rfl | rfl <;> exact ⟨by decide, by decide⟩

theorem fcos_range (r a : Word) (ha : isFinite a = true) : (fcos r a).toNat % 2 ^ 63 ≤ 0x3FF0000000000000 := by
  obtain ⟨n1, n2⟩ := isFinite_kinds a ha
  unfold fcos
  simp only [n1, n2, Bool.or_false, Bool.false_eq_true, if_false]
  split
  · decide
  · split
    · rename_i c s hr
      exact (trigRow_ok (fun c s => c.toNat % 2 ^ 63 ≤ 0x3FF0000000000000 ∧ s.toNat % 2 ^ 63 ≤ 0x3FF0000000000000) a c s _ hr trigTable_range).1
    · exact clampUnit_range _

theorem fsin_range (r a : Word) (ha : isFinite a = true) : (fsin r a).toNat % 2 ^ 63 ≤ 0x3FF0000000000000 := by
  obtain ⟨n1, n2⟩ := isFinite_kinds a ha
  unfold fsin
  simp only [n1, n2, Bool.or_false, Bool.false_eq_true, if_false]
  split
  · rename_i hz; rw [isZero_iff] at hz; omega
  · split
    · rename_i c s hr
      exact (trigRow_ok (fun c s => c.toNat % 2 ^ 63 ≤ 0x3FF0000000000000 ∧ s.toNat % 2 ^ 63 ≤ 0x3FF0000000000000) a c s _ hr trigTable_range).2
    · exact clampUnit_range _

theorem fmag_twoPi : fmag 0x401921FB54442D18 = 2 * magOf 0x400921FB54442D18 := by decide +kernel

theorem pi_gap : (magOf 0x400921FB54442D18 - magOf 0x400921FB54442D17) * 2 ^ 29 < magOf 0x400921FB54442D18 := by decide +kernel

theorem pi_pred_lt : magOf 0x400921FB54442D17 < magOf 0x400921FB54442D18 := by
  have h : (0x400921FB54442D17 : Nat) < 0x400921FB54442D18 := by norm_num
  exact magOf_strictMono h

theorem pi_mod : (0x400921FB54442D18 : Word).toNat % 2 ^ 63 = 0x400921FB54442D18 := by decide

theorem scaled_twoPi (m : Nat) (hm' : m ≤ 29) :
    isFinite (0x401921FB54442D18 - BitVec.ofNat 64 (m * 2 ^ 52)) = true ∧ fsign (0x401921FB54442D18 - BitVec.ofNat 64 (m * 2 ^ 52)) = false ∧
    fmag (0x401921FB54442D18 - BitVec.ofNat 64 (m * 2 ^ 52)) * 2 ^ m = fmag 0x401921FB54442D18 := by
  interval_cases m <;> (refine ⟨by decide, by decide, ?_⟩; rw [fmag_eq_magOf, fmag_eq_magOf]; decide +kernel)

theorem theta_eq (k m : Nat) : theta k m = withSign true (roundMag (fmag 0x401921FB54442D18 * k) (2 ^ m)) := by
  rw [theta, fneg_eq, withSign_mod _ _ (roundMag_lt _ _), fsign_withSign _ _ (roundMag_lt _ _)]; rfl

theorem theta_zero (m : Nat) : theta 0 m = 0x8000000000000000 := by
  rw [theta_eq, Nat.mul_zero]
  have := roundMag_exact 0 (2 ^ m) (Nat.two_pow_pos _) (by norm_num)
  rw [magOf_zero, Nat.zero_mul] at this
  rw [this]; rfl

end Sys2Proof.Machine
end

