-- ==== Sys2Proof/Tests/Slice0.lean ====
section
/-! SUPPORT. Tests. Expected values are those of spec/95_test_vectors.md, named by their id, or of the rule named. A
`witness_` theorem shows that the hypotheses of the obligation of that name can be met, clause by clause, at the edges. -/

open Sys2Proof Sys2Proof.Machine

namespace Sys2Proof.Tests

/-- Just after reset with `LOG2_NMAX = 3`. -/
def base : State := { State.reset with log2Nmax := 3 }

/-- With operands. -/
def withOperands (a b w : ComplexValue) : State := { base with ca := a, cb := b, cw := w }

/-- With a length and samples from `X[0]` on. -/
def withSamples (n : Word) (xs : List ComplexValue) : State := { base with len := n, x := bufferPutSeq [] 0 xs }

/-- With a spectrum of four elements in `Y`. -/
def withSpectrum : State :=
  { base with status := 1, ylen := 4, y := bufferPutSeq [] 0 [⟨1, 2⟩, ⟨3, 4⟩, ⟨5, 6⟩, ⟨7, 8⟩] }

/-- The next state, if there is one. -/
def after : Host.Outcome State Fault Refusal → Option State
  | .next t => some t
  | .fault _ => none
  | .refused _ => none

/-- The answer to a transaction. -/
def answer (i : Instr) (s : State) : Option Response := (after (exec i s)).bind State.response

/-! ## WellFormed -/

/-- The command word 5 in a `wr` to `CMD` is the command `xform`, so the term is ill formed. -/
theorem test_wellFormed_refuses_command_as_write : (Instr.wr cmdAddr 5).wellFormed = false := by decide

theorem test_wellFormed_allows_illegal_word : (Instr.wr cmdAddr 6).wellFormed = true := by decide

/-! ## Decoding: words written out from R50 and R52 -/

/-- `write` 0, `addr` `0x40000003`. -/
theorem test_decode_rd :
    decodeTxn 0b0_01000000000000000000000000000011_0000000000000000000000000000000000000000000000000000000000000000 =
      .rd 0x40000003 := by decide

/-- `write` 1, `addr` 3 (`LEN`), `wdata` 8. -/
theorem test_decode_wr :
    decodeTxn 0b1_00000000000000000000000000000011_0000000000000000000000000000000000000000000000000000000000001000 =
      .wr 0x00000003 8 := by decide

theorem test_decode_cadd :
    decodeTxn 0b1_00000000000000000000000000000001_0000000000000000000000000000000000000000000000000000000000000001 =
      .cadd := by decide

theorem test_decode_cmul :
    decodeTxn 0b1_00000000000000000000000000000001_0000000000000000000000000000000000000000000000000000000000000010 =
      .cmul := by decide

theorem test_decode_cexp :
    decodeTxn 0b1_00000000000000000000000000000001_0000000000000000000000000000000000000000000000000000000000000011 =
      .cexp := by decide

theorem test_decode_bfly :
    decodeTxn 0b1_00000000000000000000000000000001_0000000000000000000000000000000000000000000000000000000000000100 =
      .bfly := by decide

theorem test_decode_xform :
    decodeTxn 0b1_00000000000000000000000000000001_0000000000000000000000000000000000000000000000000000000000000101 =
      .xform := by decide

/-- R53: a non-zero bit in 63:8 makes the word illegal; the all-zero word is illegal. -/
theorem test_decode_illegal_words :
    decodeCommandWord 0x0000000000000101 = .error .illegalCommand ∧ decodeCommandWord 0 = .error .illegalCommand ∧
    decodeCommandWord 0x8000000000000005 = .error .illegalCommand ∧ decodeCommandWord 6 = .error .illegalCommand := by
  decide

/-- R51: the five CMD words, and what the table decoder refuses. -/
theorem test_decodeTable_cmd :
    [1, 2, 3, 4, 5].map (decodeTableWord 64) = [some .cadd, some .cmul, some .cexp, some .bfly, some .xform] ∧
    decodeTableWord 64 0 = none ∧ decodeTableWord 64 (2 ^ 64) = none ∧ decodeTableWord 97 (2 ^ 97) = none := by decide

/-- R50: the two TXN rows, with all other bits zero. -/
theorem test_decodeTable_txn :
    decodeTableWord 97 0 = some (.rd 0) ∧ decodeTableWord 104 (2 ^ 96) = some (.wr 0 0) := by decide

/-! ## One transaction -/

/-- V-MEM-1, V-MEM-20: `CAP` reads 8; `Y[0].re` is not readable. -/
theorem test_rd_cap_and_empty_y :
    answer (.rd 0x00000000) base = some (.okayData 8) ∧ answer (.rd 0x80000000) base = some .accFault := by decide

/-- R37 at the edge `i = YLEN`. -/
theorem test_rd_y_edge :
    answer (.rd 0x80000007) withSpectrum = some (.okayData 8) ∧ answer (.rd 0x80000008) withSpectrum = some .accFault := by
  decide

/-- V-MEM-6: a NaN pattern is stored bit for bit in `CA.re`, and `CA.im` is not touched. -/
theorem test_wr_half :
    (after (exec (.wr 0x00000008 0x7FF8000000000001) (withOperands ⟨1, 2⟩ ⟨3, 4⟩ ⟨5, 6⟩))).map State.ca =
      some ⟨0x7FF8000000000001, 2⟩ := by decide

/-- V-MEM-7, V-MEM-8, V-MEM-14: the last word of the X window, the first beyond it, a result register. -/
theorem test_wr_edges :
    (after (exec (.wr 0x4000000F 0x3FF0000000000000) base)).map State.x = some [(15, 0x3FF0000000000000)] ∧
    answer (.wr 0x40000010 0) base = some .accFault ∧ answer (.wr 0x00000010 0) base = some .accFault := by decide

/-- V-CADD-1: an exact cancellation gives `+0`. -/
theorem test_cadd_cancel :
    (after (exec .cadd (withOperands ⟨0x3FF8000000000000, 0xC000000000000000⟩ ⟨0x3FD0000000000000, 0x4000000000000000⟩
      ⟨0, 0⟩))).map State.cr0 = some ⟨0x3FFC000000000000, 0⟩ := by decide +kernel

/-- V-CADD-7: ties to even. -/
theorem test_cadd_ties :
    (after (exec .cadd (withOperands ⟨0x4340000000000000, 0x4340000000000000⟩ ⟨0x3FF0000000000000, 0x4008000000000000⟩
      ⟨0, 0⟩))).map State.cr0 = some ⟨0x4340000000000000, 0x4340000000000002⟩ := by decide +kernel

/-- V-CMUL-1. -/
theorem test_cmul_formula :
    (after (exec .cmul (withOperands ⟨0x3FF0000000000000, 0x4000000000000000⟩ ⟨0x4008000000000000, 0x4010000000000000⟩
      ⟨0, 0⟩))).map State.cr0 = some ⟨0xC014000000000000, 0x4024000000000000⟩ := by decide +kernel

/-- V-CMUL-7, the fusing probe. -/
theorem test_cmul_not_fused :
    (after (exec .cmul (withOperands ⟨0x3FF0000000400000, 0x3FF0000000400000⟩ ⟨0x3FF0000000400000, 0x3FEFFFFFFF800000⟩
      ⟨0, 0⟩))).map State.cr0 = some ⟨0x3E20000000000000, 0x4000000000400000⟩ := by decide +kernel

/-- V-CEXP-2: the sign of a zero angle. -/
theorem test_cexp_negative_zero :
    (after (exec .cexp (withOperands ⟨0, 0x8000000000000000⟩ ⟨0, 0⟩ ⟨0, 0⟩))).map State.cr0 =
      some ⟨0x3FF0000000000000, 0x8000000000000000⟩ := by decide +kernel

/-- V-CEXP-3. -/
theorem test_cexp_reference_point :
    (after (exec .cexp (withOperands ⟨0x8000000000000000, 0xBFF921FB54442D18⟩ ⟨0, 0⟩ ⟨0, 0⟩))).map State.cr0 =
      some ⟨0x3C91A62633145C07, 0xBFF0000000000000⟩ := by decide +kernel

/-- V-BFLY-3: opposite signs and one inexact rounding. -/
theorem test_bfly_signs :
    (after (exec .bfly (withOperands ⟨0xC000000000000000, 0⟩ ⟨0xC000000000000000, 0⟩
      ⟨0x3C91A62633145C07, 0xBFF0000000000000⟩))).map (fun t => (t.cr0, t.cr1)) =
      some (⟨0xC000000000000000, 0x4000000000000000⟩, ⟨0xBFFFFFFFFFFFFFFF, 0xC000000000000000⟩) := by decide +kernel

/-- V-BFLY-7: the signs of zeros. -/
theorem test_bfly_zeros :
    (after (exec .bfly (withOperands ⟨0x8000000000000000, 0x8000000000000000⟩ ⟨0x8000000000000000, 0x8000000000000000⟩
      ⟨0x3FF0000000000000, 0x8000000000000000⟩))).map (fun t => (t.cr0, t.cr1)) =
      some (⟨0x8000000000000000, 0⟩, ⟨0, 0x8000000000000000⟩) := by decide +kernel

/-- V-XF-9: the ramp of length 4. -/
theorem test_xform_ramp :
    (after (exec .xform (withSamples 4 [⟨0x3FF0000000000000, 0⟩, ⟨0x4000000000000000, 0⟩, ⟨0x4008000000000000, 0⟩,
      ⟨0x4010000000000000, 0⟩]))).map (fun t => (t.ylen, t.y.map Prod.snd)) =
      some (4, [0x4024000000000000, 0, 0xC000000000000000, 0x4000000000000000, 0xC000000000000000, 0,
        0xBFFFFFFFFFFFFFFF, 0xC000000000000000]) := by decide +kernel

/-- The source's precondition (S7): length 3 raises InvalidLength and leaves `YLEN`. -/
theorem test_xform_invalid :
    (after (exec .xform { withSpectrum with len := 3 })).map (fun t => (t.status, t.response, t.ylen)) =
      some (0x0000000000000102, some .cmdErr, 4) := by decide

/-! ## Fetching -/

/-- The word for `cadd` placed at the port is the next transaction. -/
theorem test_withFetchWord_command :
    (after (step (State.reset.withFetchWord 64 1))).map State.status = some 1 := by decide +kernel

theorem test_withFetchWord_transaction :
    (after (step (base.withFetchWord 97 0x100000003FFFFFFFFFFFFFFFF))).map State.len = some 0xFFFFFFFFFFFFFFFF := by decide

/-! ## The script notation -/

/-- R57: a line with a symbol, a literal and a comment; the mnemonic in any case. -/
theorem test_parse_wr :
    parseLine "WR X[1].im, f64(-4.0) ; V-MEM".toList = some (.wr 0x40000003 0xC010000000000000 .okay) := by
  decide +kernel

/-- R57, R58: an expectation, and a pseudo-instruction. -/
theorem test_parse_expectation_and_pseudo :
    parseLine "rd STATUS -> 0x0000000000000102".toList = some (.rd 0x00000002 (.value 0x102)) ∧
    parseLine "wr CMD, 0 -> CMDERR".toList = some (.wr 0x00000001 0 .cmdErr) ∧
    parseLine "setx 3, (1.5, -2.0)".toList = some (.pseudo (.setx 3 ⟨false, 15, -1⟩ ⟨true, 20, -1⟩)) := by
  decide +kernel

/-- V-CADD-2 and V-CADD-4's literals: `0.1` and `1e308`; `f64(-0.0)` is `-0`. -/
theorem test_decimal_literals :
    decimalWord ⟨false, 1, -1⟩ = 0x3FB999999999999A ∧ decimalWord ⟨false, 1, 308⟩ = 0x7FE1CCF385EBC8A0 ∧
    decimalWord ⟨true, 0, -1⟩ = 0x8000000000000000 := by decide +kernel

/-! ## Witnesses -/

theorem witness_StepPerformsPresentedTransaction :
    let s : State := { base with pending := [.txn (encode .cadd) 5, .rst 6] }
    s.pending = .txn (encode .cadd) 5 :: [.rst 6] ∧ decodeTxn (encode .cadd) = .cadd ∧ Instr.cadd.wellFormed = true := by
  decide

theorem witness_IdleStepKeepsAllState : base.pending = [] := by decide

/-- With something to lose at reset; the first and the last address of region `10`. -/
theorem witness_ResetLeavesResetState :
    ({ withSpectrum with pending := [.rst 5] } : State).pending = .rst 5 :: [] ∧
    (0x80000000 : Addr).toNat / 2 ^ 30 = 2 ∧ (0xBFFFFFFF : Addr).toNat / 2 ^ 30 = 2 := by decide

theorem witness_OnlyResetClearsYlenAndStatus :
    ∃ t, step { withSpectrum with pending := [.rst 5] } = .next t ∧ withSpectrum.ylen ≠ 0 ∧ t.ylen = 0 ∧
      withSpectrum.status ≠ 0 ∧ t.status = 0 := ⟨_, rfl, by decide, by decide, by decide, by decide⟩

theorem witness_CapIsConstant : step base = .next base := rfl

/-- A state with a spectrum meets the invariant, and a step is taken from it. -/
theorem witness_StepKeepsInvariant : withSpectrum.Inv ∧ ∃ t, step withSpectrum = .next t :=
  ⟨⟨.inr (.inl rfl), .inr ⟨2, by decide, by decide⟩, ⟨by decide, by decide, by decide, by decide⟩,
    show ∀ off, off < 8 → (bufferWord withSpectrum.y off).isSome = true by decide⟩, _, rfl⟩

/-- Every clause changes something: operands, `CR0`, `CR1`, `LEN`, `X`, `Y`, `STATUS`. -/
theorem witness_WriteMatrix :
    (Instr.wr 0x08 7).wellFormed = true ∧ (after (exec (.wr 0x08 7) base)).map State.ca ≠ some base.ca ∧
    (after (exec (.wr 0x0D 7) base)).map State.cw ≠ some base.cw ∧
    (after (exec .cadd (withOperands ⟨fone, 0⟩ ⟨0, 0⟩ ⟨0, 0⟩))).map State.cr0 ≠ some base.cr0 ∧
    (after (exec .bfly (withOperands ⟨fone, 0⟩ ⟨0, 0⟩ ⟨0, 0⟩))).map State.cr1 ≠ some base.cr1 ∧
    (Instr.wr 0x03 7).wellFormed = true ∧ (after (exec (.wr 0x03 7) base)).map State.len ≠ some base.len ∧
    (Instr.wr 0x4000000F 7).wellFormed = true ∧ (after (exec (.wr 0x4000000F 7) base)).map State.x ≠ some base.x ∧
    (after (exec .xform (withSamples 1 [⟨1, 2⟩]))).map State.y ≠ some [] ∧
    (Instr.wr cmdAddr 6).wellFormed = true ∧ (after (exec (.wr cmdAddr 6) base)).map State.status ≠ some 0 := by
  decide +kernel

theorem witness_CommandsLeaveTheirInputs :
    ∃ s t : State, exec .xform s = .next t ∧ s.len = 1 ∧ ∃ t', exec (.wr cmdAddr 0) s = .next t' :=
  ⟨withSamples 1 [⟨1, 2⟩], _, rfl, rfl, _, rfl⟩

/-- The three outcomes, and a transaction that is no command. -/
theorem witness_StatusRecordsTheLatestCommand :
    (after (exec .bfly base)).map State.status = some 0x1 ∧ (after (exec .xform base)).map State.status = some 0x102 ∧
    (after (exec (.wr cmdAddr 0xFFFFFFFFFFFFFFFF) base)).map State.status = some 0x202 ∧
    (after (exec (.rd 0x02) withSpectrum)).map State.status = some 1 := by decide +kernel

theorem witness_SpectrumChangesOnlyByTransform :
    let s : State := { withSamples 1 [⟨1, 2⟩] with pending := [.txn (encode .xform) 5] }
    (∃ t, step s = .next t ∧ t.ylen ≠ s.ylen ∧ t.y ≠ s.y) ∧ ¬ s.resetNext :=
  ⟨⟨_, rfl, by decide +kernel, by decide +kernel⟩, fun ⟨_, _, h⟩ => by cases h⟩

theorem witness_RepeatingATransactionChangesNothing :
    ∃ t, exec .xform (withSamples 1 [⟨1, 2⟩]) = .next t ∧ t.ylen = 1 := ⟨_, rfl, rfl⟩

theorem witness_DecodeEncodeRoundTrip :
    (Instr.wr cmdAddr 0).wellFormed = true ∧ (Instr.rd 0xFFFFFFFF).wellFormed = true ∧
    (Instr.wr 0xFFFFFFFF 0xFFFFFFFFFFFFFFFF).wellFormed = true ∧ Instr.xform.wellFormed = true := by decide

/-- The last element whose address stays in its region. -/
theorem witness_PseudoInstructionsExpand :
    2 ^ 29 - 1 < 2 ^ 29 ∧ (expandPseudo (.gety (2 ^ 29 - 1))).map decodeTxn = [.rd 0xBFFFFFFE, .rd 0xBFFFFFFF] := by
  decide

/-- `1e308` does not overflow; `1e309` does. -/
theorem witness_DecimalLiteralIsNearest :
    (¬ (2 ^ 54 - 1) * 2 ^ 2044 * (1 : Int) ≤ |(1 * 10 ^ 308 * 2 ^ 1074 : Int)|) ∧
    (2 ^ 54 - 1) * 2 ^ 2044 * (1 : Int) ≤ |(1 * 10 ^ 309 * 2 ^ 1074 : Int)| := by decide +kernel

/-- The causes (a) to (g) at the edges of their ranges, for `NMAX = 8` and `YLEN = 4`. -/
theorem witness_AccessFaultExactly_causes :
    accessFaultCause false 8 4 0xC0000000 ∧ accessFaultCause true 8 4 0xFFFFFFFF ∧
    accessFaultCause false 8 4 0x00000005 ∧ accessFaultCause false 8 4 0x00000007 ∧
    accessFaultCause false 8 4 0x0000000E ∧ accessFaultCause true 8 4 0x00000014 ∧
    accessFaultCause true 8 4 0x40000010 ∧ accessFaultCause false 8 4 0x80000010 ∧
    accessFaultCause false 8 4 0x00000001 ∧ accessFaultCause true 8 4 0x00000000 ∧
    accessFaultCause true 8 4 0x00000004 ∧ accessFaultCause true 8 4 0x00000013 ∧
    accessFaultCause true 8 4 0x80000000 ∧ accessFaultCause false 8 4 0x80000008 := by
  refine ⟨?_, ?_, ?_, ?_, ?_, ?_, ?_, ?_, ?_, ?_, ?_, ?_, ?_, ?_⟩ <;> (simp only [accessFaultCause]; decide)

/-- What is allowed next to them. -/
theorem witness_AccessFaultExactly_allowed :
    ¬ accessFaultCause false 8 4 0x00000004 ∧ ¬ accessFaultCause true 8 4 0x00000001 ∧
    ¬ accessFaultCause true 8 4 0x00000003 ∧ ¬ accessFaultCause true 8 4 0x00000008 ∧
    ¬ accessFaultCause true 8 4 0x0000000D ∧ ¬ accessFaultCause false 8 4 0x00000013 ∧
    ¬ accessFaultCause true 8 4 0x4000000F ∧ ¬ accessFaultCause false 8 4 0x40000000 ∧
    ¬ accessFaultCause false 8 4 0x80000007 := by
  refine ⟨?_, ?_, ?_, ?_, ?_, ?_, ?_, ?_, ?_⟩ <;> (simp only [accessFaultCause]; decide)

theorem witness_XWindowAccess :
    0 < 2 ^ base.log2Nmax.val ∧ 7 < 2 ^ base.log2Nmax.val ∧
    answer (.rd 0x40000003) (withSamples 2 [⟨1, 2⟩, ⟨3, 4⟩]) = some (.okayData 4) := by decide

/-- Below, at and above `YLEN = 4`, up to the last element. -/
theorem witness_YWindowAccess :
    3 < 2 ^ withSpectrum.log2Nmax.val ∧ 3 < withSpectrum.ylen.toNat ∧ withSpectrum.ylen.toNat ≤ 4 ∧
    7 < 2 ^ withSpectrum.log2Nmax.val ∧ withSpectrum.ylen.toNat ≤ 7 := by decide

theorem witness_ReadReturnsLatestWrite :
    let a : Addr := 0x4000000F
    let s : State := { base with pending := [.txn (encode (.wr a 9)) 5, .txn (encode (.rd a)) 6] }
    a ≠ cmdAddr ∧ ∃ t u, step s = .next t ∧ t.response = some .okay ∧ step t = .next u :=
  ⟨by decide, _, _, rfl, rfl, rfl⟩

theorem witness_WriteLeavesOtherWords :
    (0x08 : Addr) ≠ cmdAddr ∧ (0x09 : Addr) ≠ 0x08 ∧
    ∃ t u v, exec (.wr 0x08 7) base = .next t ∧ exec (.rd 0x09) base = .next u ∧ exec (.rd 0x09) t = .next v :=
  ⟨by decide, by decide, _, _, _, rfl, rfl, rfl⟩

theorem witness_SymbolAddressesDecode :
    targetAddr (.sample 7 .im) = some 0x4000000F ∧ targetAddr (.spectrum 7 .re) = some 0x8000000E ∧
    targetAddr (.result .cr1 .im) = some 0x00000013 ∧ decodeAddr 8 0x4000000F = .sample 7 .im ∧
    ∀ i c, (Target.sample 7 .im = .sample i c ∨ Target.sample 7 .im = .spectrum i c) → i < 8 :=
  ⟨by decide, by decide, by decide, by decide, fun i c h => by
    rcases h with h | h
    · injection h with h1 _; omega
    · injection h⟩

theorem witness_IllegalCommandWord :
    (0 : Word).toNat = 0 ∧ 5 < (6 : Word).toNat ∧ 5 < (0x100 : Word).toNat ∧ 5 < (0xFFFFFFFFFFFFFFFF : Word).toNat := by
  decide

/-- The least and the greatest length for `LOG2_NMAX = 3`. -/
theorem witness_XformResult :
    (0 ≤ base.log2Nmax.val ∧ ({ base with len := 1 } : State).len.toNat = 2 ^ 0) ∧
    (3 ≤ base.log2Nmax.val ∧ ({ base with len := 8 } : State).len.toNat = 2 ^ 3) := by decide

/-- Zero, no power of two, a power of two above `NMAX`. -/
theorem witness_XformInvalidLength :
    (¬ ∃ p : Nat, p ≤ 3 ∧ (0 : Word).toNat = 2 ^ p) ∧ (¬ ∃ p : Nat, p ≤ 3 ∧ (3 : Word).toNat = 2 ^ p) ∧
    (¬ ∃ p : Nat, p ≤ 3 ∧ (16 : Word).toNat = 2 ^ p) := by
  refine ⟨?_, ?_, ?_⟩ <;> rintro ⟨p, hp, h⟩ <;> interval_cases p <;> simp at h

theorem witness_LengthOneCopiesTheSample : (withSamples 1 [⟨1, 2⟩]).len = 1 := by decide

theorem witness_CommandsReadOnlyTheirOperands :
    let s := withOperands ⟨1, 2⟩ ⟨3, 4⟩ ⟨5, 6⟩
    let s' : State := { s with len := 9, cr1 := ⟨8, 8⟩ }
    s.drawInput = s'.drawInput ∧ s.ca = s'.ca ∧ s.cb = s'.cb ∧ s.cw = s'.cw ∧
      ∃ t t', exec .bfly s = .next t ∧ exec .bfly s' = .next t' :=
  ⟨rfl, rfl, rfl, rfl, _, _, rfl, rfl⟩

/-- Two states that differ in `X[1]`, above the length 1, and in `Y`. -/
theorem witness_XformReadsOnlyItsSamples :
    let s := withSamples 1 [⟨1, 2⟩]
    let s' : State := { withSamples 1 [⟨1, 2⟩, ⟨3, 4⟩] with y := [(0, 9)] }
    s.drawInput = s'.drawInput ∧ s.log2Nmax = s'.log2Nmax ∧ s.len = s'.len ∧
      (∀ j, j < s.len.toNat → s.xElem j = s'.xElem j) ∧
      ∃ t t', exec .xform s = .next t ∧ exec .xform s' = .next t' ∧ t.response = some .okay := by
  refine ⟨rfl, rfl, rfl, fun j hj => ?_, _, _, rfl, rfl, rfl⟩
  obtain rfl : j = 0 := by
    have h : (withSamples 1 [⟨1, 2⟩]).len.toNat = 1 := rfl
    omega
  rfl

/-- The least and the greatest valid length, with the first and the last element. -/
theorem witness_ResultReadableByNextTransaction :
    (0 ≤ base.log2Nmax.val ∧ ({ base with len := 1 } : State).len.toNat = 2 ^ 0 ∧ 0 < 2 ^ 0) ∧
    (3 ≤ base.log2Nmax.val ∧ ({ base with len := 8 } : State).len.toNat = 2 ^ 3 ∧ 7 < 2 ^ 3) := by decide

/-- V-CADD-7 and V-CADD-6: a tie, and a subnormal; nothing overflows. -/
theorem witness_ArithmeticRoundsToNearestEven :
    let a : Word := 0x4340000000000000
    let b : Word := 0x3FF0000000000000
    isFinite a = true ∧ isFinite b = true ∧ ¬ (2 ^ 54 - 1) * 2 ^ 2044 * (1 : Int) ≤ |fval a + fval b| ∧
      ¬ (2 ^ 54 - 1) * 2 ^ 2044 * (1 : Int) ≤ |fval a - fval b| ∧
      ¬ (2 ^ 54 - 1) * 2 ^ 2044 * (2 ^ 1074 : Int) ≤ |fval a * fval b| ∧
      ¬ (2 ^ 54 - 1) * 2 ^ 2044 * (2 ^ 1074 : Int) ≤ |fval 1 * fval 1| := by decide +kernel

/-- The examples of R67 for each clause. -/
theorem witness_SignedZeroRules :
    isNaN (fmul 0 0 0xBFF0000000000000) = false ∧
    fval 0x8000000000000000 + fval 0x8000000000000000 = 0 ∧ fval 0x3FF0000000000000 - fval 0x3FF0000000000000 = 0 ∧
    isZero 0x8000000000000000 = true ∧ isZero 1 = false ∧ isNaN 1 = false ∧ isZero 0x7FF0000000000000 = false ∧
    isNaN 0x7FF0000000000000 = false ∧ isNaN (fsub 0 1 2) = false ∧ isNaN (fadd 0 1 (fneg 2)) = false := by decide +kernel

/-- Overflow, also just at its bound, infinite operands, the invalid operations. -/
theorem witness_InfinityOverflowAndInvalid :
    (2 ^ 54 - 1) * 2 ^ 2044 * (1 : Int) ≤ |fval 0x7FEFFFFFFFFFFFFF + fval 0x7FEFFFFFFFFFFFFF| ∧
    (2 ^ 54 - 1) * 2 ^ 2044 * (1 : Int) = |fval 0x7FEFFFFFFFFFFFFF + fval 0x7C90000000000000| ∧
    (2 ^ 54 - 1) * 2 ^ 2044 * (1 : Int) ≤ |fval 0x7FEFFFFFFFFFFFFF - fval 0xFFEFFFFFFFFFFFFF| ∧
    (2 ^ 54 - 1) * 2 ^ 2044 * (2 ^ 1074 : Int) ≤ |fval 0x7FEFFFFFFFFFFFFF * fval 0x4000000000000000| ∧
    isInf 0x7FF0000000000000 = true ∧ isNaN 1 = false ∧ isZero 1 = false ∧ isInf 1 = false ∧
    isInf 0xFFF0000000000000 = true ∧ fsign 0x7FF0000000000000 ≠ fsign 0xFFF0000000000000 ∧ isZero 0 = true := by
  decide +kernel

theorem witness_NaNResultsAreFreeQuietNaNs :
    isNaN 0x7FF0000000000001 = true ∧ isQuietNaN 0xFFF8000000000001 = true ∧ isQuietNaN 0x7FF0000000000001 = false ∧
    addInvalid 0x7FF0000000000000 0xFFF0000000000000 ∧ subInvalid 0x7FF0000000000000 0x7FF0000000000000 ∧
    mulInvalid 0 0x7FF0000000000000 ∧ isNaN 1 = false ∧ ¬ addInvalid 1 1 := by
  unfold addInvalid subInvalid mulInvalid; decide +kernel

theorem witness_TranscendentalNamedProperties :
    isNaN 0x7FF8000000000000 = true ∧ isInf 0xFFF0000000000000 = true ∧ isFinite 0x3FF0000000000000 = true ∧
    isNaN 0x7FF0000000000000 = false := by
  decide +kernel

theorem witness_ComplexLaws :
    let d : Draw := fun _ => 0
    let a : ComplexValue := ⟨0x3FF0000000000000, 0x8000000000000000⟩
    let b : ComplexValue := ⟨0x4000000000000000, 0x7FE1CCF385EBC8A0⟩
    noNaN (cadd d a b) ∧ noNaN (cmul d a b) ∧ noNaN (csub d a b) ∧ bothFinite a ∧ bothFinite b := by
  unfold noNaN bothFinite; decide +kernel

theorem witness_CexpOfImaginaryIsCosSin :
    isZero (0x8000000000000000 : Word) = true ∧ isFinite (0x7FEFFFFFFFFFFFFF : Word) = true := by decide

/-- The least and the greatest index of the longest transform. -/
theorem witness_TwiddleAngle :
    (1 ≤ 29 ∧ 29 ≤ 29 ∧ 0 < 2 ^ (29 - 1)) ∧ 2 ^ 28 - 1 < 2 ^ (29 - 1) ∧ (1 ≤ 1 ∧ 1 ≤ 29 ∧ 0 < 2 ^ (1 - 1)) := by decide

/-- V-TW-2, V-TW-4 and R91's facts. -/
theorem witness_TwiddleFactor :
    1 < 2 ^ (2 - 1) ∧ theta 1 2 = 0xBFF921FB54442D18 ∧ theta 3 3 = 0xC002D97C7F3321D2 ∧
    theta 0 1 = 0x8000000000000000 := by decide +kernel

theorem witness_TransformRecursion :
    ([⟨1, 0⟩, ⟨2, 0⟩, ⟨3, 0⟩, ⟨4, 0⟩] : List ComplexValue).length = 2 ^ (1 + 1) := by decide

/-- A list over any type, and V-XF-13 (b) for the clause on halves that are no NaN. -/
theorem witness_CascadeEqualsRecursion :
    let x : List ComplexValue := [⟨0x7FF8000000000000, 0⟩, ⟨0x3FF0000000000000, 0x3FF0000000000000⟩]
    ([1, 2, 3, 4, 5, 6, 7, 8] : List Nat).length = 2 ^ 3 ∧ x.length = 2 ^ 1 ∧
    ∃ z, (cascade (fun _ => 0) 1 x)[1]? = some z ∧ isNaN (z.half .im) = false :=
  ⟨rfl, rfl, _, rfl, by decide +kernel⟩

theorem witness_ExactTransformIsTheDft : ([1, 0, -1, 0] : List ℂ).length = 2 ^ 2 ∧ 3 < 2 ^ 2 := ⟨rfl, by decide⟩

/-- V-XF-4's constant. -/
theorem witness_ConstantInputGivesOnlyDc :
    let c : ComplexValue := ⟨0x4004000000000000, 0xBFF8000000000000⟩
    bothFinite c ∧ 2 ^ 2 * fmag c.re ≤ fmag 0x7FEFFFFFFFFFFFFF ∧ 2 ^ 2 * fmag c.im ≤ fmag 0x7FEFFFFFFFFFFFFF := by
  unfold bothFinite; decide +kernel

/-- V-XF-13 (b): the real halves are NaNs, the imaginary halves `1.0` and `-1.0` are none. -/
theorem witness_TransformIsAFunctionUpToNaN :
    let x : List ComplexValue := [⟨0x7FF8000000000000, 0⟩, ⟨0x3FF0000000000000, 0x3FF0000000000000⟩]
    x.length = 2 ^ 1 ∧ (fft (fun _ => 0) 1 x).map (fun z => (isNaN z.re, isNaN z.im, z.im)) =
      [(true, false, 0x3FF0000000000000), (true, false, 0xBFF0000000000000)] := by
  decide +kernel

theorem witness_CascadeEqualsRecursionNaNsIncluded :
    ([⟨0x7FF8000000000000, 0⟩, ⟨0, 0⟩] : List ComplexValue).length = 2 ^ 1 := by decide

end Sys2Proof.Tests
end

section
/-! PROOFS. The state: what a command leaves unchanged (R22), and the constant `CAP` (R19). -/

namespace Sys2Proof

/-- A command: one of the five constructors, or any `WR` to `CMD` (R52, R53). -/
def Instr.IsCommand (i : Instr) : Prop :=
  i = .cadd ∨ i = .cmul ∨ i = .cexp ∨ i = .bfly ∨ i = .xform ∨ ∃ w, i = .wr cmdAddr w

theorem Instr.not_isCommand_rd (a : Addr) : ¬ (Instr.rd a).IsCommand := by simp [Instr.IsCommand]

theorem Instr.isCommand_wr_iff {a : Addr} {w : Word} : (Instr.wr a w).IsCommand ↔ a = cmdAddr := by
  simp [Instr.IsCommand]

end Sys2Proof

namespace Sys2Proof.Machine

/-! Commands. -/

/-- A command writes `CR0`, or both results, or the spectrum, and succeeds; or it fails and writes nothing but
`STATUS` (R56). -/
theorem exec_command_cases {i : Instr} {s t : State} (hc : i.IsCommand) (h : exec i s = .next t) :
    (∃ z, t = (s.writeCr0 z).finishCommand) ∨
    (∃ z z', t = ((s.writeCr0 z).writeCr1 z').finishCommand) ∨
    (∃ n out, t = (s.writeSpectrum n out).finishCommand) ∨
    ∃ e, t = s.raiseCommandError e := by
  have hwr {a w} (hi : i = .wr a w) : a = cmdAddr := Instr.isCommand_wr_iff.1 (hi ▸ hc)
  cases exec_next_cases h with
  | rdWord a _ hi | rdFault a hi => exact absurd (hi ▸ hc) (Instr.not_isCommand_rd a)
  | wrFault _ _ hi ha => exact absurd (hwr hi) ha
  | wrLen _ hi => exact absurd (hwr hi) (by decide)
  | wrOperand _ _ _ _ hi hlo => rw [hwr hi] at hlo; exact absurd hlo (by decide)
  | wrSample _ _ _ hi ha =>
    have hcmd : cmdAddr.toNat = 1 := rfl
    rw [hwr hi] at ha
    omega
  | cadd | cmul | cexp => exact .inl ⟨_, rfl⟩
  | bfly => exact .inr (.inl ⟨_, _, rfl⟩)
  | xform => exact .inr (.inr (.inl ⟨_, _, rfl⟩))
  | invalidLength | illegalCommand => exact .inr (.inr (.inr ⟨_, rfl⟩))

/-- Settles O10, from the four kinds of next state a command has: none of them writes an operand, `LEN` or `X`. -/
theorem commandsLeaveTheirInputs : Obligations.CommandsLeaveTheirInputs := by
  unfold Obligations.CommandsLeaveTheirInputs
  intro i s t hc h
  rcases exec_command_cases hc h with ⟨z, rfl⟩ | ⟨z, z', rfl⟩ | ⟨n, out, rfl⟩ | ⟨e, rfl⟩ <;>
    simp [State.sameOperands, State.sameX]

/-! `CAP`. -/

theorem decodeAddr_cap (n : Nat) : decodeAddr n 0x00000000 = .cap := rfl

/-- `2^LOG2_NMAX` fits a word, as `LOG2_NMAX` is at most 29 (R5). -/
theorem State.capWord_toNat (s : State) : s.capWord.toNat = 2 ^ s.log2Nmax.val := by
  have hle := nmax_le s
  rw [State.capWord, BitVec.toNat_ofNat, Nat.mod_eq_of_lt (by omega), State.nmax]

theorem exec_rd_cap (s : State) : exec (.rd 0x00000000) s = .next (s.respond (.okayData s.capWord)) := by
  rw [exec, execRd, decodeAddr_cap]
  rfl

theorem exec_wr_cap (s : State) (d : Word) : exec (.wr 0x00000000 d) s = .next s.raiseAccessFault := by
  rw [exec, execWr, decodeAddr_cap]
  rfl

/-- An answer alone changes no state of FFTC. -/
theorem State.sameFftc_respond (s : State) (r : Response) : s.sameFftc (s.respond r) := by
  simp [State.sameFftc, State.sameOperands, State.sameResults, State.sameControl, State.sameX, State.sameY,
    State.samePort]

theorem State.sameFftc_raiseAccessFault (s : State) : s.sameFftc s.raiseAccessFault := s.sameFftc_respond .accFault

/-- `LOG2_NMAX` is in the frame of every operation an instruction is made of. -/
theorem exec_keeps_log2Nmax {i : Instr} {s t : State} (h : exec i s = .next t) : t.log2Nmax = s.log2Nmax := by
  cases exec_next_cases h <;> simp

theorem step_keeps_log2Nmax {s t : State} (h : step s = .next t) : t.log2Nmax = s.log2Nmax := by
  rcases step_cases h with ⟨_, rfl⟩ | ⟨_, rest, _, rfl⟩ | ⟨_, _, rest, u, _, hu, rfl⟩
  · rfl
  · simp
  · rw [State.finishEvent_log2Nmax, exec_keeps_log2Nmax hu]

/-- Settles O6: the read, the write and the step each by its own lemma. -/
theorem capIsConstant : Obligations.CapIsConstant := by
  unfold Obligations.CapIsConstant
  refine ⟨fun s => ?_, fun s d => ?_, fun s t h => step_keeps_log2Nmax h⟩
  · exact ⟨_, _, exec_rd_cap s, s.respond_response _, s.capWord_toNat, s.sameFftc_respond _⟩
  · exact ⟨_, exec_wr_cap s d, s.raiseAccessFault_response, s.sameFftc_raiseAccessFault⟩

end Sys2Proof.Machine
end

section
/-! PROOFS. RD and WR: when an access faults (R42), and the two buffer windows (R36, R37). -/

namespace Sys2Proof.Machine

/-! RD and WR from what the address names. -/

section
variable {s : State} {a : Addr}

theorem exec_rd_of_readTarget_some {w : Word} (h : s.readTarget (decodeAddr s.nmax a) = some w) :
    exec (.rd a) s = .next (s.respond (.okayData w)) := by
  rw [exec, execRd, h]

theorem exec_rd_of_readTarget_none (h : s.readTarget (decodeAddr s.nmax a) = none) :
    exec (.rd a) s = .next s.raiseAccessFault := by
  rw [exec, execRd, h]

theorem exec_wr_cmd (s : State) (d : Word) : exec (.wr cmdAddr d) s = executeCommand d s := by
  rw [exec, execWr, if_pos ((decodeAddr_eq_cmd _ _).2 rfl)]

theorem exec_wr_of_writeTarget_some {d : Word} {t : State} (ha : decodeAddr s.nmax a ≠ .cmd)
    (h : s.writeTarget (decodeAddr s.nmax a) d = some t) : exec (.wr a d) s = .next (t.respond .okay) := by
  rw [exec, execWr, if_neg ha, h]

theorem exec_wr_of_writeTarget_none {d : Word} (ha : decodeAddr s.nmax a ≠ .cmd)
    (h : s.writeTarget (decodeAddr s.nmax a) d = none) : exec (.wr a d) s = .next s.raiseAccessFault := by
  rw [exec, execWr, if_neg ha, h]

end

/-- A command succeeds or fails; its answer carries no data (R56). -/
theorem executeCommand_answers (d : Word) (s : State) :
    ∃ t, executeCommand d s = .next t ∧ (t.response = some .okay ∨ t.response = some .cmdErr) := by
  rcases executeCommand_cases d s with ⟨_, h⟩ | ⟨_, h⟩ | ⟨_, h⟩ | ⟨_, h⟩ | ⟨_, h⟩ | ⟨_, h⟩
  case inr.inr.inr.inr.inl =>
    rcases execXform_cases s with ⟨_, hx⟩ | ⟨_, hx⟩
    · exact ⟨_, h.trans hx, .inl rfl⟩
    · exact ⟨_, h.trans hx, .inr rfl⟩
  case inr.inr.inr.inr.inr => exact ⟨_, h, .inr rfl⟩
  all_goals exact ⟨_, h, .inl rfl⟩

/-! The causes of an AccessFault. -/

/-- R42 by what the address names: the targets at which an `RD` (`write` false) or a `WR` is an AccessFault. -/
def Target.Faults (write : Bool) (ylen : Nat) : Target → Prop
  | .cap | .status | .ylen | .result _ _ => write = true
  | .cmd => write = false
  | .len | .operand _ _ | .sample _ _ => False
  | .spectrum i _ => write = true ∨ ylen ≤ i
  | .unmapped => True

/-- The causes (a) to (g), in numbers, are the faults of the addressed target. -/
theorem accessFaultCause_iff_faults (write : Bool) (n ylen : Nat) (a : Addr) :
    accessFaultCause write n ylen a ↔ (decodeAddr n a).Faults write ylen := by
  unfold accessFaultCause
  rcases decodeAddr_cases n a with ⟨h, hd⟩ | ⟨h, hb, hd⟩ | ⟨h, hb, hd⟩ | ⟨h, hb, hd⟩ | ⟨h, hd⟩ <;> rw [hd]
  · rcases registerTarget_cases (a.toNat % 2 ^ 30) with
      ⟨ho, hr⟩ | ⟨ho, hr⟩ | ⟨ho, hr⟩ | ⟨ho, hr⟩ | ⟨ho, hr⟩ | ⟨_, _, hl, hu, hr⟩ | ⟨_, _, hl, hu, hr⟩ | ⟨ho, hr⟩ <;>
      rw [hr] <;> cases write <;> simp [Target.Faults] <;> omega
  all_goals cases write <;> simp [Target.Faults] <;> omega

theorem readTarget_eq_none_iff (s : State) (target : Target) :
    s.readTarget target = none ↔ target.Faults false s.ylen.toNat := by
  cases target <;> simp [State.readTarget, Target.Faults]

theorem writeTarget_eq_none_iff (s : State) (target : Target) (d : Word) (hc : target ≠ .cmd) :
    s.writeTarget target d = none ↔ target.Faults true s.ylen.toNat := by
  cases target <;> simp [State.writeTarget, Target.Faults] at hc ⊢

theorem not_accessFaultCause_write_cmd (n ylen : Nat) : ¬ accessFaultCause true n ylen cmdAddr := by
  simp [accessFaultCause_iff_faults, (decodeAddr_eq_cmd n cmdAddr).2 rfl, Target.Faults]

section
variable {s : State} {a : Addr}

theorem exec_rd_of_cause (h : accessFaultCause false s.nmax s.ylen.toNat a) :
    exec (.rd a) s = .next s.raiseAccessFault :=
  exec_rd_of_readTarget_none ((readTarget_eq_none_iff _ _).2 ((accessFaultCause_iff_faults _ _ _ _).1 h))

theorem exec_rd_of_not_cause (h : ¬ accessFaultCause false s.nmax s.ylen.toNat a) :
    ∃ w, exec (.rd a) s = .next (s.respond (.okayData w)) := by
  rw [accessFaultCause_iff_faults, ← readTarget_eq_none_iff] at h
  obtain ⟨w, hw⟩ := Option.ne_none_iff_exists'.1 h
  exact ⟨w, exec_rd_of_readTarget_some hw⟩

theorem exec_wr_of_cause (d : Word) (h : accessFaultCause true s.nmax s.ylen.toNat a) :
    exec (.wr a d) s = .next s.raiseAccessFault := by
  have hc : decodeAddr s.nmax a ≠ .cmd := fun hc =>
    not_accessFaultCause_write_cmd _ _ ((decodeAddr_eq_cmd _ _).1 hc ▸ h)
  exact exec_wr_of_writeTarget_none hc
    ((writeTarget_eq_none_iff _ _ _ hc).2 ((accessFaultCause_iff_faults _ _ _ _).1 h))

theorem exec_wr_of_not_cause (d : Word) (ha : a ≠ cmdAddr) (h : ¬ accessFaultCause true s.nmax s.ylen.toNat a) :
    ∃ t : State, exec (.wr a d) s = .next (t.respond .okay) := by
  have hc : decodeAddr s.nmax a ≠ .cmd := mt (decodeAddr_eq_cmd _ _).1 ha
  rw [accessFaultCause_iff_faults, ← writeTarget_eq_none_iff s _ d hc] at h
  obtain ⟨t, ht⟩ := Option.ne_none_iff_exists'.1 h
  exact ⟨t, exec_wr_of_writeTarget_some hc ht⟩

end

/-- Settles O21: the four cases, each by its own lemma; a `WR` to `CMD` has no cause and answers as its command does. -/
theorem accessFaultExactly : Obligations.AccessFaultExactly := by
  unfold Obligations.AccessFaultExactly
  intro s a
  refine ⟨fun h => ?_, fun h => ?_, fun d h => ?_, fun d h => ?_⟩
  · exact ⟨_, exec_rd_of_cause h, ⟨rfl, rfl⟩, s.sameFftc_raiseAccessFault⟩
  · obtain ⟨w, hw⟩ := exec_rd_of_not_cause h
    exact ⟨_, w, hw, rfl, rfl⟩
  · exact ⟨_, exec_wr_of_cause d h, ⟨rfl, rfl⟩, s.sameFftc_raiseAccessFault⟩
  · by_cases ha : a = cmdAddr
    · subst ha
      obtain ⟨t, ht, hr⟩ := executeCommand_answers d s
      refine ⟨t, (exec_wr_cmd s d).trans ht, ?_⟩
      rcases hr with hr | hr <;> simp [hr, responseCode, responseData]
    · obtain ⟨t, ht⟩ := exec_wr_of_not_cause d ha h
      exact ⟨_, ht, .inl ⟨rfl, rfl⟩⟩

/-! The X window. -/

theorem State.writeX_xWord (s : State) (off : Nat) (w : Word) (i : Nat) :
    (s.writeX off w).xWord i = if i = off then w else s.xWord i := by
  simp only [State.xWord, State.writeX_x, State.writeX_drawInput, bufferWord_put]
  split <;> rfl

section
variable {s : State} {a : Addr} {i : Nat} {c : Component}

theorem exec_rd_sample (ha : decodeAddr s.nmax a = .sample i c) :
    exec (.rd a) s = .next (s.respond (.okayData (s.xWord (wordOffset i c)))) :=
  exec_rd_of_readTarget_some (by rw [ha]; rfl)

theorem exec_wr_sample (w : Word) (ha : decodeAddr s.nmax a = .sample i c) :
    exec (.wr a w) s = .next ((s.writeX (wordOffset i c) w).respond .okay) :=
  exec_wr_of_writeTarget_some (by rw [ha]; simp) (by rw [ha]; rfl)

end

/-- `offset[0]` selects the component (R36). -/
theorem wordOffset_bool (i : Nat) (b : Bool) : wordOffset i (if b then .im else .re) = 2 * i + b.toNat := by
  cases b <;> rfl

theorem State.xElem_half_bool (s : State) (i : Nat) (b : Bool) :
    (if b then (s.xElem i).im else (s.xElem i).re) = s.xWord (2 * i + b.toNat) := by
  cases b <;> rfl

/-- Settles O23: the address names the half of `X[i]`, and a write of `X` changes the one word it names. -/
theorem xWindowAccess : Obligations.XWindowAccess := by
  unfold Obligations.XWindowAccess
  intro s i b hi a
  have ha : decodeAddr s.nmax a = .sample i (if b then .im else .re) := decodeAddr_sampleAddr _ i b hi (nmax_le s)
  have hrd := exec_rd_sample ha
  rw [wordOffset_bool] at hrd
  refine ⟨⟨_, hrd, ?_, s.sameFftc_respond _⟩, fun w => ?_⟩
  · rw [State.respond_response, s.xElem_half_bool]
  · have hwr := exec_wr_sample w ha
    rw [wordOffset_bool] at hwr
    refine ⟨_, hwr, rfl, ?_, fun off ho => ?_, ?_⟩
    · simp [State.writeX_xWord]
    · simp [State.writeX_xWord, ho]
    · simp [State.sameOperands, State.sameResults, State.sameControl, State.sameY, State.samePort]

/-! The Y window. -/

section
variable {s : State} {a : Addr} {i : Nat} {c : Component}

theorem exec_rd_spectrum_of_lt (ha : decodeAddr s.nmax a = .spectrum i c) (hi : i < s.ylen.toNat) :
    exec (.rd a) s = .next (s.respond (.okayData (s.yWord (wordOffset i c)))) :=
  exec_rd_of_readTarget_some (by rw [ha]; exact if_pos hi)

theorem exec_rd_spectrum_of_le (ha : decodeAddr s.nmax a = .spectrum i c) (hi : s.ylen.toNat ≤ i) :
    exec (.rd a) s = .next s.raiseAccessFault :=
  exec_rd_of_readTarget_none (by rw [ha]; exact if_neg hi.not_gt)

theorem exec_wr_spectrum (d : Word) (ha : decodeAddr s.nmax a = .spectrum i c) :
    exec (.wr a d) s = .next s.raiseAccessFault :=
  exec_wr_of_writeTarget_none (by rw [ha]; simp) (by rw [ha]; rfl)

end

/-- Settles O24: the address names the half of `Y[i]`, which `YLEN` makes readable and no `WR` may write. -/
theorem yWindowAccess : Obligations.YWindowAccess := by
  unfold Obligations.YWindowAccess
  intro s i hi
  have ha (b : Bool) := decodeAddr_spectrumAddr s.nmax i b hi (nmax_le s)
  refine ⟨fun hy => ⟨?_, ?_⟩, fun hy b => ?_, fun b d => ?_⟩
  · exact ⟨_, exec_rd_spectrum_of_lt (ha false) hy, rfl, s.sameFftc_respond _⟩
  · exact ⟨_, exec_rd_spectrum_of_lt (ha true) hy, rfl, s.sameFftc_respond _⟩
  · exact ⟨_, exec_rd_spectrum_of_le (ha b) hy, rfl, s.sameFftc_raiseAccessFault⟩
  · exact ⟨_, exec_wr_spectrum d (ha b), rfl, s.sameFftc_raiseAccessFault⟩

end Sys2Proof.Machine
end

section
/-! PROOFS. The encoding: the fields of a transaction (R50), the illegal command words (R53), and the
pseudo-instructions (R58). -/

namespace Sys2Proof

/-! A transaction as the record of its fields. -/

/-- The three fields take up all 97 bits (R50). -/
theorem packTxn_fields (t : TxnWord) : packTxn (txnWrite t) (txnAddr t) (txnData t) = t := by
  have hwrite : (txnWrite t).toNat = t.toNat / 2 ^ 96 % 2 := by
    rw [txnWrite, BitVec.getLsbD, Nat.toNat_testBit]
  have haddr : (txnAddr t).toNat = t.toNat / 2 ^ 64 % 2 ^ 32 := by
    rw [txnAddr, BitVec.extractLsb'_toNat, Nat.shiftRight_eq_div_pow]
  have hdata : (txnData t).toNat = t.toNat % 2 ^ 64 := by
    rw [txnData, BitVec.extractLsb'_toNat, Nat.shiftRight_zero]
  have hlt := t.isLt
  apply BitVec.eq_of_toNat_eq
  rw [toNat_packTxn, hwrite, haddr, hdata]
  omega

@[simp] theorem decodeTxn_packTxn_rd (a : Addr) (d : Word) : decodeTxn (packTxn false a d) = .rd a := by
  simp [decodeTxn]

theorem decodeTxn_packTxn_wr {a : Addr} (d : Word) (ha : a ≠ cmdAddr) : decodeTxn (packTxn true a d) = .wr a d := by
  simp [decodeTxn, ha]

theorem decodeTxn_packTxn_cmd {d : Word} {i : Instr} (h : decodeCommandWord d = .ok i) :
    decodeTxn (packTxn true cmdAddr d) = i := by
  simp [decodeTxn, h]

/-- Settles O16: the number of a packed record, its fields unpacked and packed again, and the decoder on each record. -/
theorem transactionFieldLayout : Obligations.TransactionFieldLayout := by
  unfold Obligations.TransactionFieldLayout
  refine ⟨fun a d => ?_, fun a => ?_, fun t => (packTxn_fields t).symm, decodeTxn_packTxn_rd,
    fun a d => decodeTxn_packTxn_wr d⟩
  · simp [encode, toNat_packTxn]
  · simp [encode, toNat_packTxn]

end Sys2Proof

namespace Sys2Proof.Machine

/-! The illegal command words. -/

theorem executeCommand_of_illegal {w : Word} (s : State) (hw : w.toNat = 0 ∨ 5 < w.toNat) :
    executeCommand w s = .next (s.raiseCommandError .illegalCommand) := by
  rcases executeCommand_cases w s with ⟨rfl, _⟩ | ⟨rfl, _⟩ | ⟨rfl, _⟩ | ⟨rfl, _⟩ | ⟨rfl, _⟩ | ⟨_, h⟩
  case inr.inr.inr.inr.inr => exact h
  all_goals exact absurd hw (by decide)

/-- The frame of a failing command (R121, R122, R127). -/
theorem State.raiseCommandError_frame (s : State) (e : ErrorCode) :
    let t := s.raiseCommandError e
    s.sameOperands t ∧ s.sameResults t ∧ s.sameControl t ∧ s.sameX t ∧ s.sameY t ∧ s.samePort t := by
  simp [State.sameOperands, State.sameResults, State.sameControl, State.sameX, State.sameY, State.samePort]

/-- Settles O30: an illegal word at `CMD` ends in the command error, whose frame is all but `STATUS` and the answer. -/
theorem illegalCommandWord : Obligations.IllegalCommandWord := by
  unfold Obligations.IllegalCommandWord
  intro s w hw
  exact ⟨_, (exec_wr_cmd s w).trans (executeCommand_of_illegal s hw), rfl, rfl, s.raiseCommandError_frame _⟩

/-! The pseudo-instructions. -/

section
variable {i : Nat}

theorem targetAddr_sample_re (hi : i < 2 ^ 29) :
    targetAddr (.sample i .re) = some (BitVec.ofNat 32 (0x40000000 + 2 * i)) := if_pos hi

theorem targetAddr_sample_im (hi : i < 2 ^ 29) :
    targetAddr (.sample i .im) = some (BitVec.ofNat 32 (0x40000000 + 2 * i + 1)) := if_pos hi

theorem targetAddr_spectrum_re (hi : i < 2 ^ 29) :
    targetAddr (.spectrum i .re) = some (BitVec.ofNat 32 (0x80000000 + 2 * i)) := if_pos hi

theorem targetAddr_spectrum_im (hi : i < 2 ^ 29) :
    targetAddr (.spectrum i .im) = some (BitVec.ofNat 32 (0x80000000 + 2 * i + 1)) := if_pos hi

end

/-- No word of the X region (R32) is `CMD`. -/
theorem sampleAddr_ne_cmdAddr {off : Nat} (ho : off < 2 ^ 30) : BitVec.ofNat 32 (0x40000000 + off) ≠ cmdAddr := by
  intro h
  have ht := congrArg BitVec.toNat h
  rw [BitVec.toNat_ofNat, show cmdAddr.toNat = 1 from rfl] at ht
  omega

theorem map_decodeTxn_wrSymbol_cmd {w : Word} {i : Instr} (h : decodeCommandWord w = .ok i) :
    (wrSymbol .cmd w).map decodeTxn = [i] :=
  congrArg (fun j => [j]) (decodeTxn_packTxn_cmd h)

section
variable {t t' : Target} {a a' : Addr}

theorem map_decodeTxn_wrSymbol (d : Word) (h : targetAddr t = some a) (ha : a ≠ cmdAddr) :
    (wrSymbol t d).map decodeTxn = [.wr a d] := by
  simp [wrSymbol, h, decodeTxn_packTxn_wr d ha]

theorem map_decodeTxn_rdSymbol (h : targetAddr t = some a) : (rdSymbol t).map decodeTxn = [.rd a] := by
  simp [rdSymbol, h]

/-- Two symbols written in order: the shape of `setc` and `setx`. -/
theorem map_decodeTxn_wrSymbol_append (d d' : Word) (h : targetAddr t = some a) (h' : targetAddr t' = some a')
    (ha : a ≠ cmdAddr) (ha' : a' ≠ cmdAddr) :
    (wrSymbol t d ++ wrSymbol t' d').map decodeTxn = [.wr a d, .wr a' d'] := by
  rw [List.map_append, map_decodeTxn_wrSymbol d h ha, map_decodeTxn_wrSymbol d' h' ha']
  rfl

/-- Two symbols read in order: the shape of `getc`, `gety` and `getx`. -/
theorem map_decodeTxn_rdSymbol_append (h : targetAddr t = some a) (h' : targetAddr t' = some a') :
    (rdSymbol t ++ rdSymbol t').map decodeTxn = [.rd a, .rd a'] := by
  rw [List.map_append, map_decodeTxn_rdSymbol h, map_decodeTxn_rdSymbol h']
  rfl

end

/-- `setx` writes the two halves of `X[i]` (R58). -/
theorem map_decodeTxn_setx {i : Nat} (re im : Decimal) (hi : i < 2 ^ 29) :
    (expandPseudo (.setx i re im)).map decodeTxn =
      [.wr (BitVec.ofNat 32 (0x40000000 + 2 * i)) (decimalWord re),
       .wr (BitVec.ofNat 32 (0x40000000 + 2 * i + 1)) (decimalWord im)] :=
  map_decodeTxn_wrSymbol_append _ _ (targetAddr_sample_re hi) (targetAddr_sample_im hi)
    (sampleAddr_ne_cmdAddr (by omega)) (sampleAddr_ne_cmdAddr (off := 2 * i + 1) (by omega))

/-- Settles O19, row by row: a command word, one symbol, or two symbols in order, each at its address. -/
theorem pseudoInstructionsExpand : Obligations.PseudoInstructionsExpand := by
  unfold Obligations.PseudoInstructionsExpand
  refine ⟨?cadd, ?cmul, ?cexp, ?bfly, ?xform, fun re im => ?setca, fun re im => ?setcb, fun re im => ?setcw,
    fun i re im hi => map_decodeTxn_setx re im hi, fun n => ?setlen, ?getca, ?getcb, ?getcw, ?getcr0, ?getcr1,
    fun i hi => ?gety, fun i hi => ?getx⟩
  case cadd | cmul | cexp | bfly | xform => exact map_decodeTxn_wrSymbol_cmd rfl
  case setca | setcb | setcw => exact map_decodeTxn_wrSymbol_append _ _ rfl rfl (by decide) (by decide)
  case setlen => exact map_decodeTxn_wrSymbol _ rfl (by decide)
  case getca | getcb | getcw | getcr0 | getcr1 => exact map_decodeTxn_rdSymbol_append rfl rfl
  case gety => exact map_decodeTxn_rdSymbol_append (targetAddr_spectrum_re hi) (targetAddr_spectrum_im hi)
  case getx => exact map_decodeTxn_rdSymbol_append (targetAddr_sample_re hi) (targetAddr_sample_im hi)

end Sys2Proof.Machine
end

section
/-! PROOFS. The number system: binary64 sum, difference and product (R66 to R68). A difference is the sum with `fneg`, so
what is said of `fadd` carries over to `fsub`. -/

namespace Sys2Proof.Machine

/-! Zeros, `fneg`, and the kinds of words. -/

theorem isZero_fneg (a : Word) : isZero (fneg a) = isZero a := by
  rw [Bool.eq_iff_iff, isZero_iff, isZero_iff, fneg_mod]

theorem fneg_fneg (a : Word) : fneg (fneg a) = a := by
  simp [fneg]

theorem fneg_eq_iff {a b : Word} : fneg a = b ↔ a = fneg b :=
  ⟨fun h => by rw [← h, fneg_fneg], fun h => by rw [h, fneg_fneg]⟩

theorem eq_negZero_iff (a : Word) : a = 0x8000000000000000 ↔ isZero a = true ∧ fsign a = true := by
  refine ⟨by rintro rfl; decide, fun ⟨hz, hs⟩ => word_eq hs ?_⟩
  rw [(isZero_iff a).1 hz]
  rfl

theorem isNaN_of_isInf {a : Word} (h : isInf a = true) : isNaN a = false := by
  rw [isInf_iff] at h
  exact (isNaN_false_iff a).2 h.le

theorem toNat_mod_of_isInf {a : Word} (h : isInf a = true) : a.toNat % 2 ^ 63 = 0x7FF0000000000000 := by
  rw [(isInf_iff a).1 h]
  norm_num

theorem isZero_of_isInf {a : Word} (h : isInf a = true) : isZero a = false := by
  rw [Bool.eq_false_iff, Ne, isZero_iff, toNat_mod_of_isInf h]
  norm_num

/-- An infinity is told from another by its sign alone. -/
theorem eq_of_isInf {a b : Word} (ha : isInf a = true) (hb : isInf b = true) (hs : fsign a = fsign b) : a = b :=
  word_eq hs ((toNat_mod_of_isInf ha).trans (toNat_mod_of_isInf hb).symm)

theorem isInf_or_isFinite {a : Word} (h : isNaN a = false) : isInf a = true ∨ isFinite a = true := by
  rcases word_kinds a with ⟨hn, _⟩ | ⟨_, hi, _⟩ | ⟨_, _, hf⟩
  · rw [hn] at h; cases h
  · exact .inl hi
  · exact .inr hf

theorem natAbs_fval (a : Word) : (fval a).natAbs = fmag a := by
  rw [fval]
  split <;> simp

/-! Sums. -/

theorem fsub_eq_fadd_fneg (r a b : Word) : fsub r a b = fadd r a (fneg b) := by
  simp only [fsub, fadd, isNaN_fneg, isInf_fneg, fsign_fneg, fval_fneg, sub_eq_add_neg]
  cases fsign a <;> cases fsign b <;> rfl

theorem subInvalid_iff_addInvalid_fneg (a b : Word) : subInvalid a b ↔ addInvalid a (fneg b) := by
  simp [subInvalid, addInvalid, isInf_fneg, fsign_fneg]

theorem addInvalid_comm {a b : Word} : addInvalid a b ↔ addInvalid b a :=
  ⟨fun ⟨ha, hb, hs⟩ => ⟨hb, ha, hs.symm⟩, fun ⟨hb, ha, hs⟩ => ⟨ha, hb, hs.symm⟩⟩

section
variable {r a b : Word}

/-- An infinity and a word that is no NaN (R68 b). -/
theorem fadd_inf_left (ha : isInf a = true) (hb : isNaN b = false) (hv : ¬ addInvalid a b) : fadd r a b = a := by
  have hs : (isInf b && fsign a != fsign b) = false := by
    rw [Bool.eq_false_iff]
    exact fun h => hv ⟨ha, by simpa using h⟩
  simp [fadd, isNaN_of_isInf ha, hb, ha, hs]

theorem fadd_inf_right (ha : isInf a = true) (hb : isNaN b = false) (hv : ¬ addInvalid a b) : fadd r b a = a := by
  rcases isInf_or_isFinite hb with hi | hf
  · obtain rfl : b = a := eq_of_isInf hi ha (by simpa [addInvalid, ha, hi, eq_comm] using hv)
    exact fadd_inf_left ha hb hv
  · simp [fadd, isNaN_of_isInf ha, isFinite_kinds b hf, ha]

theorem fsub_inf_left (ha : isInf a = true) (hb : isNaN b = false) (hv : ¬ subInvalid a b) :
    fsub r a b = a := by
  rw [fsub_eq_fadd_fneg]
  exact fadd_inf_left ha ((isNaN_fneg b).trans hb) (mt (subInvalid_iff_addInvalid_fneg a b).2 hv)

theorem fsub_inf_right (ha : isInf a = true) (hb : isNaN b = false) (hv : ¬ subInvalid a b) :
    fsub r b a = fneg a := by
  rw [fsub_eq_fadd_fneg]
  refine fadd_inf_right ((isInf_fneg a).trans ha) hb ?_
  rintro ⟨_, hi, hs⟩
  exact hv ⟨ha, hi, by simpa [fsign_fneg] using hs⟩

/-- In either order a sum is a produced NaN, or one word that is no NaN and does not depend on the draw (R71, R74). -/
theorem fadd_cases (a b : Word) :
    (∀ r, fadd r a b = quietNaN r ∧ fadd r b a = quietNaN r) ∨
    (∃ w, isNaN w = false ∧ ∀ r, fadd r a b = w ∧ fadd r b a = w) := by
  by_cases hv : isNaN a = true ∨ isNaN b = true ∨ addInvalid a b
  · exact .inl fun r => ⟨fadd_nan r a b hv, fadd_nan r b a (by rwa [or_left_comm, addInvalid_comm])⟩
  · right
    obtain ⟨ha, hb, hi⟩ : isNaN a = false ∧ isNaN b = false ∧ ¬ addInvalid a b := by simpa [not_or] using hv
    rcases isInf_or_isFinite ha with hia | hfa
    · exact ⟨a, ha, fun r => ⟨fadd_inf_left hia hb hi, fadd_inf_right hia hb hi⟩⟩
    · rcases isInf_or_isFinite hb with hib | hfb
      · have hi' := mt addInvalid_comm.1 hi
        exact ⟨b, hb, fun r => ⟨fadd_inf_right hib ha hi', fadd_inf_left hib ha hi'⟩⟩
      · refine ⟨_, roundSum_notNaN _ _, fun r => ⟨fadd_fin r a b hfa hfb, ?_⟩⟩
        rw [fadd_fin r b a hfb hfa, add_comm, Bool.and_comm]

/-- A sum that is no NaN depends on the operands alone, in either order (R71, R74). -/
theorem fadd_of_not_nan (r' : Word) (h : isNaN (fadd r a b) = false) :
    fadd r' a b = fadd r a b ∧ fadd r' b a = fadd r a b := by
  rcases fadd_cases a b with hn | ⟨w, _, hw⟩
  · rw [(hn r).1, isNaN_quietNaN] at h; cases h
  · rw [(hw r).1]; exact hw r'

/-- A difference depends on the operands alone, and is the sum with `fneg` (R67 e, R71, R74). -/
theorem fsub_of_not_nan (r' : Word) (h : isNaN (fsub r a b) = false) :
    fsub r' a b = fsub r a b ∧ fadd r' a (fneg b) = fsub r a b := by
  rw [fsub_eq_fadd_fneg] at h
  rw [fsub_eq_fadd_fneg, fsub_eq_fadd_fneg, (fadd_of_not_nan r' h).1]
  exact ⟨rfl, rfl⟩

theorem operands_not_nan_of_fadd (h : isNaN (fadd r a b) = false) : isNaN a = false ∧ isNaN b = false := by
  refine ⟨Bool.eq_false_iff.2 fun ha => ?_, Bool.eq_false_iff.2 fun hb => ?_⟩
  · rw [fadd_nan r a b (.inl ha), isNaN_quietNaN] at h; cases h
  · rw [fadd_nan r a b (.inr (.inl hb)), isNaN_quietNaN] at h; cases h

theorem operands_not_nan_of_fsub (h : isNaN (fsub r a b) = false) : isNaN a = false ∧ isNaN b = false := by
  rw [fsub_eq_fadd_fneg] at h
  rw [← isNaN_fneg b]
  exact operands_not_nan_of_fadd h

end

/-! Products. -/

theorem mulInvalid_comm {a b : Word} : mulInvalid a b ↔ mulInvalid b a := by
  simp [mulInvalid, and_comm, or_comm]

/-- The exact product rounded once, with the exclusive-or of the signs (R66, R67 a). -/
theorem fmul_fin_fval (r : Word) {a b : Word} (ha : isFinite a = true) (hb : isFinite b = true) :
    fmul r a b = withSign (fsign a != fsign b) (roundMag (fval a * fval b).natAbs (2 ^ 1074)) := by
  rw [fmul_fin r a b ha hb, Int.natAbs_mul, natAbs_fval, natAbs_fval]

section
variable {r a b : Word}

/-- An infinity and a word that is no NaN and no zero (R68 b). -/
theorem fmul_inf_left (ha : isInf a = true) (hb : isNaN b = false) (hz : isZero b = false) :
    fmul r a b = withSign (fsign a != fsign b) 0x7FF0000000000000 := by
  simp [fmul, isNaN_of_isInf ha, hb, ha, hz, posInf]

theorem fmul_inf_right (ha : isInf a = true) (hb : isNaN b = false) (hz : isZero b = false) :
    fmul r b a = withSign (fsign a != fsign b) 0x7FF0000000000000 := by
  rw [bne_comm]
  rcases isInf_or_isFinite hb with hi | hf
  · exact fmul_inf_left hi (isNaN_of_isInf ha) (isZero_of_isInf ha)
  · simp [fmul, isNaN_of_isInf ha, isFinite_kinds b hf, ha, hz, posInf]

/-- In either order a product is a produced NaN, or one word that is no NaN, has the exclusive-or of the signs and
does not depend on the draw (R67 a, R71, R74). -/
theorem fmul_cases (a b : Word) :
    (∀ r, fmul r a b = quietNaN r ∧ fmul r b a = quietNaN r) ∨
    (∃ m ≤ 0x7FF * 2 ^ 52, ∀ r, fmul r a b = withSign (fsign a != fsign b) m ∧
      fmul r b a = withSign (fsign a != fsign b) m) := by
  by_cases hv : isNaN a = true ∨ isNaN b = true ∨ mulInvalid a b
  · exact .inl fun r => ⟨fmul_nan r a b hv, fmul_nan r b a (by rwa [or_left_comm, mulInvalid_comm])⟩
  · right
    obtain ⟨ha, hb, hi⟩ : isNaN a = false ∧ isNaN b = false ∧ ¬ mulInvalid a b := by simpa [not_or] using hv
    rcases isInf_or_isFinite ha with hia | hfa
    · have hz : isZero b = false := by simpa using fun h => hi (.inr ⟨hia, h⟩)
      exact ⟨_, by norm_num, fun r => ⟨fmul_inf_left hia hb hz, fmul_inf_right hia hb hz⟩⟩
    · rcases isInf_or_isFinite hb with hib | hfb
      · have hz : isZero a = false := by simpa using fun h => hi (.inl ⟨h, hib⟩)
        rw [bne_comm]
        exact ⟨_, by norm_num, fun r => ⟨fmul_inf_right hib ha hz, fmul_inf_left hib ha hz⟩⟩
      · refine ⟨_, roundMag_le _ _, fun r => ⟨fmul_fin r a b hfa hfb, ?_⟩⟩
        rw [fmul_fin r b a hfb hfa, Nat.mul_comm, bne_comm]

/-- A product that is no NaN depends on the operands alone, in either order (R71, R74). -/
theorem fmul_of_not_nan (r' : Word) (h : isNaN (fmul r a b) = false) :
    fmul r' a b = fmul r a b ∧ fmul r' b a = fmul r a b := by
  rcases fmul_cases a b with hn | ⟨m, _, hm⟩
  · rw [(hn r).1, isNaN_quietNaN] at h; cases h
  · rw [(hm r).1]; exact hm r'

theorem fsign_fmul (h : isNaN (fmul r a b) = false) : fsign (fmul r a b) = (fsign a != fsign b) := by
  rcases fmul_cases a b with hn | ⟨m, hle, hm⟩
  · rw [(hn r).1, isNaN_quietNaN] at h; cases h
  · rw [(hm r).1, fsign_withSign _ _ (by omega)]

end

/-! Rounding to nearest (R66) and overflow (R68 a). -/

theorem roundMag_zero {den : Nat} (hd : 0 < den) : roundMag 0 den = 0 := by
  have h := roundMag_exact 0 den hd (by norm_num)
  rwa [magOf_zero, Nat.zero_mul] at h

theorem roundSum_eq (v : Int) (z : Bool) :
    roundSum v z = withSign (if v = 0 then z else decide (v < 0)) (roundMag v.natAbs 1) := by
  rw [roundSum]
  split
  · next h => rw [h, Int.natAbs_zero, roundMag_zero Nat.one_pos]
  · rfl

/-- A value that does not overflow, rounded under its own sign. -/
theorem withSign_roundMag_nearest {v : Int} {den : Nat} {s : Bool} (hd : 0 < den)
    (hs : v = if s then -(v.natAbs : Int) else v.natAbs) (hv : ¬ overflows v den) :
    isFinite (withSign s (roundMag v.natAbs den)) = true ∧ roundedTo v den (withSign s (roundMag v.natAbs den)) := by
  have hf : isFinite (withSign s (roundMag v.natAbs den)) = true := by
    rw [isFinite_withSign _ _ (roundMag_lt _ _)]
    exact lt_of_le_of_ne (roundMag_le _ _) (mt (overflows_iff_roundMag v den hd).2 hv)
  exact ⟨hf, roundedTo_withSign s v.natAbs den hd hf v hs⟩

theorem roundSum_nearest {v : Int} (z : Bool) (hv : ¬ overflows v 1) :
    isFinite (roundSum v z) = true ∧ roundedTo v 1 (roundSum v z) := by
  rw [roundSum_eq]
  refine withSign_roundMag_nearest Nat.one_pos ?_ hv
  rcases lt_trichotomy v 0 with h | rfl | h
  · simp [h, h.ne, abs_of_neg]
  · simp
  · simp [h.not_gt, h.ne', abs_of_pos, h]

theorem roundMag_of_overflows {v : Int} {den : Nat} (hd : 0 < den) (hv : overflows v den) :
    roundMag v.natAbs den = 0x7FF0000000000000 := by
  rw [(overflows_iff_roundMag v den hd).1 hv]
  norm_num

theorem roundSum_overflow {v : Int} (z : Bool) (hv : overflows v 1) :
    roundSum v z = withSign (decide (v < 0)) 0x7FF0000000000000 := by
  have hr := roundMag_of_overflows Nat.one_pos hv
  have h0 : v ≠ 0 := by
    rintro rfl
    rw [Int.natAbs_zero, roundMag_zero Nat.one_pos] at hr
    norm_num at hr
  rw [roundSum_eq, if_neg h0, hr]

section
variable {r a b : Word} (ha : isFinite a = true) (hb : isFinite b = true)
include ha hb

theorem fadd_nearest (hv : ¬ overflows (fval a + fval b) 1) :
    isFinite (fadd r a b) = true ∧ roundedTo (fval a + fval b) 1 (fadd r a b) := by
  rw [fadd_fin r a b ha hb]
  exact roundSum_nearest _ hv

theorem fsub_nearest (hv : ¬ overflows (fval a - fval b) 1) :
    isFinite (fsub r a b) = true ∧ roundedTo (fval a - fval b) 1 (fsub r a b) := by
  rw [fsub_fin r a b ha hb]
  exact roundSum_nearest _ hv

theorem fmul_nearest (hv : ¬ overflows (fval a * fval b) (2 ^ 1074)) :
    isFinite (fmul r a b) = true ∧ roundedTo (fval a * fval b) (2 ^ 1074) (fmul r a b) := by
  rw [fmul_fin_fval r ha hb]
  refine withSign_roundMag_nearest (Nat.two_pow_pos 1074) ?_ hv
  rw [Int.natAbs_mul, natAbs_fval, natAbs_fval]
  exact fval_mul a b

theorem fadd_overflow (hv : overflows (fval a + fval b) 1) :
    fadd r a b = withSign (decide (fval a + fval b < 0)) 0x7FF0000000000000 := by
  rw [fadd_fin r a b ha hb, roundSum_overflow _ hv]

theorem fsub_overflow (hv : overflows (fval a - fval b) 1) :
    fsub r a b = withSign (decide (fval a - fval b < 0)) 0x7FF0000000000000 := by
  rw [fsub_fin r a b ha hb, roundSum_overflow _ hv]

theorem fmul_overflow (hv : overflows (fval a * fval b) (2 ^ 1074)) :
    fmul r a b = withSign (fsign a != fsign b) 0x7FF0000000000000 := by
  rw [fmul_fin_fval r ha hb, roundMag_of_overflows (Nat.two_pow_pos 1074) hv]

end

/-- Settles O42, operation by operation: each rounds its exact result once. -/
theorem arithmeticRoundsToNearestEven : Obligations.ArithmeticRoundsToNearestEven := by
  unfold Obligations.ArithmeticRoundsToNearestEven
  exact fun r a b ha hb => ⟨fadd_nearest ha hb, fsub_nearest ha hb, fmul_nearest ha hb⟩

/-- Settles O44: overflow by the rounded magnitude, an infinite operand by the kind of the other one, an invalid
operation by the NaN it draws. -/
theorem infinityOverflowAndInvalid : Obligations.InfinityOverflowAndInvalid := by
  unfold Obligations.InfinityOverflowAndInvalid
  refine ⟨fun r a b ha hb => ?overflow, fun r a b ha hb hv => ?sum, fun r a b ha hb hv => ?difference,
    fun r a b ha hb hz => ?product, fun r a b => ?invalid⟩
  case overflow => exact ⟨fadd_overflow ha hb, fsub_overflow ha hb, fmul_overflow ha hb⟩
  case sum => exact ⟨fadd_inf_left ha hb hv, fadd_inf_right ha hb hv⟩
  case difference => exact ⟨fsub_inf_left ha hb hv, fsub_inf_right ha hb hv⟩
  case product => exact ⟨fmul_inf_left ha hb hz, fmul_inf_right ha hb hz⟩
  case invalid =>
    refine ⟨fun h => ?_, fun h => ?_, fun h => ?_⟩
    · rw [fadd_nan r a b (.inr (.inr h)), isNaN_quietNaN]
    · rw [fsub_nan r a b (.inr (.inr h)), isNaN_quietNaN]
    · rw [fmul_nan r a b (.inr (.inr h)), isNaN_quietNaN]

/-! Zeros and signs (R67). -/

section
variable {r a b x z : Word}

theorem fadd_of_sum_zero (ha : isFinite a = true) (hb : isFinite b = true) (h : fval a + fval b = 0) :
    fadd r a b = if a = 0x8000000000000000 ∧ b = 0x8000000000000000 then 0x8000000000000000 else 0 := by
  have hiff : (fsign a && fsign b) = true ↔ a = 0x8000000000000000 ∧ b = 0x8000000000000000 := by
    rw [Bool.and_eq_true, eq_negZero_iff, eq_negZero_iff]
    refine ⟨fun ⟨hsa, hsb⟩ => ?_, fun ⟨ha, hb⟩ => ⟨ha.2, hb.2⟩⟩
    rw [← fval_eq_zero, ← fval_eq_zero]
    simp only [fval, hsa, hsb, if_true] at h ⊢
    exact ⟨⟨by omega, trivial⟩, by omega, trivial⟩
  rw [fadd_fin r a b ha hb, roundSum, if_pos h]
  split
  · next hz => rw [hiff.2 hz]; rfl
  · next hz => rw [Bool.eq_false_iff.2 (mt hiff.1 hz)]; rfl

theorem fsub_of_difference_zero (ha : isFinite a = true) (hb : isFinite b = true) (h : fval a - fval b = 0) :
    fsub r a b = if a = 0x8000000000000000 ∧ b = 0x0000000000000000 then 0x8000000000000000 else 0 := by
  have hneg : fneg 0x8000000000000000 = 0 := by decide
  rw [fsub_eq_fadd_fneg, fadd_of_sum_zero ha ((isFinite_fneg b).trans hb) (by rw [fval_fneg]; omega)]
  simp only [fneg_eq_iff, hneg]

/-- A zero added to a word that is neither a NaN nor a zero (R67 c). -/
theorem fadd_zero_right (hz : isZero z = true) (hx : isZero x = false) (hn : isNaN x = false) : fadd r x z = x := by
  have hzf := isZero_fin hz
  rcases isInf_or_isFinite hn with hi | hf
  · exact fadd_inf_left hi (isFinite_kinds z hzf).1 fun ⟨_, hzi, _⟩ => by
      rw [isZero_of_isInf hzi] at hz; cases hz
  · rw [fadd_fin r x z hf hzf, (fval_eq_zero z).2 hz, add_zero, roundSum_exact x _ hf hx]

theorem fsub_zero_right (hz : isZero z = true) (hx : isZero x = false) (hn : isNaN x = false) : fsub r x z = x := by
  rw [fsub_eq_fadd_fneg, fadd_zero_right ((isZero_fneg z).trans hz) hx hn]

/-- Multiplying by a number of magnitude one changes no magnitude (R67 d). -/
theorem fmul_unit_left {u : Word} (huf : isFinite u = true) (hu : fmag u = 2 ^ 1074) (hn : isNaN x = false) :
    fmul r u x = withSign (fsign u != fsign x) (x.toNat % 2 ^ 63) := by
  have huz : isZero u = false := by
    rw [Bool.eq_false_iff, Ne, ← fmag_eq_zero, hu]
    exact (Nat.two_pow_pos 1074).ne'
  rcases isInf_or_isFinite hn with hi | hf
  · rw [fmul_inf_right hi (isFinite_kinds u huf).1 huz, bne_comm, toNat_mod_of_isInf hi]
  · rw [fmul_fin r u x huf hf, hu, fmag_eq_magOf x, Nat.mul_comm,
      roundMag_exact _ _ (Nat.two_pow_pos 1074) ((isFinite_iff x).1 hf).le]

theorem fmag_one : fmag 0x3FF0000000000000 = 2 ^ 1074 := by decide +kernel

theorem fmag_negOne : fmag 0xBFF0000000000000 = 2 ^ 1074 := by decide +kernel

theorem fmul_one_left (hn : isNaN x = false) : fmul r 0x3FF0000000000000 x = x := by
  rw [fmul_unit_left (by decide) fmag_one hn, show fsign 0x3FF0000000000000 = false from rfl, Bool.false_bne]
  exact (eq_withSign x).symm

theorem fmul_negOne_left (hn : isNaN x = false) : fmul r 0xBFF0000000000000 x = fneg x := by
  rw [fmul_unit_left (by decide) fmag_negOne hn, show fsign 0xBFF0000000000000 = true from rfl, Bool.true_bne]
  exact (fneg_eq x).symm

end

/-- Settles O43, clause by clause; (e) holds since a difference is the sum with `fneg`, up to the draw of a NaN. -/
theorem signedZeroRules : Obligations.SignedZeroRules := by
  unfold Obligations.SignedZeroRules
  refine ⟨fun r a b h => fsign_fmul h, fun r a b ha hb => ?_, fun r x z hz hx hn => ?_, fun r x hn => ?_,
    fun r r' a b h => ?_, fun r r' a b h => ?_⟩
  · exact ⟨fadd_of_sum_zero ha hb, fsub_of_difference_zero ha hb⟩
  · exact ⟨fadd_zero_right hz hx hn, fsub_zero_right hz hx hn⟩
  · exact ⟨fmul_one_left hn, fmul_negOne_left hn⟩
  · exact (fsub_of_not_nan r' h).2
  · rw [fsub_eq_fadd_fneg]
    exact (fadd_of_not_nan r h).1

end Sys2Proof.Machine
end

section
/-! PROOFS. `COS`, `SIN` and `EXPF`: the named properties P1 to P4 (R72). -/

namespace Sys2Proof.Machine

section
variable {r a : Word}

/-! P1 and P2: NaNs, infinities, zeros. -/

theorem fcos_of_nan_or_inf (h : (isNaN a || isInf a) = true) : fcos r a = quietNaN r := if_pos h

theorem fsin_of_nan_or_inf (h : (isNaN a || isInf a) = true) : fsin r a = quietNaN r := if_pos h

theorem fexpf_of_isNaN (h : isNaN a = true) : fexpf r a = quietNaN r := if_pos h

theorem fcos_of_isZero (h : isZero a = true) : fcos r a = fone := by
  simp [fcos, isFinite_kinds a (isZero_fin h), h]

theorem fsin_of_isZero (h : isZero a = true) : fsin r a = a := by
  simp [fsin, isFinite_kinds a (isZero_fin h), h]

theorem fexpf_of_isZero (h : isZero a = true) : fexpf r a = fone := by
  simp [fexpf, isFinite_kinds a (isZero_fin h), h]

/-! P3: the ranges. -/

/-- Bits 62:0 up to those of 1.0 are a magnitude up to 1.0. -/
theorem fmag_le_one {w : Word} (h : w.toNat % 2 ^ 63 ≤ 0x3FF0000000000000) :
    isFinite w = true ∧ fmag w ≤ fmag 0x3FF0000000000000 := by
  refine ⟨(isFinite_iff w).2 (lt_of_le_of_lt h (by norm_num)), ?_⟩
  rw [fmag_eq_magOf, fmag_eq_magOf]
  exact magOf_strictMono.monotone h

theorem clampNonneg_range (w : Word) : isNaN (clampNonneg w) = false ∧ fsign (clampNonneg w) = false := by
  unfold clampNonneg
  split
  · exact ⟨rfl, rfl⟩
  · next h =>
    rw [Bool.not_eq_true, isNaN_false_iff] at h
    exact ⟨roundMag_notNaN _ _ h, fsign_withSign _ _ (toNat_mod w)⟩

theorem fexpf_range (h : isNaN a = false) : isNaN (fexpf r a) = false ∧ fsign (fexpf r a) = false := by
  rw [fexpf, if_neg (by simp [h])]
  split
  · split <;> exact ⟨rfl, rfl⟩
  · split
    · exact ⟨rfl, rfl⟩
    · exact clampNonneg_range _

/-! P4: the reference points. -/

theorem fcos_fsin_of_trigRow {c s : Word} (hf : isFinite a = true) (hz : isZero a = false)
    (h : trigRow a trigTable = some (c, s)) : fcos r a = c ∧ fsin r a = s := by
  simp [fcos, fsin, isFinite_kinds a hf, hz, h]

/-! The draw matters for NaN results only. -/

theorem fcos_draw (r' : Word) (h : isFinite a = true) : fcos r a = fcos r' a := by
  simp only [fcos, isFinite_kinds a h, Bool.or_self, Bool.false_eq_true, if_false]

theorem fsin_draw (r' : Word) (h : isFinite a = true) : fsin r a = fsin r' a := by
  simp only [fsin, isFinite_kinds a h, Bool.or_self, Bool.false_eq_true, if_false]

theorem fexpf_draw (r' : Word) (h : isNaN a = false) : fexpf r a = fexpf r' a := by
  simp only [fexpf, h, Bool.false_eq_true, if_false]

end

/-- Settles O46, property by property; each reference point is its row of the table. -/
theorem transcendentalNamedProperties : Obligations.TranscendentalNamedProperties := by
  unfold Obligations.TranscendentalNamedProperties
  refine ⟨fun r a h => ?nan, fun r a h => ?inf, fun r => ⟨rfl, rfl⟩, fun r => ?zero, fun r a h => ?unit,
    fun r a h => fexpf_range h, fun r => ?points, fun r r' a => ?draw⟩
  case nan =>
    have hn : (isNaN a || isInf a) = true := by rw [h, Bool.true_or]
    rw [fcos_of_nan_or_inf hn, fsin_of_nan_or_inf hn, fexpf_of_isNaN h]
    exact ⟨isQuiet_quietNaN r, isQuiet_quietNaN r, isQuiet_quietNaN r⟩
  case inf =>
    have hi : (isNaN a || isInf a) = true := by rw [h, Bool.or_true]
    rw [fcos_of_nan_or_inf hi, fsin_of_nan_or_inf hi]
    exact ⟨isQuiet_quietNaN r, isQuiet_quietNaN r⟩
  case zero =>
    exact ⟨fcos_of_isZero rfl, fcos_of_isZero rfl, fsin_of_isZero rfl, fsin_of_isZero rfl, fexpf_of_isZero rfl,
      fexpf_of_isZero rfl⟩
  case unit =>
    obtain ⟨hcf, hc⟩ := fmag_le_one (fcos_range r a h)
    obtain ⟨hsf, hs⟩ := fmag_le_one (fsin_range r a h)
    exact ⟨hcf, hc, hsf, hs⟩
  case points => refine ⟨?_, ?_, ?_, ?_, ?_, ?_, ?_, ?_⟩ <;> exact fcos_fsin_of_trigRow rfl rfl rfl
  case draw => exact ⟨fun h => ⟨fcos_draw r' h, fsin_draw r' h⟩, fun h => fexpf_draw r' h⟩

end Sys2Proof.Machine
end

section
/-! PROOFS. The laws of the complex functions, and those that do not hold in general (R82). -/

namespace Sys2Proof.Machine

section
variable {d : Draw} {a b : ComplexValue}

/-! Commutation, and the difference as a sum, when no NaN is produced. -/

theorem cadd_comm_of_noNaN (d' : Draw) (h : noNaN (cadd d a b)) : cadd d' b a = cadd d a b := by
  obtain ⟨hre, him⟩ := h
  exact congrArg₂ ComplexValue.mk (fadd_of_not_nan _ hre).2 (fadd_of_not_nan _ him).2

theorem cadd_cneg_of_noNaN (d' : Draw) (h : noNaN (csub d a b)) : cadd d' a (cneg b) = csub d a b := by
  obtain ⟨hre, him⟩ := h
  exact congrArg₂ ComplexValue.mk (fsub_of_not_nan _ hre).2 (fsub_of_not_nan _ him).2

/-- The products commute one by one, and the sum of the imaginary half with them. -/
theorem cmul_comm_of_noNaN (d' : Draw) (h : noNaN (cmul d a b)) : cmul d' b a = cmul d a b := by
  obtain ⟨hre, him⟩ := h
  obtain ⟨h1, h2⟩ := operands_not_nan_of_fsub hre
  obtain ⟨h3, h4⟩ := operands_not_nan_of_fadd him
  simp only [cmul] at hre him ⊢
  rw [(fmul_of_not_nan (d' [0]) h1).2, (fmul_of_not_nan (d' [1]) h2).2, (fmul_of_not_nan (d' [3]) h3).2,
    (fmul_of_not_nan (d' [2]) h4).2, (fsub_of_not_nan (d' [4]) hre).1, (fadd_of_not_nan (d' [5]) him).2]

end

/-! Neutral elements. -/

section
variable {r x z : Word}

theorem numericallyEqual_refl (hx : isFinite x = true) : numericallyEqual x x := ⟨hx, hx, rfl⟩

theorem numericallyEqual_of_isZero (hx : isZero x = true) (hz : isZero z = true) : numericallyEqual x z :=
  ⟨isZero_fin hx, isZero_fin hz, by rw [(fval_eq_zero x).2 hx, (fval_eq_zero z).2 hz]⟩

theorem isZero_withSign_zero (s : Bool) : isZero (withSign s 0) = true := by
  cases s <;> rfl

theorem fadd_zero_numericallyEqual (hx : isFinite x = true) (hz : isZero z = true) :
    numericallyEqual (fadd r x z) x := by
  cases hzx : isZero x with
  | false =>
    rw [fadd_zero_right hz hzx (isFinite_kinds x hx).1]
    exact numericallyEqual_refl hx
  | true =>
    refine numericallyEqual_of_isZero ?_ hzx
    rw [fadd_fin r x z hx (isZero_fin hz), (fval_eq_zero x).2 hzx, (fval_eq_zero z).2 hz]
    exact isZero_withSign_zero _

theorem fsub_zero_numericallyEqual (hx : isFinite x = true) (hz : isZero z = true) :
    numericallyEqual (fsub r x z) x := by
  rw [fsub_eq_fadd_fneg]
  exact fadd_zero_numericallyEqual hx ((isZero_fneg z).trans hz)

theorem fmul_zero_left (hz : isZero z = true) (hx : isFinite x = true) : isZero (fmul r z x) = true := by
  rw [fmul_fin r z x (isZero_fin hz) hx, (fmag_eq_zero z).2 hz, Nat.zero_mul, roundMag_zero (Nat.two_pow_pos 1074)]
  exact isZero_withSign_zero _

end

theorem cadd_zero_numericallyEqual {d : Draw} {a : ComplexValue} (h : bothFinite a) :
    numericallyEqual (cadd d a ⟨0, 0⟩).re a.re ∧ numericallyEqual (cadd d a ⟨0, 0⟩).im a.im :=
  ⟨fadd_zero_numericallyEqual h.1 rfl, fadd_zero_numericallyEqual h.2 rfl⟩

theorem cmul_one_numericallyEqual {d : Draw} {b : ComplexValue} (h : bothFinite b) :
    numericallyEqual (cmul d ⟨0x3FF0000000000000, 0⟩ b).re b.re ∧
    numericallyEqual (cmul d ⟨0x3FF0000000000000, 0⟩ b).im b.im := by
  obtain ⟨hre, him⟩ := h
  simp only [cmul, fmul_one_left (isFinite_kinds _ hre).1, fmul_one_left (isFinite_kinds _ him).1]
  exact ⟨fsub_zero_numericallyEqual hre (fmul_zero_left rfl him),
    fadd_zero_numericallyEqual him (fmul_zero_left rfl hre)⟩

/-! Laws that fail, each at operands where it does. -/

/-- `(1 + 2^53) - 2^53` is 0, since the first sum is a tie; `1 + (2^53 - 2^53)` is 1. -/
theorem exists_cadd_not_assoc :
    ∃ (d : Draw) (a b c : ComplexValue), noNaN (cadd d (cadd d a b) c) ∧ noNaN (cadd d a (cadd d b c)) ∧
      cadd d (cadd d a b) c ≠ cadd d a (cadd d b c) := by
  refine ⟨fun _ => 0, ⟨0x3FF0000000000000, 0⟩, ⟨0x4340000000000000, 0⟩, ⟨0xC340000000000000, 0⟩, ?_⟩
  unfold noNaN
  decide +kernel

/-- Half the smallest subnormal rounds to 0, so halving it and doubling the result loses it. -/
theorem exists_cmul_not_assoc :
    ∃ (d : Draw) (a b c : ComplexValue), noNaN (cmul d (cmul d a b) c) ∧ noNaN (cmul d a (cmul d b c)) ∧
      cmul d (cmul d a b) c ≠ cmul d a (cmul d b c) := by
  refine ⟨fun _ => 0, ⟨1, 0⟩, ⟨0x3FE0000000000000, 0⟩, ⟨0x4000000000000000, 0⟩, ?_⟩
  unfold noNaN
  decide +kernel

/-- The smallest subnormal times `0.5 + 0.5` is itself; the two halves of it round to 0. -/
theorem exists_cmul_not_distrib :
    ∃ (d : Draw) (a b c : ComplexValue), noNaN (cmul d a (cadd d b c)) ∧ noNaN (cadd d (cmul d a b) (cmul d a c)) ∧
      cmul d a (cadd d b c) ≠ cadd d (cmul d a b) (cmul d a c) := by
  refine ⟨fun _ => 0, ⟨1, 0⟩, ⟨0x3FE0000000000000, 0⟩, ⟨0x3FE0000000000000, 0⟩, ?_⟩
  unfold noNaN
  decide +kernel

/-- `(1 + 2^-52)^2 - (1 + 2^-51)` is `2^-104`; its first product is rounded to `1 + 2^-51`, and the difference is 0. -/
theorem exists_cmul_not_roundedTo :
    ∃ (d : Draw) (a b : ComplexValue), bothFinite (cmul d a b) ∧
      ¬ roundedTo (fval a.re * fval b.re - fval a.im * fval b.im) (2 ^ 1074) (cmul d a b).re := by
  refine ⟨fun _ => 0, ⟨0x3FF0000000000001, 0x3FF0000000000002⟩, ⟨0x3FF0000000000001, 0x3FF0000000000000⟩,
    ⟨by decide +kernel, by decide +kernel⟩, fun h => ?_⟩
  have hnear := (h 0x3970000000000000 (by decide)).1
  revert hnear
  decide +kernel

/-- At the reference point `-pi/4` of P4 the squares of the two results do not add up to 1. -/
theorem exists_cexp_not_unit :
    ∃ (d : Draw) (t : Word), isFinite t = true ∧
      fval (cexp d ⟨0, t⟩).re ^ 2 + fval (cexp d ⟨0, t⟩).im ^ 2 ≠ (2 ^ 1074) ^ 2 := by
  refine ⟨fun _ => 0, 0xBFE921FB54442D18, ?_⟩
  decide +kernel

/-- Settles O47: five laws, each from the same law of the halves, and five counterexamples. -/
theorem complexLaws : Obligations.ComplexLaws := by
  unfold Obligations.ComplexLaws
  exact ⟨fun d d' a b h => cadd_comm_of_noNaN d' h, fun d d' a b h => cmul_comm_of_noNaN d' h,
    fun d d' a b h => cadd_cneg_of_noNaN d' h, fun d a h => cadd_zero_numericallyEqual h,
    fun d b h => cmul_one_numericallyEqual h, exists_cadd_not_assoc, exists_cmul_not_assoc, exists_cmul_not_distrib,
    exists_cmul_not_roundedTo, exists_cexp_not_unit⟩

end Sys2Proof.Machine
end

section
/-! PROOFS. The commands CADD, CMUL, CEXP: the result in `CR0` and the frame (R79 to R81). -/

namespace Sys2Proof.Machine

/-- What a command that writes `CR0` alone leaves behind and leaves unchanged (R79 to R81). -/
theorem State.writeCr0_finishCommand_frame (s : State) (z : ComplexValue) :
    let t := (s.writeCr0 z).finishCommand
    t.succeeded ∧ t.cr1 = s.cr1 ∧ s.sameOperands t ∧ s.sameControl t ∧ s.sameX t ∧ s.sameY t ∧ s.samePort t := by
  refine ⟨⟨rfl, rfl⟩, rfl, ?_⟩
  simp [State.sameOperands, State.sameControl, State.sameX, State.sameY, State.samePort]

/-- Settles O31: `cadd` of `CA` and `CB` with the draws of this transaction, by their places. -/
theorem caddResult : Obligations.CaddResult := by
  unfold Obligations.CaddResult
  refine ⟨by decide, fun s => ⟨_, rfl, ⟨fun i => s.draw [i], rfl⟩, ?_⟩⟩
  exact s.writeCr0_finishCommand_frame _

/-- Settles O32: `cmul` of `CA` and `CB` with the draws of this transaction, by their places. -/
theorem cmulResult : Obligations.CmulResult := by
  unfold Obligations.CmulResult
  refine ⟨by decide, fun s => ⟨_, rfl, ⟨fun i => s.draw [i], rfl⟩, ?_⟩⟩
  exact s.writeCr0_finishCommand_frame _

/-- Settles O33: `cexp` of `CA` with the draws of this transaction, by their places. -/
theorem cexpResult : Obligations.CexpResult := by
  unfold Obligations.CexpResult
  refine ⟨by decide, fun s => ⟨_, rfl, ⟨fun i => s.draw [i], rfl⟩, ?_⟩⟩
  exact s.writeCr0_finishCommand_frame _

end Sys2Proof.Machine
end

section
/-! PROOFS. The FFT engine: the valid lengths (R90), and the commands BFLY (R100) and XFORM (R101, R102). -/

namespace Sys2Proof.Machine

/-! The valid lengths. -/

/-- R90: below or at `NMAX = 2^l` a valid length is a power of two, and its exponent is then at most `l`. -/
theorem validLen_iff (l n : Nat) : validLen (2 ^ l) n = true ↔ ∃ p, p ≤ l ∧ n = 2 ^ p := by
  have hpow : n ≠ 0 ∧ n &&& (n - 1) = 0 ↔ ∃ p, n = 2 ^ p := Nat.ne_zero_and_sub_one_eq_zero_iff_isPowerOfTwo
  simp only [validLen, Bool.and_eq_true, decide_eq_true_eq, beq_iff_eq, Nat.one_le_iff_ne_zero, hpow]
  constructor
  · rintro ⟨⟨p, rfl⟩, hle⟩
    exact ⟨p, (Nat.pow_le_pow_iff_right Nat.one_lt_two).1 hle, rfl⟩
  · rintro ⟨p, hp, rfl⟩
    exact ⟨⟨p, rfl⟩, Nat.pow_le_pow_right Nat.two_pos hp⟩

/-- Settles O41, by the library's fact that `n & (n - 1)` is 0 for the powers of two among the positive numbers. -/
theorem validLengthsArePowersOfTwo : Obligations.ValidLengthsArePowersOfTwo := by
  unfold Obligations.ValidLengthsArePowersOfTwo
  exact validLen_iff

/-! BFLY. -/

/-- The ten draws of a butterfly by number: those of the product, then two of the sum and two of the difference. -/
def bflyDraw (d : Draw) : Nat → Word
  | 6 => d [1, 0]
  | 7 => d [1, 1]
  | 8 => d [2, 0]
  | 9 => d [2, 1]
  | i => d [0, i]

/-- Settles O34: `bfly` computes the product of `CW` and `CB` once; every draw of this transaction by its place. -/
theorem bflyResult : Obligations.BflyResult := by
  unfold Obligations.BflyResult
  refine ⟨by decide, fun s => ⟨_, rfl, ⟨bflyDraw s.draw, cmul (drawSub s.draw 0) s.cw s.cb, rfl, rfl, rfl, rfl⟩,
    ⟨rfl, rfl⟩, ?_⟩⟩
  simp [State.sameOperands, State.sameControl, State.sameX, State.sameY, State.samePort]

/-! XFORM. -/

theorem exec_xform_of_valid {s : State} (h : validLen s.nmax s.len.toNat = true) :
    exec .xform s = .next (s.writeSpectrum s.len (s.spectrum s.len.toNat)).finishCommand := by
  rw [exec, execXform, if_pos h]

theorem exec_xform_of_invalid {s : State} (h : ¬ validLen s.nmax s.len.toNat = true) :
    exec .xform s = .next (s.raiseCommandError .invalidLength) := by
  rw [exec, execXform, if_neg h]

/-- Settles O36: such a length is not valid, and the command error has the frame of every failing command. -/
theorem xformInvalidLength : Obligations.XformInvalidLength := by
  unfold Obligations.XformInvalidLength
  intro s h
  exact ⟨_, exec_xform_of_invalid (mt (validLen_iff _ _).1 h), rfl, rfl, s.raiseCommandError_frame _⟩

theorem fft_length (d : Draw) {p : Nat} {x : List ComplexValue} (h : x.length = 2 ^ p) : (fft d p x).length = 2 ^ p :=
  fftWith_length _ p 1 0 x h

theorem State.samples_length (s : State) (n : Nat) : (s.samples n).length = n := by
  simp [State.samples]

theorem State.spectrum_two_pow (s : State) (p : Nat) : s.spectrum (2 ^ p) = fft s.draw p (s.samples (2 ^ p)) := by
  rw [State.spectrum, Nat.log2_two_pow]

theorem State.spectrum_length (s : State) (p : Nat) : (s.spectrum (2 ^ p)).length = 2 ^ p := by
  rw [s.spectrum_two_pow, fft_length _ (s.samples_length _)]

section
variable (s : State) (n : Word) (out : List ComplexValue)

theorem State.writeSpectrum_yElem {k : Nat} (h : k < out.length) : (s.writeSpectrum n out).yElem k = out[k] := by
  have hre := bufferWord_putSeq_re s.y 0 k out h
  have him := bufferWord_putSeq_im s.y 0 k out h
  rw [Nat.zero_add] at hre him
  simp [State.yElem, State.yWord, hre, him]

/-- A spectrum leaves the words of `Y` behind it as they are (R101). -/
theorem State.writeSpectrum_yWord_of_le {off : Nat} (h : 2 * out.length ≤ off) :
    (s.writeSpectrum n out).yWord off = s.yWord off := by
  have hother := bufferWord_putSeq_other s.y 0 off out (.inr (by omega))
  simp [State.yWord, hother]

end

/-- Settles O35: the length is valid, and the `2^p` elements of the spectrum are what `Y[0 .. n]` then holds. -/
theorem xformResult : Obligations.XformResult := by
  unfold Obligations.XformResult
  refine ⟨by decide, fun s p hp hlen => ?_⟩
  have hout := s.spectrum_length p
  have hexec := exec_xform_of_valid ((validLen_iff _ _).2 ⟨p, hp, hlen⟩)
  rw [hlen] at hexec
  refine ⟨_, hexec, ⟨s.draw, fun k hk => ?element⟩, rfl, fun off ho => ?rest, ⟨rfl, rfl⟩, ?frame⟩
  case element =>
    rw [← hout] at hk
    have hy : (s.writeSpectrum s.len (s.spectrum (2 ^ p))).finishCommand.yElem k = (s.spectrum (2 ^ p))[k] :=
      s.writeSpectrum_yElem s.len _ hk
    rw [hy, ← List.getElem?_eq_getElem hk, s.spectrum_two_pow, State.samples]
  case rest =>
    rw [← hout] at ho
    exact s.writeSpectrum_yWord_of_le s.len _ ho
  case frame => simp [State.sameOperands, State.sameResults, State.sameControl, State.sameX, State.samePort]

end Sys2Proof.Machine
end

section
/-! PROOFS. The twiddle factor (R92): the angle (R91) is a finite number, so `cexp` of it is its cosine and sine. -/

namespace Sys2Proof.Machine

/-! The angle. -/

/-- The angle depends on `k/n` alone (R91). -/
theorem theta_double (k m : Nat) : theta (2 * k) (m + 1) = theta k m := by
  rw [theta_eq, theta_eq, Nat.mul_left_comm, Nat.mul_comm 2, Nat.pow_succ, roundMag_scale _ _ _ Nat.two_pos]

/-- Below `k = n` the exact angle is below `TWO_PI`, so no rounding carries it beyond the finite numbers. -/
theorem isFinite_theta {k m : Nat} (hk : k < 2 ^ m) : isFinite (theta k m) = true := by
  have hle : fmag 0x401921FB54442D18 * k ≤ magOf 0x401921FB54442D18 * 2 ^ m := by
    rw [fmag_eq_magOf]
    exact Nat.mul_le_mul_left _ hk.le
  have hround := roundMag_le_of_le _ _ _ (Nat.two_pow_pos m) hle
  rw [theta_eq, isFinite_withSign _ _ (roundMag_lt _ _)]
  omega

theorem theta_quarter : theta 1 2 = 0xBFF921FB54442D18 := by decide +kernel

theorem theta_eighth : theta 1 3 = 0xBFE921FB54442D18 := by decide +kernel

theorem theta_three_eighths : theta 3 3 = 0xC002D97C7F3321D2 := by decide +kernel

/-! `cexp` of an imaginary number. -/

theorem isNaN_fcos_of_isFinite (r : Word) {a : Word} (h : isFinite a = true) : isNaN (fcos r a) = false :=
  (isFinite_kinds _ (fmag_le_one (fcos_range r a h)).1).1

theorem isNaN_fsin_of_isFinite (r : Word) {a : Word} (h : isFinite a = true) : isNaN (fsin r a) = false :=
  (isFinite_kinds _ (fmag_le_one (fsin_range r a h)).1).1

/-- `EXPF` of a zero is 1.0, and 1.0 times a word that is no NaN is that word (R78). -/
theorem cexp_of_isZero_re (d : Draw) (r : Word) {z : ComplexValue} (hre : isZero z.re = true)
    (him : isFinite z.im = true) : cexp d z = ⟨fcos r z.im, fsin r z.im⟩ := by
  have hone : fexpf (d [0]) z.re = 0x3FF0000000000000 := fexpf_of_isZero hre
  simp only [cexp, hone, fmul_one_left (isNaN_fcos_of_isFinite _ him), fmul_one_left (isNaN_fsin_of_isFinite _ him)]
  rw [fcos_draw r him, fsin_draw r him]

/-! The factor. -/

/-- R92, whatever the draws. -/
theorem twiddle_eq (d : Draw) (r : Word) {k m : Nat} (hk : k < 2 ^ m) :
    twiddle d k m = ⟨fcos r (theta k m), fsin r (theta k m)⟩ :=
  cexp_of_isZero_re d r (show isZero posZero = true from rfl) (isFinite_theta hk)

theorem twiddle_zero (d : Draw) (m : Nat) : twiddle d 0 m = ⟨0x3FF0000000000000, 0x8000000000000000⟩ := by
  rw [twiddle_eq d 0 (Nat.two_pow_pos m), theta_zero, fcos_of_isZero rfl, fsin_of_isZero rfl]
  rfl

theorem twiddle_quarter (d : Draw) : twiddle d 1 2 = ⟨0x3C91A62633145C07, 0xBFF0000000000000⟩ := by
  rw [twiddle_eq d 0 (by norm_num), theta_quarter]
  rfl

theorem twiddle_eighth (d : Draw) : twiddle d 1 3 = ⟨0x3FE6A09E667F3BCD, 0xBFE6A09E667F3BCC⟩ := by
  rw [twiddle_eq d 0 (by norm_num), theta_eighth]
  rfl

theorem twiddle_three_eighths (d : Draw) : twiddle d 3 3 = ⟨0xBFE6A09E667F3BCC, 0xBFE6A09E667F3BCD⟩ := by
  rw [twiddle_eq d 0 (by norm_num), theta_three_eighths]
  rfl

/-- Settles O50: the factor in terms of its angle, which doubling both numbers keeps, and the four values. -/
theorem twiddleFactor : Obligations.TwiddleFactor := by
  unfold Obligations.TwiddleFactor
  intro d r k m _ _ hk
  have hlt : k < 2 ^ m := hk.trans_le (Nat.pow_le_pow_right Nat.two_pos (Nat.sub_le m 1))
  have hlt2 : 2 * k < 2 ^ (m + 1) := by omega
  refine ⟨twiddle_eq d r hlt, fun d' => ?_, twiddle_zero d m, twiddle_quarter d, twiddle_eighth d,
    twiddle_three_eighths d⟩
  rw [twiddle_eq d' r hlt2, twiddle_eq d r hlt, theta_double]

end Sys2Proof.Machine
end

section
/-! PROOFS. The recursion that defines the transform (R95, R96), element by element. -/

namespace Sys2Proof.Machine

section
variable {α : Type}

/-! One combine step. -/

theorem evens_length_of_double {x : List α} {n : Nat} (h : x.length = 2 * n) : (evens x).length = n := by
  rw [evens_length]
  omega

theorem odds_length_of_double {x : List α} {n : Nat} (h : x.length = 2 * n) : (odds x).length = n := by
  rw [odds_length]
  omega

section
variable (bf : Nat → α → α → α × α) {gs us : List α} {k : Nat} {g u : α}

/-- Butterfly `k` gives element `k` (R96). -/
theorem combine_getElem?_fst (hg : gs[k]? = some g) (hu : us[k]? = some u) :
    (combine bf gs us)[k]? = some (bf k g u).1 := by
  have hb := butterflies_getElem? bf 0 gs us k g u hg hu
  rw [Nat.zero_add] at hb
  rw [combine, List.getElem?_append_left (by simpa using (List.getElem?_eq_some_iff.1 hb).1), List.getElem?_map, hb]
  rfl

/-- Butterfly `k` gives element `k + n/2` (R96). -/
theorem combine_getElem?_snd {n : Nat} (hgs : gs.length = n) (hus : us.length = n) (hg : gs[k]? = some g)
    (hu : us[k]? = some u) : (combine bf gs us)[k + n]? = some (bf k g u).2 := by
  have hb := butterflies_getElem? bf 0 gs us k g u hg hu
  have hfirst : ((butterflies bf 0 gs us).map Prod.fst).length = n := by
    rw [List.length_map, butterflies_length, hgs, hus, Nat.min_self]
  rw [Nat.zero_add] at hb
  rw [combine, List.getElem?_append_right (by omega), hfirst, Nat.add_sub_cancel, List.getElem?_map, hb]
  rfl

end

/-- Either half of the outputs, by the number of the butterfly. -/
theorem exists_butterfly_of_lt {n k : Nat} (hk : k < 2 * n) : ∃ i < n, k = i ∨ k = i + n := by
  rcases Nat.lt_or_ge k n with hlt | hge
  · exact ⟨k, hlt, .inl rfl⟩
  · exact ⟨k - n, by omega, .inr (by omega)⟩

section
variable (bf : Nat → Nat → Nat → Nat → α → α → α × α)

/-- R96: the two outputs of butterfly `k` of the outermost combine step. -/
theorem fftWith_succ_getElem? {p : Nat} (stride offset : Nat) {x : List α} (h : x.length = 2 ^ (p + 1)) {k : Nat}
    (hk : k < 2 ^ p) :
    ∃ g u, (fftWith bf p (2 * stride) offset (evens x))[k]? = some g ∧
      (fftWith bf p (2 * stride) (offset + stride) (odds x))[k]? = some u ∧
      (fftWith bf (p + 1) stride offset x)[k]? = some (bf stride offset (p + 1) k g u).1 ∧
      (fftWith bf (p + 1) stride offset x)[k + 2 ^ p]? = some (bf stride offset (p + 1) k g u).2 := by
  rw [Nat.pow_succ'] at h
  have hG := fftWith_length bf p (2 * stride) offset _ (evens_length_of_double h)
  have hU := fftWith_length bf p (2 * stride) (offset + stride) _ (odds_length_of_double h)
  have hg := List.getElem?_eq_getElem (hk.trans_eq hG.symm)
  have hu := List.getElem?_eq_getElem (hk.trans_eq hU.symm)
  exact ⟨_, _, hg, hu, combine_getElem?_fst _ hg hu, combine_getElem?_snd _ hG hU hg hu⟩

/-- A part of a transform is a transform of its own, whose butterflies stand at other places. -/
theorem fftWith_place (c e p stride offset : Nat) (x : List α) :
    fftWith bf p (c * stride) (c * offset + e) x =
      fftWith (fun stride offset => bf (c * stride) (c * offset + e)) p stride offset x := by
  induction p generalizing stride offset x with
  | zero => rfl
  | succ p ih =>
    have heven := ih (2 * stride) offset (evens x)
    have hodd := ih (2 * stride) (offset + stride) (odds x)
    rw [Nat.mul_left_comm] at heven hodd
    rw [Nat.mul_add, Nat.add_right_comm] at hodd
    rw [fftWith, fftWith, heven, hodd]

end
end

/-! The draws of a part of a transform. -/

/-- The draws of the transform that gives the spectrum of the samples `e`, `e + 2`, ... (R96, Recurse): `e` is 0 or 1. -/
def halfDraw (d : Draw) (e : Nat) : Draw
  | stride :: offset :: place => d (2 * stride :: (2 * offset + e) :: place)
  | place => d place

theorem fftBfly_halfDraw (d : Draw) (e stride offset : Nat) :
    fftBfly (halfDraw d e) stride offset = fftBfly d (2 * stride) (2 * offset + e) := rfl

theorem fft_halfDraw (d : Draw) (e p : Nat) (x : List ComplexValue) :
    fft (halfDraw d e) p x = fftWith (fftBfly d) p 2 e x := by
  have hplace := fftWith_place (fftBfly d) 2 e p 1 0 x
  rw [Nat.mul_one, Nat.mul_zero, Nat.zero_add] at hplace
  rw [hplace]
  rfl

/-- Settles O51: the halves are `evens` and `odds`; each level draws for itself, at the places of its butterflies. -/
theorem transformRecursion : Obligations.TransformRecursion := by
  unfold Obligations.TransformRecursion
  refine ⟨fun d z => rfl, fun d p x h => ?_⟩
  have hhalf : x.length = 2 * 2 ^ p := by rw [h, Nat.pow_succ']
  refine ⟨halfDraw d 0, halfDraw d 1, fun k => drawSub (drawSub (drawSub (drawSub d 1) 0) k) 0,
    fun k => drawSub (drawSub (drawSub (drawSub d 1) 0) k) 1, evens x, odds x, evens_length_of_double hhalf,
    odds_length_of_double hhalf, fun j _ => ⟨evens_getElem? x j, odds_getElem? x j⟩, fft_length d h, fun k hk => ?_⟩
  obtain ⟨g, u, hg, hu, hfst, hsnd⟩ := fftWith_succ_getElem? (fftBfly d) 1 0 h hk
  rw [fft_halfDraw, fft_halfDraw]
  exact ⟨g, u, hg, hu, hfst, hsnd⟩

end Sys2Proof.Machine
end

section
/-! PROOFS. The cascade of stages equals the recursion (R98), and a transform depends on the NaN draws in its NaNs
alone (R74, R99). -/

namespace Sys2Proof.Machine

/-! The samples a part of the transform starts from. -/

theorem bitrev_double (t q : Nat) : bitrev (t + 1) (2 * q) = bitrev t q := by
  simp [bitrev]

theorem bitrev_double_add_one (t q : Nat) : bitrev (t + 1) (2 * q + 1) = 2 ^ t + bitrev t q := by
  have hdiv : (2 * q + 1) / 2 = q := by omega
  simp [bitrev, hdiv, Nat.add_mod]

section
variable {α : Type} (x : List α)

/-- The samples left after `t` splits: the lowest bit of `q` says which half the last split took. -/
def sampleBlock : Nat → Nat → List α
  | 0, _ => x
  | t + 1, q => if q % 2 = 0 then evens (sampleBlock t (q / 2)) else odds (sampleBlock t (q / 2))

theorem sampleBlock_double (t q : Nat) : sampleBlock x (t + 1) (2 * q) = evens (sampleBlock x t q) := by
  simp [sampleBlock]

theorem sampleBlock_double_add_one (t q : Nat) : sampleBlock x (t + 1) (2 * q + 1) = odds (sampleBlock x t q) := by
  have hdiv : (2 * q + 1) / 2 = q := by omega
  simp [sampleBlock, hdiv, Nat.add_mod]

/-- After `t` splits the samples stand `2^t` apart, from the bit-reversed number of the block on. -/
theorem sampleBlock_getElem? (t q j : Nat) : (sampleBlock x t q)[j]? = x[bitrev t q + 2 ^ t * j]? := by
  induction t generalizing q j with
  | zero => simp [sampleBlock, bitrev]
  | succ t ih =>
    obtain ⟨r, rfl | rfl⟩ := q.even_or_odd'
    · rw [sampleBlock_double, evens_getElem?, ih, bitrev_double, Nat.pow_succ, Nat.mul_assoc]
    · rw [sampleBlock_double_add_one, odds_getElem?, ih, bitrev_double_add_one]
      congr 1
      ring

variable {x} in
theorem sampleBlock_length {t n : Nat} (q : Nat) (h : x.length = 2 ^ t * n) : (sampleBlock x t q).length = n := by
  induction t generalizing q n with
  | zero => simpa [sampleBlock] using h
  | succ t ih =>
    rw [Nat.pow_succ, Nat.mul_assoc] at h
    obtain ⟨r, rfl | rfl⟩ := q.even_or_odd'
    · rw [sampleBlock_double, evens_length_of_double (ih r h)]
    · rw [sampleBlock_double_add_one, odds_length_of_double (ih r h)]

end

/-! The stages. -/

/-- The block number `i` of a sequence of blocks of length `n`. -/
theorem take_drop_flatMap {ι α : Type} {f : ι → List α} {n : Nat} (hf : ∀ i, (f i).length = n) (is : List ι) {q : Nat}
    {i : ι} (hi : is[q]? = some i) : ((is.flatMap f).drop (q * n)).take n = f i := by
  induction is generalizing q with
  | nil => simp at hi
  | cons a is ih =>
    cases q with
    | zero =>
      obtain rfl : a = i := by simpa using hi
      rw [Nat.zero_mul, List.drop_zero, List.flatMap_cons, List.take_left' (hf a)]
    | succ q =>
      rw [Nat.succ_mul, Nat.add_comm, List.flatMap_cons, ← List.drop_drop, List.drop_left' (hf a)]
      exact ih (by simpa using hi)

theorem take_drop_flatMap_range {α : Type} {f : Nat → List α} {n : Nat} (hf : ∀ q, (f q).length = n) {q count : Nat}
    (hq : q < count) : (((List.range count).flatMap f).drop (q * n)).take n = f q :=
  take_drop_flatMap hf _ (List.getElem?_range hq)

section
variable {α : Type} (bf : Nat → Nat → Nat → Nat → α → α → α × α) {x : List α}

/-- The spectrum of block `q` of the `2^t` blocks of samples, each of length `2^s`. -/
def blockSpectrum (x : List α) (s t q : Nat) : List α :=
  fftWith bf s (2 ^ t) (bitrev t q) (sampleBlock x t q)

theorem blockSpectrum_length {s t : Nat} (q : Nat) (h : x.length = 2 ^ (t + s)) :
    (blockSpectrum bf x s t q).length = 2 ^ s :=
  fftWith_length _ _ _ _ _ (sampleBlock_length q (h.trans (Nat.pow_add ..)))

/-- The recursion, block by block: the spectra of blocks `2q` and `2q + 1` are those of the halves of block `q`. -/
theorem blockSpectrum_succ (s t q : Nat) :
    blockSpectrum bf x (s + 1) t q =
      combine (bf (2 ^ t) (bitrev t q) (s + 1)) (blockSpectrum bf x s (t + 1) (2 * q))
        (blockSpectrum bf x s (t + 1) (2 * q + 1)) := by
  simp only [blockSpectrum, sampleBlock_double, sampleBlock_double_add_one, bitrev_double, bitrev_double_add_one,
    Nat.pow_succ', Nat.add_comm (2 ^ t)]
  rfl

/-- What the cascade holds after `s` stages, `2^t` blocks being left (R98: `A_s`). -/
def stageSpectra (x : List α) (s t : Nat) : List α :=
  (List.range (2 ^ t)).flatMap (blockSpectrum bf x s t)

theorem cascadeStage_stageSpectra {s t : Nat} (h : x.length = 2 ^ (t + 1 + s)) :
    cascadeStage bf (t + 1 + s) s (stageSpectra bf x s (t + 1)) = stageSpectra bf x (s + 1) t := by
  have hsub : t + 1 + s - (s + 1) = t := by omega
  have hblock {r : Nat} (hr : r < 2 ^ (t + 1)) :
      ((stageSpectra bf x s (t + 1)).drop (r * 2 ^ s)).take (2 ^ s) = blockSpectrum bf x s (t + 1) r :=
    take_drop_flatMap_range (fun r => blockSpectrum_length bf r h) hr
  rw [cascadeStage, hsub]
  refine List.flatMap_congr fun q hq => ?_
  rw [List.mem_range] at hq
  have heven : q * 2 ^ (s + 1) = 2 * q * 2 ^ s := by ring
  have hodd : q * 2 ^ (s + 1) + 2 ^ s = (2 * q + 1) * 2 ^ s := by ring
  rw [hodd, heven, hblock (by omega), hblock (by omega), blockSpectrum_succ]

/-- Before the first stage every block is one sample, and their sequence is the bit-reversed input. -/
theorem bitReversed_eq_stageSpectra {p : Nat} (h : x.length = 2 ^ p) : bitReversed p x = stageSpectra bf x 0 p := by
  rw [bitReversed, List.filterMap_eq_flatMap_toList, stageSpectra]
  congr 1
  funext q
  obtain ⟨z, hz⟩ := List.length_eq_one_iff.1 (sampleBlock_length (n := 1) q (h.trans (Nat.mul_one _).symm))
  have hget := sampleBlock_getElem? x p q 0
  rw [hz, Nat.mul_zero, Nat.add_zero] at hget
  rw [← hget, blockSpectrum, fftWith, hz]
  rfl

theorem cascadeStages_bitReversed {p s t : Nat} (hp : p = t + s) (h : x.length = 2 ^ p) :
    cascadeStages bf p s (bitReversed p x) = stageSpectra bf x s t := by
  induction s generalizing t with
  | zero =>
    obtain rfl : p = t := hp
    exact bitReversed_eq_stageSpectra bf h
  | succ s ih =>
    obtain rfl : p = t + 1 + s := by omega
    rw [cascadeStages, ih rfl, cascadeStage_stageSpectra bf h]

/-- R98 as an algorithm: after all `p` stages one block is left, the whole of the input. -/
theorem cascadeWith_eq_fftWith {p : Nat} (h : x.length = 2 ^ p) : cascadeWith bf p x = fftWith bf p 1 0 x := by
  rw [cascadeWith, cascadeStages_bitReversed bf (Nat.zero_add p).symm h]
  exact List.append_nil _

end

/-! The NaN draws: a part that is no NaN is the same word whatever the draws. -/

/-- Equal unless the first is a NaN. -/
def agreesWord (a a' : Word) : Prop := isNaN a = false → a' = a

theorem agreesUpToNaN_mk {re im re' im' : Word} (hre : agreesWord re re') (him : agreesWord im im') :
    agreesUpToNaN ⟨re, im⟩ ⟨re', im'⟩
  | .re => hre
  | .im => him

theorem agreesUpToNaN_refl (z : ComplexValue) : agreesUpToNaN z z := fun _ _ => rfl

theorem operands_not_nan_of_fmul {r a b : Word} (h : isNaN (fmul r a b) = false) :
    isNaN a = false ∧ isNaN b = false := by
  have hv : ¬(isNaN a = true ∨ isNaN b = true ∨ mulInvalid a b) := fun hv => by
    rw [fmul_nan r a b hv, isNaN_quietNaN] at h; cases h
  simp only [not_or, Bool.not_eq_true] at hv
  exact ⟨hv.1, hv.2.1⟩

theorem isFinite_of_not_nan_or_inf {a : Word} (h : ¬ (isNaN a || isInf a) = true) : isFinite a = true := by
  rcases word_kinds a with ⟨hn, _⟩ | ⟨_, hi, _⟩ | ⟨_, _, hf⟩
  · simp [hn] at h
  · simp [hi] at h
  · exact hf

section
variable (r r' : Word) {a a' b b' : Word} (ha : agreesWord a a') (hb : agreesWord b b')

include ha hb in
theorem fadd_agrees : agreesWord (fadd r a b) (fadd r' a' b') := fun h => by
  obtain ⟨hna, hnb⟩ := operands_not_nan_of_fadd h
  rw [ha hna, hb hnb, (fadd_of_not_nan r' h).1]

include ha hb in
theorem fsub_agrees : agreesWord (fsub r a b) (fsub r' a' b') := fun h => by
  obtain ⟨hna, hnb⟩ := operands_not_nan_of_fsub h
  rw [ha hna, hb hnb, (fsub_of_not_nan r' h).1]

include ha hb in
theorem fmul_agrees : agreesWord (fmul r a b) (fmul r' a' b') := fun h => by
  obtain ⟨hna, hnb⟩ := operands_not_nan_of_fmul h
  rw [ha hna, hb hnb, (fmul_of_not_nan r' h).1]

theorem fexpf_agrees (a : Word) : agreesWord (fexpf r a) (fexpf r' a) := fun h => by
  refine (fexpf_draw r' (Bool.eq_false_iff.2 fun hn => ?_)).symm
  rw [fexpf_of_isNaN hn, isNaN_quietNaN] at h; cases h

theorem fcos_agrees (a : Word) : agreesWord (fcos r a) (fcos r' a) := fun h => by
  refine (fcos_draw r' (isFinite_of_not_nan_or_inf fun hn => ?_)).symm
  rw [fcos_of_nan_or_inf hn, isNaN_quietNaN] at h; cases h

theorem fsin_agrees (a : Word) : agreesWord (fsin r a) (fsin r' a) := fun h => by
  refine (fsin_draw r' (isFinite_of_not_nan_or_inf fun hn => ?_)).symm
  rw [fsin_of_nan_or_inf hn, isNaN_quietNaN] at h; cases h

end

section
variable (d d' : Draw) {a a' b b' w w' : ComplexValue} (ha : agreesUpToNaN a a') (hb : agreesUpToNaN b b')
  (hw : agreesUpToNaN w w')

include ha hb in
theorem cadd_agrees : agreesUpToNaN (cadd d a b) (cadd d' a' b') :=
  agreesUpToNaN_mk (fadd_agrees _ _ (ha .re) (hb .re)) (fadd_agrees _ _ (ha .im) (hb .im))

include ha hb in
theorem csub_agrees : agreesUpToNaN (csub d a b) (csub d' a' b') :=
  agreesUpToNaN_mk (fsub_agrees _ _ (ha .re) (hb .re)) (fsub_agrees _ _ (ha .im) (hb .im))

include ha hb in
theorem cmul_agrees : agreesUpToNaN (cmul d a b) (cmul d' a' b') :=
  agreesUpToNaN_mk
    (fsub_agrees _ _ (fmul_agrees _ _ (ha .re) (hb .re)) (fmul_agrees _ _ (ha .im) (hb .im)))
    (fadd_agrees _ _ (fmul_agrees _ _ (ha .re) (hb .im)) (fmul_agrees _ _ (ha .im) (hb .re)))

theorem cexp_agrees (z : ComplexValue) : agreesUpToNaN (cexp d z) (cexp d' z) :=
  agreesUpToNaN_mk (fmul_agrees _ _ (fexpf_agrees _ _ _) (fcos_agrees _ _ _))
    (fmul_agrees _ _ (fexpf_agrees _ _ _) (fsin_agrees _ _ _))

include ha hb hw in
theorem bfly_agrees :
    agreesUpToNaN (bfly d a b w).1 (bfly d' a' b' w').1 ∧ agreesUpToNaN (bfly d a b w).2 (bfly d' a' b' w').2 :=
  have hp := cmul_agrees (drawSub d 0) (drawSub d' 0) hw hb
  ⟨cadd_agrees _ _ ha hp, csub_agrees _ _ ha hp⟩

include ha hb in
theorem fftBfly_agrees (stride offset m k : Nat) :
    agreesUpToNaN (fftBfly d stride offset m k a b).1 (fftBfly d' stride offset m k a' b').1 ∧
    agreesUpToNaN (fftBfly d stride offset m k a b).2 (fftBfly d' stride offset m k a' b').2 :=
  bfly_agrees _ _ ha hb (cexp_agrees _ _ _)

end

/-- Two readings of the recursion on one input are related element by element, when their butterflies keep the
relation. -/
theorem fftWith_related {α : Type} {R : α → α → Prop} (hrefl : ∀ z, R z z)
    {bf bf' : Nat → Nat → Nat → Nat → α → α → α × α}
    (hbf : ∀ stride offset m k {g g' u u'}, R g g' → R u u' →
      R (bf stride offset m k g u).1 (bf' stride offset m k g' u').1 ∧
      R (bf stride offset m k g u).2 (bf' stride offset m k g' u').2)
    {p : Nat} (stride offset : Nat) {x : List α} (h : x.length = 2 ^ p) {k : Nat} (hk : k < 2 ^ p) :
    ∃ z z', (fftWith bf p stride offset x)[k]? = some z ∧ (fftWith bf' p stride offset x)[k]? = some z' ∧ R z z' := by
  induction p generalizing stride offset x k with
  | zero =>
    have hz := List.getElem?_eq_getElem (hk.trans_eq h.symm)
    exact ⟨_, _, hz, hz, hrefl _⟩
  | succ p ih =>
    have hhalf : x.length = 2 * 2 ^ p := by rw [h, Nat.pow_succ']
    obtain ⟨i, hi, hki⟩ := exists_butterfly_of_lt (hk.trans_eq (Nat.pow_succ' ..))
    obtain ⟨g, u, hg, hu, hfst, hsnd⟩ := fftWith_succ_getElem? bf stride offset h hi
    obtain ⟨g', u', hg', hu', hfst', hsnd'⟩ := fftWith_succ_getElem? bf' stride offset h hi
    have hgg : R g g' := by
      obtain ⟨z, z', hz, hz', hr⟩ := ih (2 * stride) offset (evens_length_of_double hhalf) hi
      rwa [Option.some_inj.1 (hg.symm.trans hz), Option.some_inj.1 (hg'.symm.trans hz')]
    have huu : R u u' := by
      obtain ⟨z, z', hz, hz', hr⟩ := ih (2 * stride) (offset + stride) (odds_length_of_double hhalf) hi
      rwa [Option.some_inj.1 (hu.symm.trans hz), Option.some_inj.1 (hu'.symm.trans hz')]
    obtain ⟨h1, h2⟩ := hbf stride offset (p + 1) i hgg huu
    rcases hki with rfl | rfl
    · exact ⟨_, _, hfst, hfst', h1⟩
    · exact ⟨_, _, hsnd, hsnd', h2⟩

theorem fft_agrees (d d' : Draw) {p : Nat} {x : List ComplexValue} (h : x.length = 2 ^ p) {k : Nat} {z : ComplexValue}
    (hz : (fft d p x)[k]? = some z) : ∃ z', (fft d' p x)[k]? = some z' ∧ agreesUpToNaN z z' := by
  have hk : k < 2 ^ p := fft_length d h ▸ (List.getElem?_eq_some_iff.1 hz).1
  obtain ⟨y, y', hy, hy', hr⟩ := fftWith_related agreesUpToNaN_refl
    (fun stride offset m k _ _ _ _ hg hu => fftBfly_agrees d d' hg hu stride offset m k) 1 0 h hk
  obtain rfl : z = y := Option.some_inj.1 (hz.symm.trans hy)
  exact ⟨y', hy', hr⟩

/-- Settles O52: with its own draws the cascade is the recursion, and the recursion depends on the draws in its NaNs
alone; the tables by evaluation. -/
theorem cascadeEqualsRecursion : Obligations.CascadeEqualsRecursion := by
  unfold Obligations.CascadeEqualsRecursion
  refine ⟨fun α bf p x h => cascadeWith_eq_fftWith bf h, fun d d' p x h => ?_, by decide, by decide, by decide,
    by decide⟩
  have heq : cascade d p x = fft d p x := cascadeWith_eq_fftWith (fftBfly d) h
  rw [heq]
  exact ⟨fft_length d h, fun k z hz => fft_agrees d d' h hz⟩

end Sys2Proof.Machine
end

section
/-! PROOFS. The recursion read in the complex numbers computes the DFT sum (R97). -/

namespace Sys2Proof.Machine

/-! The roots of unity. -/

/-- `exp(-2πi·a/n)` for `n = 2^p`. -/
noncomputable def dftRoot (p a : Nat) : ℂ :=
  Complex.exp (-2 * (Real.pi : ℂ) * Complex.I * (a : ℂ) / 2 ^ p)

theorem dftRoot_add (p a b : Nat) : dftRoot p (a + b) = dftRoot p a * dftRoot p b := by
  rw [dftRoot, dftRoot, dftRoot, ← Complex.exp_add]
  congr 1
  push_cast
  ring

theorem dftRoot_mul (p a b : Nat) : dftRoot p (a * b) = dftRoot p b ^ a := by
  rw [dftRoot, dftRoot, ← Complex.exp_nat_mul]
  congr 1
  push_cast
  ring

/-- The root depends on `a/n` alone. -/
theorem dftRoot_double (p a : Nat) : dftRoot (p + 1) (2 * a) = dftRoot p a := by
  rw [dftRoot, dftRoot]
  congr 1
  push_cast
  field_simp
  ring

/-- Half of a turn. -/
theorem dftRoot_half (p : Nat) : dftRoot (p + 1) (2 ^ p) = -1 := by
  have harg : -2 * (Real.pi : ℂ) * Complex.I * ((2 ^ p : Nat) : ℂ) / 2 ^ (p + 1) = -(Real.pi * Complex.I) := by
    push_cast
    field_simp
    ring
  rw [dftRoot, harg, Complex.exp_neg, Complex.exp_pi_mul_I]
  norm_num

/-- A full turn. -/
theorem dftRoot_turn (p : Nat) : dftRoot p (2 ^ p) = 1 := by
  rw [← dftRoot_double, dftRoot_mul, dftRoot_half]
  norm_num

/-! The sum. -/

/-- Element `k` of the DFT of `x` of length `2^p`: natural order, unscaled. -/
noncomputable def dftSum (p : Nat) (x : List ℂ) (k : Nat) : ℂ :=
  ∑ j ∈ Finset.range (2 ^ p), x.getD j 0 * dftRoot p (j * k)

theorem sum_range_double {M : Type} [AddCommMonoid M] (f : Nat → M) (n : Nat) :
    ∑ j ∈ Finset.range (2 * n), f j = ∑ j ∈ Finset.range n, f (2 * j) + ∑ j ∈ Finset.range n, f (2 * j + 1) := by
  rw [← Finset.sum_add_distrib]
  induction n with
  | zero => simp
  | succ n ih => rw [Nat.mul_succ, Finset.sum_range_succ, Finset.sum_range_succ, Finset.sum_range_succ, ih, add_assoc]

/-- The sum splits by the parity of `j` into the sums of the halves, the second times the root of `k`. -/
theorem dftSum_succ (p : Nat) (x : List ℂ) (k : Nat) :
    dftSum (p + 1) x k = dftSum p (evens x) k + dftRoot (p + 1) k * dftSum p (odds x) k := by
  have heven (j : Nat) : x.getD (2 * j) 0 * dftRoot (p + 1) (2 * j * k) = (evens x).getD j 0 * dftRoot p (j * k) := by
    rw [Nat.mul_assoc, dftRoot_double, List.getD_eq_getElem?_getD, List.getD_eq_getElem?_getD, evens_getElem?]
  have hodd (j : Nat) : x.getD (2 * j + 1) 0 * dftRoot (p + 1) ((2 * j + 1) * k) =
      dftRoot (p + 1) k * ((odds x).getD j 0 * dftRoot p (j * k)) := by
    rw [Nat.add_mul, Nat.one_mul, dftRoot_add, Nat.mul_assoc, dftRoot_double, List.getD_eq_getElem?_getD,
      List.getD_eq_getElem?_getD, odds_getElem?]
    ring
  rw [dftSum, Nat.pow_succ', sum_range_double, Finset.sum_congr rfl fun j _ => heven j,
    Finset.sum_congr rfl fun j _ => hodd j, ← Finset.mul_sum]
  rfl


/-- The sums have the period `n` in `k`. -/
theorem dftSum_add_period (p : Nat) (x : List ℂ) (k : Nat) : dftSum p x (k + 2 ^ p) = dftSum p x k := by
  have hroot (j : Nat) : dftRoot p (j * (k + 2 ^ p)) = dftRoot p (j * k) := by
    rw [Nat.mul_add, dftRoot_add, dftRoot_mul p j (2 ^ p), dftRoot_turn, one_pow, mul_one]
  simp only [dftSum, hroot]

/-- Element `k + n/2` of the sum: the same two parts with the opposite sign (R94). -/
theorem dftSum_succ_upper (p : Nat) (x : List ℂ) (k : Nat) :
    dftSum (p + 1) x (k + 2 ^ p) = dftSum p (evens x) k - dftRoot (p + 1) k * dftSum p (odds x) k := by
  rw [dftSum_succ, dftSum_add_period, dftSum_add_period, dftRoot_add, dftRoot_half]
  ring

/-! The recursion. -/

/-- The butterfly over the complex numbers; where it stands does not matter. -/
noncomputable def exactBfly (_stride _offset m k : Nat) (g u : ℂ) : ℂ × ℂ :=
  (g + dftRoot m k * u, g - dftRoot m k * u)

/-- Read in the complex numbers the recursion is the sum: both split by parity, with the same two combinations. -/
theorem fftWith_exactBfly_getElem? {p : Nat} (stride offset : Nat) {x : List ℂ} (h : x.length = 2 ^ p) {k : Nat}
    (hk : k < 2 ^ p) : (fftWith exactBfly p stride offset x)[k]? = some (dftSum p x k) := by
  induction p generalizing stride offset x k with
  | zero =>
    obtain ⟨z, rfl⟩ := List.length_eq_one_iff.1 h
    obtain rfl : k = 0 := by omega
    simp [fftWith, dftSum, dftRoot]
  | succ p ih =>
    have hhalf : x.length = 2 * 2 ^ p := by rw [h, Nat.pow_succ']
    obtain ⟨i, hi, hki⟩ := exists_butterfly_of_lt (hk.trans_eq (Nat.pow_succ' ..))
    obtain ⟨g, u, hg, hu, hfst, hsnd⟩ := fftWith_succ_getElem? exactBfly stride offset h hi
    rw [ih _ _ (evens_length_of_double hhalf) hi, Option.some_inj] at hg
    rw [ih _ _ (odds_length_of_double hhalf) hi, Option.some_inj] at hu
    subst hg hu
    rcases hki with rfl | rfl
    · rw [hfst, dftSum_succ]
      rfl
    · rw [hsnd, dftSum_succ_upper]
      rfl

/-- Settles O53, from the recursion at its outermost level; the statement writes out `exactBfly` and `dftSum`. -/
theorem exactTransformIsTheDft : Obligations.ExactTransformIsTheDft := by
  unfold Obligations.ExactTransformIsTheDft
  intro p x h k hk
  have hsum := fftWith_exactBfly_getElem? 1 0 h hk
  simp only [dftSum, dftRoot, Nat.cast_mul, ← mul_assoc] at hsum
  exact hsum

end Sys2Proof.Machine
end

section
/-! PROOFS. The encoding: every transaction is one well-formed instruction, and back (R50, R52, R53). -/

namespace Sys2Proof

/-! The five command words. -/

theorem mem_commandWords_iff (w : Word) : w ∈ commandWords ↔ w = 1 ∨ w = 2 ∨ w = 3 ∨ w = 4 ∨ w = 5 := by
  simp [commandWords]

/-- A word outside the list of five is illegal (R53). -/
theorem decodeCommandWord_of_not_mem {w : Word} (h : w ∉ commandWords) :
    decodeCommandWord w = .error .illegalCommand := by
  rw [mem_commandWords_iff] at h
  rcases decodeCommandWord_cases w with ⟨hw, _⟩ | ⟨hw, _⟩ | ⟨hw, _⟩ | ⟨hw, _⟩ | ⟨hw, _⟩ | ⟨_, hd⟩
  case inr.inr.inr.inr.inr => exact hd
  all_goals simp [hw] at h

theorem Instr.wellFormed_wr_iff {a : Addr} {w : Word} :
    (Instr.wr a w).wellFormed = true ↔ (a = cmdAddr → w ∉ commandWords) := by
  simp [Instr.wellFormed, imp_iff_not_or]

/-- A `WR` of a word that is no command stays a `WR`, also at `CMD` (R53). -/
theorem decodeTxn_packTxn_wr_of_wellFormed {a : Addr} {w : Word} (h : (Instr.wr a w).wellFormed = true) :
    decodeTxn (packTxn true a w) = .wr a w := by
  rw [Instr.wellFormed_wr_iff] at h
  by_cases ha : a = cmdAddr
  · simp [decodeTxn, ha, decodeCommandWord_of_not_mem (h ha)]
  · exact decodeTxn_packTxn_wr w ha

theorem decodeTxn_encode {i : Instr} (h : i.wellFormed = true) : decodeTxn (encode i) = i := by
  cases i with
  | rd a => exact decodeTxn_packTxn_rd a 0
  | wr a w => exact decodeTxn_packTxn_wr_of_wellFormed h
  | cadd | cmul | cexp | bfly | xform => exact decodeTxn_packTxn_cmd rfl

/-- Settles O14: an `RD` and a `WR` by their fields, a command by its word. -/
theorem decodeEncodeRoundTrip : Obligations.DecodeEncodeRoundTrip := by
  unfold Obligations.DecodeEncodeRoundTrip
  exact fun i h => decodeTxn_encode h

/-- What a `WR` of `w` to `CMD` decodes to is well formed and encodes to that `WR`: a command, or an illegal word. -/
theorem decodeTxn_cmd_canonical (w : Word) :
    (decodeTxn (packTxn true cmdAddr w)).wellFormed = true ∧
    encode (decodeTxn (packTxn true cmdAddr w)) = packTxn true cmdAddr w := by
  rcases decodeCommandWord_cases w with ⟨rfl, h⟩ | ⟨rfl, h⟩ | ⟨rfl, h⟩ | ⟨rfl, h⟩ | ⟨rfl, h⟩ | ⟨hw, _⟩
  case inr.inr.inr.inr.inr =>
    have hwf : (Instr.wr cmdAddr w).wellFormed = true := by
      rw [Instr.wellFormed_wr_iff, mem_commandWords_iff]
      rintro - (rfl | rfl | rfl | rfl | rfl) <;> exact absurd hw (by decide)
    rw [decodeTxn_packTxn_wr_of_wellFormed hwf]
    exact ⟨hwf, rfl⟩
  all_goals rw [decodeTxn_packTxn_cmd h]; exact ⟨rfl, rfl⟩

theorem decodeTxn_packTxn_canonical (write : Bool) (a : Addr) (w : Word) :
    (decodeTxn (packTxn write a w)).wellFormed = true ∧
    encode (decodeTxn (packTxn write a w)) = packTxn write a (if write then w else 0) := by
  cases write with
  | false => rw [decodeTxn_packTxn_rd]; exact ⟨rfl, rfl⟩
  | true =>
    by_cases ha : a = cmdAddr
    · subst ha; exact decodeTxn_cmd_canonical w
    · rw [decodeTxn_packTxn_wr w ha]
      exact ⟨Instr.wellFormed_wr_iff.2 fun h => absurd h ha, rfl⟩

/-- Settles O15: a transaction is the record of its three fields, and each kind of record decodes as R50 and R52 say. -/
theorem everyTransactionDecodes : Obligations.EveryTransactionDecodes := by
  unfold Obligations.EveryTransactionDecodes
  intro t
  have h := decodeTxn_packTxn_canonical (txnWrite t) (txnAddr t) (txnData t)
  rwa [packTxn_fields] at h

/-- Settles O17: the six answers exclude each other, and so do the six kinds of word. -/
theorem exactlyFiveCommandWords : Obligations.ExactlyFiveCommandWords := by
  unfold Obligations.ExactlyFiveCommandWords
  intro w
  rcases decodeCommandWord_cases w with ⟨rfl, h⟩ | ⟨rfl, h⟩ | ⟨rfl, h⟩ | ⟨rfl, h⟩ | ⟨rfl, h⟩ | ⟨hw, h⟩
  case inr.inr.inr.inr.inr =>
    rw [h]
    refine ⟨?_, ?_, ?_, ?_, ?_, iff_of_true rfl hw⟩ <;>
      exact iff_of_false (by simp) fun hc => by rw [hc] at hw; exact absurd hw (by decide)
  all_goals rw [h]; decide

/-- Settles O18, by decoding the eight words. -/
theorem specTransactionsDecode : Obligations.SpecTransactionsDecode := by
  unfold Obligations.SpecTransactionsDecode
  decide

end Sys2Proof
end

section
/-! PROOFS. The whole machine: every instruction and every step completes (R120, R127, R128), and every step keeps the
invariant (R10, R15, R18, R32, R148). -/

namespace Sys2Proof.Machine

/-! Completion. -/

theorem exists_exec_next (i : Instr) (s : State) : ∃ t, exec i s = .next t := by
  cases i with
  | rd a => rcases execRd_cases a s with ⟨w, _, h⟩ | ⟨_, h⟩ <;> exact ⟨_, h⟩
  | wr a w =>
    rcases execWr_cases a w s with ⟨_, h⟩ | ⟨t, _, _, h⟩ | ⟨_, _, h⟩
    · obtain ⟨t, ht, _⟩ := executeCommand_answers w s
      exact ⟨t, h.trans ht⟩
    · exact ⟨_, h⟩
    · exact ⟨_, h⟩
  | cadd | cmul | cexp | bfly => exact ⟨_, rfl⟩
  | xform => rcases execXform_cases s with ⟨_, h⟩ | ⟨_, h⟩ <;> exact ⟨_, h⟩

theorem exec_answers {i : Instr} {s t : State} (h : exec i s = .next t) : ∃ r, t.response = some r := by
  cases exec_next_cases h <;> exact ⟨_, rfl⟩

/-- The port belongs to the host: no instruction takes anything off it. -/
theorem exec_keeps_pending {i : Instr} {s t : State} (h : exec i s = .next t) : t.pending = s.pending := by
  cases exec_next_cases h <;> simp

/-- Response code 11 does not exist (R56, U7). -/
theorem responseCode_ne_three (r : Response) : responseCode r ≠ 0b11 := by
  cases r <;> simp [responseCode]

/-! A step, by the event at the head of the port. -/

section
variable {s : State} {rest : List PortEvent}

theorem step_of_idle (h : s.pending = []) : step s = .next s := by
  rw [step, h]

theorem step_of_rst {draw : Nat} (h : s.pending = .rst draw :: rest) :
    step s = .next (s.applyReset.finishEvent rest) := by
  rw [step, h]

theorem step_of_txn {t : TxnWord} {draw : Nat} (h : s.pending = .txn t draw :: rest) {u : State}
    (hu : exec (decodeTxn t) s = .next u) : step s = .next (u.finishEvent rest) := by
  rw [step, h]
  simp only [hu]

end

/-- Settles O5: an instruction ends in one of its next states, and a step in that of its event. -/
theorem everyStepCompletes : Obligations.EveryStepCompletes := by
  unfold Obligations.EveryStepCompletes
  refine ⟨fun i s => ?_, fun s => ?_⟩
  · obtain ⟨t, ht⟩ := exists_exec_next i s
    obtain ⟨r, hr⟩ := exec_answers ht
    exact ⟨t, r, ht, hr, responseCode_ne_three r, exec_keeps_pending ht⟩
  · match h : s.pending with
    | [] => exact ⟨_, step_of_idle h⟩
    | .rst _ :: _ => exact ⟨_, step_of_rst h⟩
    | .txn t _ :: _ =>
      obtain ⟨u, hu⟩ := exists_exec_next (decodeTxn t) s
      exact ⟨_, step_of_txn h hu⟩

/-- Settles O1: a step runs the decoded transaction and takes its event off the port; no fault and no refusal exists. -/
theorem stepPerformsPresentedTransaction : Obligations.StepPerformsPresentedTransaction := by
  unfold Obligations.StepPerformsPresentedTransaction
  rintro s t draw i rest h rfl -
  obtain ⟨u, hu⟩ := exists_exec_next (decodeTxn t) s
  refine ⟨fun v hv => step_of_txn h hv, fun f hf => ?_, fun r hr => ?_, ?_⟩
  · rw [hu] at hf; cases hf
  · rw [hu] at hr; cases hr
  · rw [State.draw, State.drawInput_of_pending h, PortEvent.draw_txn]

/-- Settles O2: with an empty port there is no event to perform. -/
theorem idleStepKeepsAllState : Obligations.IdleStepKeepsAllState := by
  unfold Obligations.IdleStepKeepsAllState
  exact fun s h => step_of_idle h

/-! The invariant. -/

theorem statusSuccess_eq : statusSuccess = 0x0000000000000001 := by decide

theorem statusFailure_invalidLength : statusFailure .invalidLength = 0x0000000000000102 := by decide

theorem statusFailure_illegalCommand : statusFailure .illegalCommand = 0x0000000000000202 := by decide

/-- After an instruction `STATUS` is the old word or one of the three outcomes (R15). -/
theorem exec_status_cases {i : Instr} {s t : State} (h : exec i s = .next t) :
    t.status = s.status ∨ t.status = 0x0000000000000001 ∨ t.status = 0x0000000000000102 ∨
      t.status = 0x0000000000000202 := by
  cases exec_next_cases h with
  | rdWord | rdFault | wrFault | wrLen | wrOperand | wrSample => exact .inl (by simp)
  | cadd | cmul | cexp | bfly | xform => exact .inr (.inl statusSuccess_eq)
  | invalidLength => exact .inr (.inr (.inl statusFailure_invalidLength))
  | illegalCommand => exact .inr (.inr (.inr statusFailure_illegalCommand))

theorem exec_keeps_statusLegal {i : Instr} {s t : State} (hs : s.statusLegal) (h : exec i s = .next t) :
    t.statusLegal := by
  rcases exec_status_cases h with h | h | h | h
  · rwa [State.statusLegal, h]
  · exact .inr (.inl h)
  · exact .inr (.inr (.inl h))
  · exact .inr (.inr (.inr h))

/-- What instructions do to the buffers: nothing, one word of `X` within its window, or a spectrum of valid length. -/
theorem exec_buffers_cases {i : Instr} {s t : State} (h : exec i s = .next t) :
    (t.x = s.x ∧ t.y = s.y ∧ t.ylen = s.ylen) ∨
    (∃ off w, off < 2 * s.nmax ∧ t.x = bufferPut s.x off w ∧ t.y = s.y ∧ t.ylen = s.ylen) ∨
    (∃ p, p ≤ s.log2Nmax.val ∧ s.len.toNat = 2 ^ p ∧ t.x = s.x ∧ t.y = bufferPutSeq s.y 0 (s.spectrum (2 ^ p)) ∧
      t.ylen = s.len) := by
  cases exec_next_cases h with
  | rdWord | rdFault | wrFault | wrLen | wrOperand | cadd | cmul | cexp | bfly | invalidLength | illegalCommand =>
    exact .inl (by simp)
  | wrSample a w off _ _ ho => exact .inr (.inl ⟨off, w, ho, rfl, rfl, rfl⟩)
  | xform _ hv =>
    obtain ⟨p, hp, hlen⟩ := (validLen_iff _ _).1 hv
    exact .inr (.inr ⟨p, hp, hlen, rfl, by simp [hlen], rfl⟩)

/-- `YLEN = 0` with nothing in the buffers meets the invariant. -/
theorem State.Inv.of_cleared {s : State} (hstatus : s.status = 0) (hylen : s.ylen = 0) (hx : s.x = []) (hy : s.y = []) :
    s.Inv where
  status := .inl hstatus
  ylen := .inl hylen
  buffers := by simp [State.buffersLegal, hx, hy]
  spectrum := by simp [State.spectrumComplete, hylen]

/-- Settles O7: `State.reset` has nothing in its buffers. -/
theorem invariantAtReset : Obligations.InvariantAtReset := by
  unfold Obligations.InvariantAtReset
  exact .of_cleared rfl rfl rfl rfl

/-- A spectrum as long as `YLEN` says fills every readable word of `Y` (R101). -/
theorem bufferWord_putSeq_isSome (b : Buffer) (zs : List ComplexValue) {off : Nat} (h : off < 2 * zs.length) :
    (bufferWord (bufferPutSeq b 0 zs) off).isSome = true := by
  have hre := bufferWord_putSeq_re b 0 (off / 2) zs (by omega)
  have him := bufferWord_putSeq_im b 0 (off / 2) zs (by omega)
  rcases Nat.mod_two_eq_zero_or_one off with hoff | hoff
  · rw [show off = 2 * (0 + off / 2) by omega, hre]
    rfl
  · rw [show off = 2 * (0 + off / 2) + 1 by omega, him]
    rfl

theorem exec_keeps_inv {i : Instr} {s t : State} (hs : s.Inv) (h : exec i s = .next t) : t.Inv := by
  have hstatus := exec_keeps_statusLegal hs.status h
  have hnmax := exec_keeps_log2Nmax h
  obtain ⟨-, hylen, ⟨hxwf, hywf, hxin, hyin⟩, hspec⟩ := hs
  rcases exec_buffers_cases h with ⟨hx, hy, hl⟩ | ⟨off, w, ho, hx, hy, hl⟩ | ⟨p, hp, hlen, hx, hy, hl⟩
  · refine ⟨hstatus, ?_, ?_, ?_⟩
    · rwa [State.ylenLegal, hl, hnmax]
    · rw [State.buffersLegal, State.nmax, hx, hy, hnmax]
      exact ⟨hxwf, hywf, hxin, hyin⟩
    · rwa [State.spectrumComplete, hl, hy]
  · refine ⟨hstatus, ?_, ?_, ?_⟩
    · rwa [State.ylenLegal, hl, hnmax]
    · rw [State.buffersLegal, State.nmax, hx, hy, hnmax]
      refine ⟨bufferPut_wf hxwf off w, hywf, fun e he => ?_, hyin⟩
      rcases mem_bufferPut he with rfl | he
      · exact ho
      · exact hxin e he
    · rwa [State.spectrumComplete, hl, hy]
  · have hout := s.spectrum_length p
    refine ⟨hstatus, ?_, ?_, ?_⟩
    · rw [State.ylenLegal, hl, hnmax]
      exact .inr ⟨p, hp, hlen⟩
    · rw [State.buffersLegal, State.nmax, hx, hy, hnmax]
      refine ⟨hxwf, bufferPutSeq_wf hywf _ _, hxin, fun e he => ?_⟩
      rcases mem_bufferPutSeq he with he | he
      · have hle : 2 ^ p ≤ 2 ^ s.log2Nmax.val := Nat.pow_le_pow_right Nat.two_pos hp
        omega
      · exact hyin e he
    · intro off ho
      rw [hy]
      exact bufferWord_putSeq_isSome _ _ (by rwa [hout, ← hlen, ← hl])

/-- Taking an event off the port is outside the invariant. -/
theorem State.Inv.finishEvent {s : State} (h : s.Inv) (rest : List PortEvent) : (s.finishEvent rest).Inv :=
  ⟨h.status, h.ylen, h.buffers, h.spectrum⟩

/-- Settles O8: an idle step changes nothing, reset clears the buffers, and every instruction keeps the invariant. -/
theorem stepKeepsInvariant : Obligations.StepKeepsInvariant := by
  unfold Obligations.StepKeepsInvariant
  intro s t hs h
  rcases step_cases h with ⟨_, rfl⟩ | ⟨_, rest, _, rfl⟩ | ⟨_, _, rest, u, _, hu, rfl⟩
  · exact hs
  · exact (State.Inv.of_cleared (s := s.applyReset) rfl rfl rfl rfl).finishEvent rest
  · exact (exec_keeps_inv hs hu).finishEvent rest

/-! Reset. -/

/-- Settles O4: an instruction leaves `YLEN` or writes a valid length, and leaves `STATUS` or writes an outcome; neither
a valid length nor an outcome is 0. -/
theorem onlyResetClearsYlenAndStatus : Obligations.OnlyResetClearsYlenAndStatus := by
  unfold Obligations.OnlyResetClearsYlenAndStatus
  intro s t h
  rcases step_cases h with ⟨_, rfl⟩ | ⟨draw, rest, hp, _⟩ | ⟨_, _, _, u, _, hu, rfl⟩
  · exact ⟨fun hs ht => absurd ht hs, fun hs ht => absurd ht hs⟩
  · exact ⟨fun _ _ => ⟨draw, rest, hp⟩, fun _ _ => ⟨draw, rest, hp⟩⟩
  · rw [State.finishEvent_ylen, State.finishEvent_status]
    refine ⟨fun hs ht => ?_, fun hs ht => ?_⟩
    · rcases exec_buffers_cases hu with ⟨_, _, hl⟩ | ⟨_, _, _, _, _, hl⟩ | ⟨p, _, hlen, _, _, hl⟩
      · exact absurd (hl.symm.trans ht) hs
      · exact absurd (hl.symm.trans ht) hs
      · rw [← hl, ht] at hlen
        exact absurd hlen.symm (Nat.two_pow_pos p).ne'
    · rcases exec_status_cases hu with hc | hc | hc | hc <;> rw [hc] at ht
      · exact absurd ht hs
      all_goals exact absurd ht (by decide)

/-- What R24 gives a state whose control registers are at their reset values. -/
theorem exec_of_control_cleared {t : State} (hlen : t.len = 0) (hylen : t.ylen = 0) :
    (∀ addr : Addr, addr.toNat / 2 ^ 30 = 2 → exec (.rd addr) t = .next t.raiseAccessFault) ∧
    exec .xform t = .next (t.raiseCommandError .invalidLength) := by
  refine ⟨fun addr ha => exec_rd_of_cause ?_, exec_xform_of_invalid fun hv => ?_⟩
  · have hzero : t.ylen.toNat ≤ addr.toNat % 2 ^ 30 / 2 := by simp [hylen]
    exact .inr (.inr (.inr (.inr (.inr (.inr ⟨rfl, ha, hzero⟩)))))
  · obtain ⟨p, _, hp⟩ := (validLen_iff _ _).1 hv
    rw [hlen] at hp
    exact absurd hp.symm (Nat.two_pow_pos p).ne'

/-- Settles O3: both states have their control registers cleared, and that is all the three transactions look at. -/
theorem resetLeavesResetState : Obligations.ResetLeavesResetState := by
  unfold Obligations.ResetLeavesResetState
  intro isReset
  have hreset (t : State) (hstatus : t.status = 0) (hlen : t.len = 0) (hylen : t.ylen = 0) : isReset t := by
    obtain ⟨hy, hx⟩ := exec_of_control_cleared hlen hylen
    exact ⟨hstatus, hlen, hylen, ⟨_, _, exec_rd_cap t, rfl, t.capWord_toNat⟩, fun addr ha => ⟨_, hy addr ha, rfl⟩,
      ⟨_, hx, statusFailure_invalidLength, rfl⟩⟩
  refine ⟨hreset _ rfl rfl rfl, fun s draw rest hp => ?_⟩
  exact ⟨_, step_of_rst hp, hreset _ rfl rfl rfl, rfl, rfl⟩

end Sys2Proof.Machine
end

section
/-! PROOFS. What an instruction may change: the write side of R13, `STATUS` (R15), the spectrum (R148); and that the same
transaction again changes nothing (R40). -/

namespace Sys2Proof

theorem Instr.isCommand_of_spelling {i c : Instr} {w : Word} (hc : c.IsCommand) (hi : i = c ∨ i = .wr cmdAddr w) :
    i.IsCommand := by
  rcases hi with rfl | rfl
  · exact hc
  · exact Instr.isCommand_wr_iff.2 rfl

/-- Of the two spellings of a command the `wr` is ill formed (R52). -/
theorem Instr.eq_of_spelling {i c : Instr} {w : Word} (hwf : i.wellFormed = true) (hw : w ∈ commandWords)
    (hi : i = c ∨ i = .wr cmdAddr w) : i = c := by
  rcases hi with hi | rfl
  · exact hi
  · exact absurd hw (Instr.wellFormed_wr_iff.1 hwf rfl)

end Sys2Proof

namespace Sys2Proof.Machine

/-! `STATUS`. -/

theorem exec_keeps_status {i : Instr} {s t : State} (hc : ¬ i.IsCommand) (h : exec i s = .next t) :
    t.status = s.status := by
  cases exec_next_cases h with
  | rdWord | rdFault | wrFault | wrLen | wrOperand | wrSample => simp
  | cadd hi | cmul hi | cexp hi | bfly hi | xform hi | invalidLength hi =>
    exact absurd (Instr.isCommand_of_spelling (by simp [Instr.IsCommand]) hi) hc
  | illegalCommand w hi => exact absurd (hi ▸ Instr.isCommand_wr_iff.2 rfl) hc

theorem statusSuccess_fields :
    statusDone statusSuccess = true ∧ statusErr statusSuccess = false ∧ statusEcode statusSuccess = 0 := by
  decide

theorem statusFailure_fields (e : ErrorCode) :
    statusDone (statusFailure e) = false ∧ statusErr (statusFailure e) = true ∧
      statusEcode (statusFailure e) = errorCode e := by
  cases e <;> decide

/-- Settles O11: a command succeeds, or fails with one of the two codes; every other instruction leaves `STATUS`. -/
theorem statusRecordsTheLatestCommand : Obligations.StatusRecordsTheLatestCommand := by
  unfold Obligations.StatusRecordsTheLatestCommand
  refine fun i s t h => ⟨fun hc => ?_, fun hc => exec_keeps_status hc h⟩
  rcases exec_command_cases hc h with ⟨z, rfl⟩ | ⟨z, z', rfl⟩ | ⟨n, out, rfl⟩ | ⟨_ | _, rfl⟩
  case inr.inr.inr.invalidLength =>
    exact .inr (.inl ⟨statusFailure_invalidLength, rfl, rfl, statusFailure_fields .invalidLength⟩)
  case inr.inr.inr.illegalCommand =>
    exact .inr (.inr ⟨statusFailure_illegalCommand, rfl, rfl, statusFailure_fields .illegalCommand⟩)
  all_goals exact .inl ⟨statusSuccess_eq, rfl, rfl, statusSuccess_fields⟩

/-! The write side of R13. -/

/-- Settles O9: each next state changes the one thing its instruction names; a well-formed command is its constructor. -/
theorem writeMatrix : Obligations.WriteMatrix := by
  unfold Obligations.WriteMatrix
  intro i s t hwf h
  cases exec_next_cases h with
  | rdWord | rdFault | wrFault => simp [State.sameOperands]
  | wrLen w hi => simp [State.sameOperands, hi]
  | wrOperand a w r c hi hlo hhi => simpa using fun _ => ⟨a, ⟨w, hi⟩, hlo, hhi⟩
  | wrSample a w off hi ha ho =>
    have hregion : a.toNat / 2 ^ 30 = 1 := by
      have := nmax_le s
      omega
    simpa [State.sameOperands] using fun _ => ⟨a, ⟨w, hi⟩, hregion⟩
  | cadd hi | cmul hi | cexp hi | bfly hi | xform hi | invalidLength hi =>
    have hi := Instr.eq_of_spelling hwf (by decide) hi
    simp [State.sameOperands, hi]
  | illegalCommand w hi => simp [State.sameOperands, hi]

/-- Settles O12, by the row of `Y` and `YLEN` in the write matrix: what the decoder gives is well formed. -/
theorem spectrumChangesOnlyByTransform : Obligations.SpectrumChangesOnlyByTransform := by
  unfold Obligations.SpectrumChangesOnlyByTransform
  intro s t h hr hchange
  rcases step_cases h with ⟨_, rfl⟩ | ⟨draw, rest, hp, _⟩ | ⟨txn, draw, rest, u, hp, hu, rfl⟩
  · simp at hchange
  · exact absurd ⟨draw, rest, hp⟩ hr
  · obtain ⟨-, -, -, -, -, hspectrum, -⟩ := writeMatrix _ s u (everyTransactionDecodes txn).1 hu
    exact ⟨txn, draw, rest, hp, hspectrum hchange⟩

/-! Idempotence (R40). -/

/-- A word that a write finds in place already is still found so after a write behind it. -/
theorem bufferPut_put_of_fixed {b : Buffer} {off off' : Nat} {w : Word} (w' : Word) (h : bufferPut b off w = b)
    (hlt : off < off') : bufferPut (bufferPut b off' w') off w = bufferPut b off' w' := by
  induction b with
  | nil => simp [bufferPut] at h
  | cons e b ih =>
    obtain ⟨k, v⟩ := e
    rcases Nat.lt_trichotomy off k with hk | rfl | hk
    · simp [bufferPut, hk] at h
    · obtain rfl : w = v := by simpa [bufferPut] using h
      simp [bufferPut, hlt.not_gt, hlt.ne']
    · have hb : bufferPut b off w = b := by simpa [bufferPut, hk.not_gt, hk.ne'] using h
      have hk' : k < off' := hk.trans hlt
      simp [bufferPut, hk.not_gt, hk.ne', hk'.not_gt, hk'.ne', ih hb]

theorem bufferPut_putSeq_of_fixed {b : Buffer} {off i : Nat} {w : Word} (zs : List ComplexValue)
    (h : bufferPut b off w = b) (hlt : off < 2 * i) :
    bufferPut (bufferPutSeq b i zs) off w = bufferPutSeq b i zs := by
  induction zs generalizing b i with
  | nil => exact h
  | cons z zs ih =>
    have hre := bufferPut_put_of_fixed z.re h hlt
    have him := bufferPut_put_of_fixed (off' := 2 * i + 1) z.im hre (by omega)
    exact ih him (by omega)

/-- Writing the same sequence again changes nothing, as the offsets rise while it is written. -/
theorem bufferPutSeq_idem (b : Buffer) (i : Nat) (zs : List ComplexValue) :
    bufferPutSeq (bufferPutSeq b i zs) i zs = bufferPutSeq b i zs := by
  induction zs generalizing b i with
  | nil => rfl
  | cons z zs ih =>
    have hre : bufferPut (bufferPutComplex b i z) (2 * i) z.re = bufferPutComplex b i z :=
      bufferPut_put_of_fixed z.im (bufferPut_idem b (2 * i) z.re) (by omega)
    have him : bufferPut (bufferPutComplex b i z) (2 * i + 1) z.im = bufferPutComplex b i z := bufferPut_idem _ _ _
    have hz : bufferPutComplex (bufferPutSeq (bufferPutComplex b i z) (i + 1) zs) i z =
        bufferPutSeq (bufferPutComplex b i z) (i + 1) zs := by
      rw [bufferPutComplex, bufferPut_putSeq_of_fixed zs hre (by omega), bufferPut_putSeq_of_fixed zs him (by omega)]
    rw [bufferPutSeq, bufferPutSeq, hz, ih]

/-- An answer alone changes no word. -/
@[simp] theorem State.readTarget_respond (s : State) (r : Response) (target : Target) :
    (s.respond r).readTarget target = s.readTarget target := by
  cases target with
  | operand r' => cases r' <;> rfl
  | result r' => cases r' <;> rfl
  | cap | cmd | status | len | ylen | sample | spectrum | unmapped => rfl

theorem State.writeTarget_respond_eq_none {s : State} (r : Response) {target : Target} {w : Word}
    (h : s.writeTarget target w = none) : (s.respond r).writeTarget target w = none := by
  cases target <;> simp_all [State.writeTarget]

/-- The same `WR` again stores the same word in the same place. -/
theorem State.writeTarget_idem {s t : State} {target : Target} {w : Word} (h : s.writeTarget target w = some t) :
    (t.respond .okay).writeTarget target w = some (t.respond .okay) := by
  rcases writeTarget_cases h with ⟨rfl, rfl⟩ | ⟨r, c, rfl, rfl⟩ | ⟨i, c, rfl, rfl⟩
  · rfl
  · cases r <;> cases c <;> rfl
  · simp [State.writeTarget, State.writeX, State.respond, bufferPut_idem]

theorem State.writeTarget_nmax {s t : State} {target : Target} {w : Word} (h : s.writeTarget target w = some t) :
    t.nmax = s.nmax := by
  rcases writeTarget_cases h with ⟨_, rfl⟩ | ⟨r, c, _, rfl⟩ | ⟨i, c, _, rfl⟩ <;> simp

/-- A transform computed again from the state it left gives the same spectrum: it changed no sample and no draw. -/
theorem State.spectrum_writeSpectrum_finishCommand (s : State) (n : Word) (out : List ComplexValue) (m : Nat) :
    (s.writeSpectrum n out).finishCommand.spectrum m = s.spectrum m := rfl

theorem execXform_idem {s t : State} (h : execXform s = .next t) : execXform t = .next t := by
  rcases execXform_cases s with ⟨hv, h'⟩ | ⟨hv, h'⟩ <;> rw [h'] at h <;> injection h with h <;> subst h
  · rw [execXform, if_pos (by simpa using hv), State.spectrum_writeSpectrum_finishCommand]
    simp [State.writeSpectrum, State.finishCommand, bufferPutSeq_idem]
  · rw [execXform, if_neg (by simp [hv])]
    rfl

theorem executeCommand_idem {w : Word} {s t : State} (h : executeCommand w s = .next t) :
    executeCommand w t = .next t := by
  rcases executeCommand_cases w s with ⟨rfl, h'⟩ | ⟨rfl, h'⟩ | ⟨rfl, h'⟩ | ⟨rfl, h'⟩ | ⟨rfl, h'⟩ | ⟨hw, h'⟩ <;>
    rw [h'] at h
  case inr.inr.inr.inr.inl => exact execXform_idem h
  all_goals injection h with h; subst h
  case inr.inr.inr.inr.inr => exact executeCommand_of_illegal _ hw
  all_goals rfl

theorem execWr_idem {a : Addr} {w : Word} {s t : State} (h : execWr a w s = .next t) : execWr a w t = .next t := by
  rcases execWr_cases a w s with ⟨rfl, h'⟩ | ⟨u, ha, hu, h'⟩ | ⟨ha, hn, h'⟩ <;> rw [h'] at h
  · exact (exec_wr_cmd t w).trans (executeCommand_idem h)
  all_goals injection h with h; subst h; rw [ne_eq, ← decodeAddr_eq_cmd s.nmax] at ha
  · refine exec_wr_of_writeTarget_some (s := u.respond .okay) (t := u.respond .okay) ?_ ?_ <;>
      rw [State.respond_nmax, State.writeTarget_nmax hu]
    · exact ha
    · exact State.writeTarget_idem hu
  · exact exec_wr_of_writeTarget_none (s := s.raiseAccessFault) ha (State.writeTarget_respond_eq_none .accFault hn)

theorem execRd_idem {a : Addr} {s t : State} (h : execRd a s = .next t) : execRd a t = .next t := by
  rcases execRd_cases a s with ⟨w, hw, h'⟩ | ⟨hn, h'⟩ <;> rw [h'] at h <;> injection h with h <;> subst h
  · exact exec_rd_of_readTarget_some (s := s.respond (.okayData w)) ((s.readTarget_respond _ _).trans hw)
  · exact exec_rd_of_readTarget_none (s := s.raiseAccessFault) ((s.readTarget_respond .accFault _).trans hn)

/-- Settles O13, instruction by instruction: what each writes it does not read, or finds as it wrote it. -/
theorem repeatingATransactionChangesNothing : Obligations.RepeatingATransactionChangesNothing := by
  unfold Obligations.RepeatingATransactionChangesNothing
  intro i s t h
  cases i with
  | rd a => exact execRd_idem h
  | wr a w => exact execWr_idem h
  | cadd => exact executeCommand_idem (w := 1) h
  | cmul => exact executeCommand_idem (w := 2) h
  | cexp => exact executeCommand_idem (w := 3) h
  | bfly => exact executeCommand_idem (w := 4) h
  | xform => exact execXform_idem h

end Sys2Proof.Machine
end

section
/-! PROOFS. RD and WR of words (R33, R34, R43), the address map read backwards (R57), and the command words (R52). -/

namespace Sys2Proof.Machine

/-! Register words. -/

section
variable {s : State} {a : Addr}

theorem exec_wr_len (w : Word) (ha : decodeAddr s.nmax a = .len) :
    exec (.wr a w) s = .next ((s.writeLen w).respond .okay) :=
  exec_wr_of_writeTarget_some (by rw [ha]; simp) (by rw [ha]; rfl)

theorem exec_wr_operand {r : OperandReg} {c : Component} (w : Word) (ha : decodeAddr s.nmax a = .operand r c) :
    exec (.wr a w) s = .next ((s.writeOperand r c w).respond .okay) :=
  exec_wr_of_writeTarget_some (by rw [ha]; simp) (by rw [ha]; rfl)

end

/-- Settles O22: every address of the table names its word. -/
theorem rdReturnsRegisterWord : Obligations.RdReturnsRegisterWord := by
  unfold Obligations.RdReturnsRegisterWord
  intro s reads
  have hreads {a : Addr} {w : Word} (h : s.readTarget (decodeAddr s.nmax a) = some w) : reads a w :=
    ⟨_, exec_rd_of_readTarget_some h, rfl, s.sameFftc_respond _⟩
  exact ⟨hreads rfl, hreads rfl, hreads rfl, hreads rfl, hreads rfl, hreads rfl, hreads rfl, hreads rfl, hreads rfl,
    hreads rfl, hreads rfl, hreads rfl, hreads rfl, hreads rfl⟩

/-- Settles O25: every address of the table names its word, and the write of that word is the update. -/
theorem wrStoresRegisterWord : Obligations.WrStoresRegisterWord := by
  unfold Obligations.WrStoresRegisterWord
  intro s w writes
  have hoperand (r : OperandReg) (c : Component) {a : Addr} (h : decodeAddr s.nmax a = .operand r c) :=
    exec_wr_operand w h
  exact ⟨exec_wr_len w rfl, hoperand .ca .re rfl, hoperand .ca .im rfl, hoperand .cb .re rfl, hoperand .cb .im rfl,
    hoperand .cw .re rfl, hoperand .cw .im rfl⟩

/-- Settles O29: a `WR` to `CMD` executes its word, and each of the five words selects its command. -/
theorem commandWordRunsItsCommand : Obligations.CommandWordRunsItsCommand := by
  unfold Obligations.CommandWordRunsItsCommand
  exact fun s => ⟨exec_wr_cmd s 1, exec_wr_cmd s 2, exec_wr_cmd s 3, exec_wr_cmd s 4, exec_wr_cmd s 5⟩

/-! The address map read backwards. -/

theorem targetAddr_registerTarget : ∀ off < 0x14, registerTarget off ≠ .unmapped →
    targetAddr (registerTarget off) = some (BitVec.ofNat 32 off) := by
  decide

/-- Each address the map gives a meaning is that of the symbol it names. -/
theorem targetAddr_decodeAddr {n : Nat} {a : Addr} (h : decodeAddr n a ≠ .unmapped) :
    targetAddr (decodeAddr n a) = some a := by
  have haddr {off : Nat} (ho : off = a.toNat) : some (BitVec.ofNat 32 off) = some a := by
    rw [ho, BitVec.ofNat_toNat, BitVec.setWidth_eq]
  rcases decodeAddr_cases n a with ⟨_, hd⟩ | ⟨_, _, hd⟩ | ⟨_, _, hd⟩ | ⟨_, _, hd⟩ | ⟨_, hd⟩ <;> rw [hd] at h ⊢
  · have hlt : a.toNat % 2 ^ 30 < 0x14 := by
      by_contra hge
      obtain ⟨k, hk⟩ := Nat.exists_eq_add_of_le' (Nat.not_lt.1 hge)
      exact h (by rw [hk]; rfl)
    rw [targetAddr_registerTarget _ hlt h]
    exact haddr (by omega)
  · rw [targetAddr, wordOffset_split, if_pos (by omega)]
    exact haddr (by omega)
  · rw [targetAddr, wordOffset_split, if_pos (by omega)]
    exact haddr (by omega)
  all_goals exact absurd rfl h

/-- Different addresses name different words (R32). -/
theorem decodeAddr_injective {n : Nat} {a b : Addr} (h : decodeAddr n b = decodeAddr n a)
    (ha : decodeAddr n a ≠ .unmapped) : b = a := by
  have hb := targetAddr_decodeAddr (h ▸ ha)
  rw [h, targetAddr_decodeAddr ha] at hb
  exact (Option.some_inj.1 hb).symm

section
variable (i : Nat) (c : Component)

theorem wordOffset_div : wordOffset i c / 2 = i := by
  cases c <;> simp only [wordOffset] <;> omega

theorem offsetComponent_wordOffset : offsetComponent (wordOffset i c) = c := by
  cases c <;> simp [wordOffset, offsetComponent]

theorem wordOffset_bounds : 2 * i ≤ wordOffset i c ∧ wordOffset i c < 2 * i + 2 := by
  cases c <;> simp [wordOffset]

end

theorem wordOffset_inj {i i' : Nat} {c c' : Component} : wordOffset i c = wordOffset i' c' ↔ i = i' ∧ c = c' := by
  refine ⟨fun h => ⟨?_, ?_⟩, by rintro ⟨rfl, rfl⟩; rfl⟩
  · rw [← wordOffset_div i c, h, wordOffset_div]
  · rw [← offsetComponent_wordOffset i c, h, offsetComponent_wordOffset]

/-- The region and the offset of an address given by both (R32). -/
theorem addrRegion_addrOffset {region off : Nat} (hr : region < 4) (ho : off < 2 ^ 30) :
    addrRegion (BitVec.ofNat 32 (region * 2 ^ 30 + off)) = region ∧
    addrOffset (BitVec.ofNat 32 (region * 2 ^ 30 + off)) = off := by
  rw [addrRegion_eq, addrOffset_eq, BitVec.toNat_ofNat]
  omega

section
variable {n i : Nat} (c : Component) (hn : i < n) (hi : i < 2 ^ 29)
include hn hi

theorem decodeAddr_sample : decodeAddr n (BitVec.ofNat 32 (0x40000000 + wordOffset i c)) = .sample i c := by
  have hb := wordOffset_bounds i c
  obtain ⟨hr, ho⟩ := addrRegion_addrOffset (region := 1) (off := wordOffset i c) (by norm_num) (by omega)
  norm_num at hr ho
  simp only [decodeAddr, hr, ho, if_pos (show wordOffset i c < 2 * n by omega), wordOffset_div,
    offsetComponent_wordOffset]

theorem decodeAddr_spectrum : decodeAddr n (BitVec.ofNat 32 (0x80000000 + wordOffset i c)) = .spectrum i c := by
  have hb := wordOffset_bounds i c
  obtain ⟨hr, ho⟩ := addrRegion_addrOffset (region := 2) (off := wordOffset i c) (by norm_num) (by omega)
  norm_num at hr ho
  simp only [decodeAddr, hr, ho, if_pos (show wordOffset i c < 2 * n by omega), wordOffset_div,
    offsetComponent_wordOffset]

end

/-- Settles O28: a register word by evaluation, a half of an element by its offset in the window. -/
theorem symbolAddressesDecode : Obligations.SymbolAddressesDecode := by
  unfold Obligations.SymbolAddressesDecode
  intro n target a ha hn
  cases target with
  | cap | cmd | status | len | ylen => cases ha; rfl
  | operand r c | result r c => cases r <;> cases c <;> cases ha <;> rfl
  | sample i c =>
    rw [targetAddr, Option.ite_none_right_eq_some, Option.some_inj] at ha
    obtain ⟨hi, rfl⟩ := ha
    exact decodeAddr_sample c (hn i c (.inl rfl)) hi
  | spectrum i c =>
    rw [targetAddr, Option.ite_none_right_eq_some, Option.some_inj] at ha
    obtain ⟨hi, rfl⟩ := ha
    exact decodeAddr_spectrum c (hn i c (.inr rfl)) hi
  | unmapped => cases ha

/-! A word read after a write of the same or of another word. -/

theorem ComplexValue.half_setHalf (z : ComplexValue) (c c' : Component) (w : Word) :
    (z.setHalf c w).half c' = if c' = c then w else z.half c' := by
  cases c <;> cases c' <;> rfl

theorem State.operand_writeOperand (s : State) (r r' : OperandReg) (c : Component) (w : Word) :
    (s.writeOperand r c w).operand r' = if r' = r then (s.operand r).setHalf c w else s.operand r' := by
  cases r <;> cases r' <;> rfl

/-- The word written is read, whatever is still presented at the port and so whatever the draw input. -/
theorem State.readTarget_writeTarget_same {s t : State} {target : Target} {w : Word} (r : Response)
    (rest : List PortEvent) (h : s.writeTarget target w = some t) :
    ((t.respond r).finishEvent rest).readTarget target = some w := by
  rcases writeTarget_cases h with ⟨rfl, rfl⟩ | ⟨r, c, rfl, rfl⟩ | ⟨i, c, rfl, rfl⟩
  · rfl
  · cases r <;> cases c <;> rfl
  · simp [State.readTarget, State.xWord]

theorem State.readTarget_writeTarget_other {s t : State} {target target' : Target} {w : Word}
    (h : s.writeTarget target w = some t) (hne : target' ≠ target) : t.readTarget target' = s.readTarget target' := by
  rcases writeTarget_cases h with ⟨rfl, rfl⟩ | ⟨r, c, rfl, rfl⟩ | ⟨i, c, rfl, rfl⟩
  · cases target' with
    | len => exact absurd rfl hne
    | operand r' => cases r' <;> rfl
    | result r' => cases r' <;> rfl
    | cap | cmd | status | ylen | sample | spectrum | unmapped => rfl
  · cases target' with
    | operand r' c' =>
      simp only [State.readTarget, State.operand_writeOperand]
      by_cases hr : r' = r
      · have hc : c' ≠ c := fun hc => hne (by rw [hr, hc])
        rw [if_pos hr, ComplexValue.half_setHalf, if_neg hc, hr]
      · rw [if_neg hr]
    | result r' => cases r' <;> simp [State.readTarget, State.result]
    | cap | cmd | status | len | ylen | sample | spectrum | unmapped => simp [State.readTarget, State.capWord]
  · cases target' with
    | sample i' c' =>
      have hoff : wordOffset i' c' ≠ wordOffset i c := fun h => by
        obtain ⟨rfl, rfl⟩ := wordOffset_inj.1 h
        exact hne rfl
      simp only [State.readTarget, State.writeX_xWord, if_neg hoff]
    | operand r' => cases r' <;> rfl
    | result r' => cases r' <;> rfl
    | cap | cmd | status | len | ylen | spectrum | unmapped => rfl

/-- An `RD` answers with what is read at the word the address names. -/
theorem exec_rd_response {s s' t t' : State} {a : Addr} (hn : s'.nmax = s.nmax)
    (hread : s'.readTarget (decodeAddr s.nmax a) = s.readTarget (decodeAddr s.nmax a))
    (h : exec (.rd a) s = .next t) (h' : exec (.rd a) s' = .next t') : t'.response = t.response := by
  rw [← hn] at hread
  rw [exec, execRd] at h h'
  rw [hread, hn] at h'
  cases hw : s.readTarget (decodeAddr s.nmax a) <;> rw [hw] at h h' <;> injection h with h <;> injection h' with h' <;>
    subst h h' <;> rfl

/-- Settles O27: the two addresses name different words, and a write of one leaves what is read at the other. -/
theorem writeLeavesOtherWords : Obligations.WriteLeavesOtherWords := by
  unfold Obligations.WriteLeavesOtherWords
  intro s t u v a b w ha hne hwr hu hv
  rcases execWr_cases a w s with ⟨hc, _⟩ | ⟨t', _, ht, h'⟩ | ⟨_, _, h'⟩
  · exact absurd hc ha
  all_goals rw [exec, h'] at hwr; injection hwr with hwr; subst hwr
  · have hmapped : decodeAddr s.nmax a ≠ .unmapped := fun hd => by rw [hd] at ht; cases ht
    have htarget : decodeAddr s.nmax b ≠ decodeAddr s.nmax a := fun h =>
      hne (decodeAddr_injective h hmapped)
    have hnmax := (t'.respond_nmax .okay).trans (State.writeTarget_nmax ht)
    refine exec_rd_response hnmax ?_ hu hv
    rw [State.readTarget_respond, State.readTarget_writeTarget_other ht htarget]
  · exact exec_rd_response rfl (s.readTarget_respond .accFault _) hu hv

/-! Two transactions, one after the other. -/

theorem exec_of_step_txn {s t : State} {i : Instr} {draw : Nat} {rest : List PortEvent}
    (hp : s.pending = .txn (encode i) draw :: rest) (hwf : i.wellFormed = true) (h : step s = .next t) :
    ∃ u, exec i s = .next u ∧ t = u.finishEvent rest := by
  obtain ⟨u, hu⟩ := exists_exec_next i s
  rw [step_of_txn hp (by rwa [decodeTxn_encode hwf])] at h
  injection h with h
  exact ⟨u, hu, h.symm⟩

/-- Settles O26: a `WR` answered `OKAY` wrote the word its address names, and the `RD` finds it there. -/
theorem readReturnsLatestWrite : Obligations.ReadReturnsLatestWrite := by
  unfold Obligations.ReadReturnsLatestWrite
  intro s t u a w d₁ d₂ rest hp ha ht hok hu
  obtain ⟨t', hwr, rfl⟩ := exec_of_step_txn hp (Instr.wellFormed_wr_iff.2 fun h => absurd h ha) ht
  rcases execWr_cases a w s with ⟨hc, _⟩ | ⟨t₀, _, hw, h'⟩ | ⟨_, _, h'⟩
  · exact absurd hc ha
  all_goals rw [exec, h'] at hwr; injection hwr with hwr; subst hwr
  · obtain ⟨u', hrd, rfl⟩ := exec_of_step_txn (State.finishEvent_pending _ _) rfl hu
    have hread := State.readTarget_writeTarget_same .okay (.txn (encode (.rd a)) d₂ :: rest) hw
    rw [← State.writeTarget_nmax hw] at hread
    rw [exec_rd_of_readTarget_some hread] at hrd
    injection hrd with hrd
    subst hrd
    rfl
  · cases hok

end Sys2Proof.Machine
end

section
/-! PROOFS. What a command reads (R13, R20), and that its results can be read by the very next transaction (R144). -/

namespace Sys2Proof.Machine

/-- Settles O38: the one next state of each command holds a result computed from those operands and those draws. -/
theorem commandsReadOnlyTheirOperands : Obligations.CommandsReadOnlyTheirOperands := by
  unfold Obligations.CommandsReadOnlyTheirOperands
  intro s s' hd ha
  have hdraw : s.draw = s'.draw := congrArg Config.nanDraw hd
  refine ⟨?cexp, fun hb => ⟨?cadd, ?cmul, fun hw => ?bfly⟩⟩ <;> rintro t t' ⟨⟩ ⟨⟩
  case cexp => simp [hdraw, ha]
  case cadd | cmul => simp [hdraw, ha, hb]
  case bfly => simp [hdraw, ha, hb, hw]

/-! XFORM. -/

/-- A successful `XFORM` had a valid length, and wrote the spectrum of its samples. -/
theorem exec_xform_of_okay {s t : State} (h : exec .xform s = .next t) (hok : t.response = some .okay) :
    ∃ p, p ≤ s.log2Nmax.val ∧ s.len.toNat = 2 ^ p ∧ t = (s.writeSpectrum s.len (s.spectrum (2 ^ p))).finishCommand := by
  rcases execXform_cases s with ⟨hv, h'⟩ | ⟨_, h'⟩ <;> rw [exec, h'] at h <;> injection h with h <;> subst h
  · obtain ⟨p, hp, hlen⟩ := (validLen_iff _ _).1 hv
    exact ⟨p, hp, hlen, by rw [hlen]⟩
  · cases hok

/-- A spectrum is a function of the draws and of the samples below its length (R20). -/
theorem State.spectrum_congr {s s' : State} {n : Nat} (hd : s.drawInput = s'.drawInput)
    (hx : ∀ j, j < n → s.xElem j = s'.xElem j) : s.spectrum n = s'.spectrum n := by
  have hdraw : s.draw = s'.draw := congrArg Config.nanDraw hd
  have hsamples : s.samples n = s'.samples n := List.map_congr_left fun j hj => hx j (List.mem_range.1 hj)
  rw [State.spectrum, State.spectrum, hdraw, hsamples]

/-- `Y[k]` after a transform is element `k` of the spectrum (R101). -/
theorem State.yElem_of_spectrum (s : State) {p k : Nat} (hk : k < 2 ^ p) :
    some ((s.writeSpectrum s.len (s.spectrum (2 ^ p))).finishCommand.yElem k) = (s.spectrum (2 ^ p))[k]? := by
  have hout : k < (s.spectrum (2 ^ p)).length := hk.trans_eq (s.spectrum_length p).symm
  rw [List.getElem?_eq_getElem hout, ← s.writeSpectrum_yElem s.len _ hout]
  rfl

/-- Settles O39: the same length is valid in both states, and the same spectrum is written. -/
theorem xformReadsOnlyItsSamples : Obligations.XformReadsOnlyItsSamples := by
  unfold Obligations.XformReadsOnlyItsSamples
  intro s s' t t' hd hn hlen hx h h' hok
  obtain ⟨p, hp, hp2, rfl⟩ := exec_xform_of_okay h hok
  have hvalid : validLen s'.nmax s'.len.toNat = true := (validLen_iff _ _).2 ⟨p, hn ▸ hp, hlen ▸ hp2⟩
  rw [exec_xform_of_valid hvalid, ← hlen, hp2] at h'
  injection h' with h'
  subst h'
  rw [hp2] at hx ⊢
  refine ⟨rfl, rfl, fun k hk => Option.some_inj.1 ?_⟩
  rw [s.yElem_of_spectrum hk, State.spectrum_congr hd hx, hlen, s'.yElem_of_spectrum hk]

/-- Settles O37: the spectrum of one sample is that sample (R95). -/
theorem lengthOneCopiesTheSample : Obligations.LengthOneCopiesTheSample := by
  unfold Obligations.LengthOneCopiesTheSample
  intro s hlen
  have hone : s.len.toNat = 2 ^ 0 := by rw [hlen]; rfl
  have hexec := exec_xform_of_valid ((validLen_iff _ _).2 ⟨0, Nat.zero_le _, hone⟩)
  rw [hone] at hexec
  refine ⟨_, hexec, Option.some_inj.1 ?_, hlen, rfl, rfl⟩
  rw [s.yElem_of_spectrum (Nat.two_pow_pos 0)]
  rfl

/-! The next transaction. -/

/-- An instruction and an `RD` of `a`, one after the other (R144), from what the instruction leaves at that word. -/
theorem exists_steps_rd {s t : State} {i : Instr} {a : Addr} {w : Word} {d₁ d₂ : Nat} {rest : List PortEvent}
    (hp : s.pending = .txn (encode i) d₁ :: .txn (encode (.rd a)) d₂ :: rest) (hwf : i.wellFormed = true)
    (hi : exec i s = .next t)
    (hread : (t.finishEvent (.txn (encode (.rd a)) d₂ :: rest)).readTarget (decodeAddr t.nmax a) = some w) :
    ∃ t u, step s = .next t ∧ step t = .next u ∧ u.response = some (.okayData w) := by
  have hrd := exec_rd_of_readTarget_some hread
  exact ⟨_, _, step_of_txn hp (by rwa [decodeTxn_encode hwf]),
    step_of_txn (State.finishEvent_pending _ _) (by rwa [decodeTxn_encode rfl]), rfl⟩

/-- `Y[k]` below `YLEN` is read as what is stored there. -/
theorem State.readTarget_spectrum_of_written {t : State} {k : Nat} {c : Component} {w : Word} (hk : k < t.ylen.toNat)
    (hw : bufferWord t.y (wordOffset k c) = some w) : t.readTarget (.spectrum k c) = some w := by
  rw [State.readTarget, if_pos hk, State.yWord, hw]
  rfl

theorem bufferWord_putSeq_half (b : Buffer) {zs : List ComplexValue} {k : Nat} {z : ComplexValue}
    (hz : zs[k]? = some z) (c : Component) : bufferWord (bufferPutSeq b 0 zs) (wordOffset k c) = some (z.half c) := by
  obtain ⟨hk, rfl⟩ := List.getElem?_eq_some_iff.1 hz
  have hre := bufferWord_putSeq_re b 0 k zs hk
  have him := bufferWord_putSeq_im b 0 k zs hk
  rw [Nat.zero_add] at hre him
  cases c
  · exact hre
  · exact him

/-- Each half of the spectrum is read at its word of `Y` after the transform, whatever is still presented. -/
theorem State.readTarget_spectrum_of_xform {s : State} {p k : Nat} {z : ComplexValue} (hlen : s.len.toNat = 2 ^ p)
    (hk : k < 2 ^ p) (hz : (fft s.draw p (s.samples (2 ^ p)))[k]? = some z) (c : Component) (rest : List PortEvent) :
    ((s.writeSpectrum s.len (s.spectrum s.len.toNat)).finishCommand.finishEvent rest).readTarget (.spectrum k c) =
      some (z.half c) := by
  rw [hlen, s.spectrum_two_pow]
  exact State.readTarget_spectrum_of_written (hk.trans_eq hlen.symm) (bufferWord_putSeq_half s.y hz c)

/-- Settles O40: what each command wrote stands in the state that the `RD` is performed in. -/
theorem resultReadableByNextTransaction : Obligations.ResultReadableByNextTransaction := by
  unfold Obligations.ResultReadableByNextTransaction
  intro s d₁ d₂ rest d readsNext
  have hstatus : some statusSuccess = some 1 := congrArg some statusSuccess_eq
  have hnext {i : Instr} {a : Addr} {w : Word} {t : State} (hwf : i.wellFormed = true)
      (hi : exec i { s with pending := .txn (encode i) d₁ :: .txn (encode (.rd a)) d₂ :: rest } = .next t)
      (hread : (t.finishEvent (.txn (encode (.rd a)) d₂ :: rest)).readTarget (decodeAddr t.nmax a) = some w) :
      readsNext i a w := exists_steps_rd rfl hwf hi hread
  have hcadd {a : Addr} {w : Word} := hnext (i := .cadd) (a := a) (w := w) rfl rfl
  have hcmul {a : Addr} {w : Word} := hnext (i := .cmul) (a := a) (w := w) rfl rfl
  have hcexp {a : Addr} {w : Word} := hnext (i := .cexp) (a := a) (w := w) rfl rfl
  have hbfly {a : Addr} {w : Word} := hnext (i := .bfly) (a := a) (w := w) rfl rfl
  refine ⟨⟨hcadd rfl, hcadd rfl, hcadd hstatus⟩, ⟨hcmul rfl, hcmul rfl, hcmul hstatus⟩,
    ⟨hcexp rfl, hcexp rfl, hcexp hstatus⟩, ⟨hbfly rfl, hbfly rfl, hbfly rfl, hbfly rfl, hbfly hstatus⟩,
    fun p hp hlen => ?_⟩
  have hvalid := (validLen_iff _ _).2 ⟨p, hp, hlen⟩
  have hxform {a : Addr} {w : Word} := hnext (i := .xform) (a := a) (w := w) rfl (exec_xform_of_valid hvalid)
  refine ⟨hxform rfl, hxform hstatus, fun k hk => ?_⟩
  have hle : 2 ^ p ≤ s.nmax := Nat.pow_le_pow_right Nat.two_pos hp
  have haddr (c : Component) : decodeAddr s.nmax (BitVec.ofNat 32 (0x80000000 + wordOffset k c)) = .spectrum k c :=
    decodeAddr_spectrum c (hk.trans_le hle) ((hk.trans_le hle).trans_le (nmax_le s))
  have hz := List.getElem?_eq_getElem (hk.trans_eq (fft_length d
    (({ s with pending := [.txn (encode .xform) d₁] } : State).samples_length (2 ^ p))).symm)
  have hhalf (c : Component) := hxform ((congrArg _ (haddr c)).trans
    (State.readTarget_spectrum_of_xform (s := { s with pending := .txn _ d₁ :: _ }) hlen hk hz c _))
  exact ⟨_, hz, hhalf .re, hhalf .im⟩

end Sys2Proof.Machine
end

section
/-! PROOFS. The number system: produced NaNs (R71), decimal literals (R57), and the twiddle angle (R91). -/

namespace Sys2Proof.Machine

/-! Produced NaNs. -/

/-- The bits that make a word a quiet NaN (R71). -/
theorem getLsbD_quietNaN_mask : ∀ i < 64, (0x7FF8000000000000 : Word).getLsbD i = decide (51 ≤ i ∧ i < 63) := by
  decide

theorem getLsbD_of_isQuietNaN {q : Word} (h : isQuietNaN q = true) {i : Nat} (hlo : 51 ≤ i) (hhi : i < 63) :
    q.getLsbD i = true := by
  simp only [isQuietNaN, isNaN, Bool.and_eq_true, beq_iff_eq] at h
  obtain ⟨⟨hexp, _⟩, h51⟩ := h
  rcases hlo.eq_or_lt with rfl | hlt
  · exact h51
  · have hbit : (fexp q).testBit (i - 52) = true := by
      rw [hexp, Nat.testBit_two_pow_sub_one (n := 11), decide_eq_true_eq]
      omega
    rw [fexp, Nat.testBit_mod_two_pow, Nat.testBit_div_two_pow, Nat.sub_add_cancel hlt, Bool.and_eq_true] at hbit
    exact hbit.2

/-- Every quiet NaN may be drawn: as the raw word it gives itself. -/
theorem quietNaN_of_isQuietNaN {q : Word} (h : isQuietNaN q = true) : quietNaN q = q := by
  refine BitVec.eq_of_getLsbD_eq fun i hi => ?_
  rw [quietNaN, BitVec.getLsbD_or, getLsbD_quietNaN_mask i hi]
  by_cases hm : 51 ≤ i ∧ i < 63
  · rw [getLsbD_of_isQuietNaN h hm.1 hm.2, Bool.true_or]
  · rw [decide_eq_false hm, Bool.or_false]

section
variable {r a b : Word}

/-- Without a NaN operand or an invalid operation a sum is no NaN. -/
theorem isNaN_fadd_of_valid (h : ¬(isNaN a = true ∨ isNaN b = true ∨ addInvalid a b)) : isNaN (fadd r a b) = false := by
  obtain ⟨ha, hb, hv⟩ : isNaN a = false ∧ isNaN b = false ∧ ¬ addInvalid a b := by simpa [not_or] using h
  rcases isInf_or_isFinite ha with hia | hfa
  · rwa [fadd_inf_left hia hb hv]
  · rcases isInf_or_isFinite hb with hib | hfb
    · rwa [fadd_inf_right hib ha (mt addInvalid_comm.1 hv)]
    · rw [fadd_fin r a b hfa hfb]
      exact roundSum_notNaN _ _

theorem isNaN_fsub_of_valid (h : ¬(isNaN a = true ∨ isNaN b = true ∨ subInvalid a b)) : isNaN (fsub r a b) = false := by
  rw [fsub_eq_fadd_fneg]
  rw [subInvalid_iff_addInvalid_fneg, ← isNaN_fneg b] at h
  exact isNaN_fadd_of_valid h

theorem isNaN_fmul_of_valid (h : ¬(isNaN a = true ∨ isNaN b = true ∨ mulInvalid a b)) : isNaN (fmul r a b) = false := by
  obtain ⟨ha, hb, hv⟩ : isNaN a = false ∧ isNaN b = false ∧ ¬ mulInvalid a b := by simpa [not_or] using h
  rcases isInf_or_isFinite ha with hia | hfa
  · rw [fmul_inf_left hia hb (by simpa using fun hz => hv (.inr ⟨hia, hz⟩))]
    exact roundMag_notNaN _ _ (by norm_num)
  · rcases isInf_or_isFinite hb with hib | hfb
    · rw [fmul_inf_right hib ha (by simpa using fun hz => hv (.inl ⟨hz, hib⟩))]
      exact roundMag_notNaN _ _ (by norm_num)
    · rw [fmul_fin r a b hfa hfb]
      exact roundMag_notNaN _ _ (roundMag_le _ _)

end

theorem getLsbD_signMask : ∀ i < 64, (0x8000000000000000 : Word).getLsbD i = decide (i = 63) := by
  decide

theorem getLsbD_fneg (a : Word) {i : Nat} (hi : i < 64) : (fneg a).getLsbD i = (a.getLsbD i != decide (i = 63)) := by
  rw [fneg, BitVec.getLsbD_xor, getLsbD_signMask i hi]

/-- Settles O45: an operation draws its NaN, from any quiet NaN, in exactly those cases, and depends on no draw else. -/
theorem naNResultsAreFreeQuietNaNs : Obligations.NaNResultsAreFreeQuietNaNs := by
  unfold Obligations.NaNResultsAreFreeQuietNaNs
  intro free
  have hfree (op : Word → Word → Word → Word) (invalid : Word → Word → Prop)
      (hnan : ∀ r a b, isNaN a = true ∨ isNaN b = true ∨ invalid a b → op r a b = quietNaN r)
      (hvalid : ∀ r a b, ¬(isNaN a = true ∨ isNaN b = true ∨ invalid a b) → isNaN (op r a b) = false)
      (hdraw : ∀ r r' a b, isNaN (op r a b) = false → op r' a b = op r a b) : free op invalid := by
    refine fun a b => ⟨fun h => ⟨fun r => ?_, fun q hq => ?_⟩, fun h r r' => ⟨hvalid r a b h, ?_⟩⟩
    · rw [hnan r a b h]
      exact isQuiet_quietNaN r
    · rw [hnan q a b h, quietNaN_of_isQuietNaN hq]
    · exact hdraw r' r a b (hvalid r' a b h)
  refine ⟨?_, ?_, ?_, fun a i hi => getLsbD_fneg a hi⟩
  · exact hfree _ _ fadd_nan (fun _ _ _ h => isNaN_fadd_of_valid h) fun _ r' _ _ h => (fadd_of_not_nan r' h).1
  · exact hfree _ _ fsub_nan (fun _ _ _ h => isNaN_fsub_of_valid h) fun _ r' _ _ h => (fsub_of_not_nan r' h).1
  · exact hfree _ _ fmul_nan (fun _ _ _ h => isNaN_fmul_of_valid h) fun _ r' _ _ h => (fmul_of_not_nan r' h).1

/-! Decimal literals. -/

theorem natAbs_signed (s : Bool) (n : Nat) : (if s then -(n : Int) else n).natAbs = n := by
  cases s <;> simp

/-- Settles O20: the literal is the exact decimal value rounded once, under the literal's sign. -/
theorem decimalLiteralIsNearest : Obligations.DecimalLiteralIsNearest := by
  unfold Obligations.DecimalLiteralIsNearest
  intro d n v scale hv
  have habs : v.natAbs = n := natAbs_signed d.negative n
  have hsign : v = if d.negative then -(v.natAbs : Int) else v.natAbs := by rw [habs]
  have hscale : 0 < scale := Nat.pow_pos (by norm_num)
  obtain ⟨hfin, hround⟩ := withSign_roundMag_nearest hscale hsign hv
  rw [habs] at hfin hround
  exact ⟨hfin, hround, fsign_withSign _ _ (roundMag_lt _ _)⟩

/-! `cexp` of an imaginary number, and the angle. -/

/-- Settles O48: `EXPF` of a zero is 1.0, and multiplying by 1.0 changes no word that is no NaN. -/
theorem cexpOfImaginaryIsCosSin : Obligations.CexpOfImaginaryIsCosSin := by
  unfold Obligations.CexpOfImaginaryIsCosSin
  exact fun d r z hre him => cexp_of_isZero_re d r hre him

section
variable {k m : Nat}

theorem roundedTo_theta (hk : k < 2 ^ m) :
    roundedTo (-(fmag 0x401921FB54442D18 * k : Nat)) (2 ^ m) (theta k m) := by
  have hfin := isFinite_theta hk
  rw [theta_eq] at hfin ⊢
  exact roundedTo_withSign true _ _ (Nat.two_pow_pos m) hfin _ rfl

/-- Dividing `TWO_PI` by `n` changes its exponent alone, so the one rounding is that of the product (R91). -/
theorem theta_eq_fmul (r : Word) (hm : m ≤ 29) (hk : k < 2 ^ 53) :
    theta k m = fneg (fmul r (u2f k) (0x401921FB54442D18 - BitVec.ofNat 64 (m * 2 ^ 52))) := by
  obtain ⟨hkf, hkm, hks⟩ := u2f_fin k hk
  obtain ⟨hwf, hws, hwm⟩ := scaled_twoPi m hm
  have hround (c : Nat) (hc : 0 < c) (x : Nat) : roundMag (x * c) c = roundMag x 1 := by
    have h := roundMag_scale x 1 c hc
    rwa [Nat.one_mul] at h
  rw [fmul_fin r _ _ hkf hwf, hks, hws, hkm, theta, twoPi, ← hwm, Nat.mul_right_comm, hround _ (Nat.two_pow_pos m),
    Nat.mul_right_comm, hround _ (Nat.two_pow_pos 1074), Nat.mul_comm]
  rfl

/-- Two neighbouring magnitudes whose gap is small against `n/2` of them: `k` below `n/2` stays below both. -/
theorem two_mul_mul_le_of_gap {P Q : Nat} (hgap : (P - Q) * 2 ^ 29 < P) (hQ : Q < P) (h1 : 1 ≤ m) (hm : m ≤ 29)
    (hk : k < 2 ^ (m - 1)) : 2 * P * k ≤ Q * 2 ^ m := by
  obtain ⟨g, rfl⟩ := Nat.exists_eq_add_of_le hQ.le
  rw [Nat.add_sub_cancel_left] at hgap
  have hg : g * 2 ^ m < Q + g := (Nat.mul_le_mul_left g (Nat.pow_le_pow_right Nat.two_pos hm)).trans_lt hgap
  have hpow : 2 ^ m = 2 * 2 ^ (m - 1) := by rw [← Nat.pow_succ', Nat.succ_eq_add_one, Nat.sub_add_cancel h1]
  have hstep : (Q + g) * (k + 1) ≤ (Q + g) * 2 ^ (m - 1) := Nat.mul_le_mul_left _ hk
  rw [hpow] at hg ⊢
  linarith

/-- The exact angle below `k = n/2` does not pass the number before `pi` (R91). -/
theorem fmag_theta_lt (h1 : 1 ≤ m) (hm : m ≤ 29) (hk : k < 2 ^ (m - 1)) :
    fmag (theta k m) < fmag 0x400921FB54442D18 := by
  have hle := two_mul_mul_le_of_gap pi_gap pi_pred_lt h1 hm hk
  rw [← fmag_twoPi] at hle
  have hround := roundMag_le_of_le _ _ _ (Nat.two_pow_pos m) hle
  rw [theta_eq, fmag_withSign _ _ (roundMag_lt _ _), fmag_eq_magOf 0x400921FB54442D18, pi_mod]
  exact magOf_strictMono (Nat.lt_succ_of_le hround)

end

/-- Settles O49, fact by fact. -/
theorem twiddleAngle : Obligations.TwiddleAngle := by
  unfold Obligations.TwiddleAngle
  intro r k m h1 hm hk
  have hlt : k < 2 ^ m := hk.trans_le (Nat.pow_le_pow_right Nat.two_pos (Nat.sub_le m 1))
  have hlt53 : k < 2 ^ 53 := hlt.trans_le (Nat.pow_le_pow_right Nat.two_pos (by omega))
  exact ⟨roundedTo_theta hlt, (theta_double k m).symm, theta_eq_fmul r hm hlt53, theta_zero m, isFinite_theta hlt,
    fmag_theta_lt h1 hm hk⟩

end Sys2Proof.Machine
end

section
/-! PROOFS. The transform: a function up to NaN draws (R74, R99), the known pair, and the DC component of a constant
input (41_fft_engine.md section 8). -/

namespace Sys2Proof.Machine

/-! The draws. -/

/-- Settles O55, function by function. -/
theorem transformIsAFunctionUpToNaN : Obligations.TransformIsAFunctionUpToNaN := by
  unfold Obligations.TransformIsAFunctionUpToNaN
  refine fun d d' => ⟨fun a b w => ?_, fun p x h k z hz => fft_agrees d d' h hz⟩
  have ha := agreesUpToNaN_refl a
  have hb := agreesUpToNaN_refl b
  exact ⟨cadd_agrees d d' ha hb, csub_agrees d d' ha hb, cmul_agrees d d' ha hb, cexp_agrees d d' a,
    bfly_agrees d d' ha hb (agreesUpToNaN_refl w)⟩

/-- Settles O57: the cascade is the recursion over any butterfly, so also over one that draws by its place. -/
theorem cascadeEqualsRecursionNaNsIncluded : Obligations.CascadeEqualsRecursionNaNsIncluded := by
  unfold Obligations.CascadeEqualsRecursionNaNsIncluded
  exact fun d p x h => cascadeWith_eq_fftWith (fftBfly d) h

/-! The known pairs. -/

theorem eq_of_agreesUpToNaN {z z' : ComplexValue} (hn : noNaN z) (h : agreesUpToNaN z z') : z' = z :=
  congrArg₂ ComplexValue.mk (h .re hn.1) (h .im hn.2)

/-- A transform whose elements are no NaNs is the same whatever the draws (R99). -/
theorem fft_eq_of_noNaN (d d' : Draw) {p : Nat} {x : List ComplexValue} (h : x.length = 2 ^ p)
    (hn : ∀ z ∈ fft d' p x, noNaN z) : fft d p x = fft d' p x := by
  refine List.ext_getElem? fun k => ?_
  rcases Nat.lt_or_ge k (2 ^ p) with hk | hk
  · have hz := List.getElem?_eq_getElem (hk.trans_eq (fft_length d' h).symm)
    obtain ⟨z', hz', ha⟩ := fft_agrees d' d h hz
    rw [hz', hz, eq_of_agreesUpToNaN (hn _ (List.getElem_mem _)) ha]
  · rw [List.getElem?_eq_none ((fft_length d h).trans_le hk), List.getElem?_eq_none ((fft_length d' h).trans_le hk)]

/-- Settles O56: evaluated for one choice of draws, and no element is a NaN. -/
theorem knownTransformPair : Obligations.KnownTransformPair := by
  unfold Obligations.KnownTransformPair
  refine fun d => ⟨(fft_eq_of_noNaN d (fun _ => 0) rfl ?noNaN₁).trans ?pair₁,
    (fft_eq_of_noNaN d (fun _ => 0) rfl ?noNaN₂).trans ?pair₂⟩
  case noNaN₁ | noNaN₂ => unfold noNaN; decide +kernel
  case pair₁ | pair₂ => decide +kernel

/-! Exact values. -/

/-- A finite number whose value is exactly `v` units of 2^-1074; a zero of either sign has the value 0. -/
def HasValue (w : Word) (v : Int) : Prop := isFinite w = true ∧ fval w = v

/-- Some finite number has the value `v`. -/
def Representable (v : Int) : Prop := ∃ w, HasValue w v

section
variable {r a b : Word} {u v : Int}

theorem hasValue_zero_iff : HasValue a 0 ↔ isZero a = true := by
  rw [HasValue, fval_eq_zero]
  exact ⟨And.right, fun h => ⟨isZero_fin h, h⟩⟩

theorem hasValue_fneg (h : HasValue a v) : HasValue (fneg a) (-v) :=
  ⟨(isFinite_fneg a).trans h.1, by rw [fval_fneg, h.2]⟩

theorem representable_zero : Representable 0 := ⟨0, hasValue_zero_iff.2 rfl⟩

/-- A sum with a representable exact value is that value (R66). -/
theorem hasValue_fadd (ha : HasValue a u) (hb : HasValue b v) (hr : Representable (u + v)) :
    HasValue (fadd r a b) (u + v) := by
  obtain ⟨e, hef, hev⟩ := hr
  rw [fadd_fin r a b ha.1 hb.1, ha.2, hb.2]
  cases hz : isZero e with
  | true =>
    rw [← hev, (fval_eq_zero e).2 hz, roundSum, if_pos rfl, hasValue_zero_iff]
    exact isZero_withSign_zero _
  | false =>
    rw [← hev, roundSum_exact e _ hef hz]
    exact ⟨hef, rfl⟩

theorem hasValue_fsub (ha : HasValue a u) (hb : HasValue b v) (hr : Representable (u - v)) :
    HasValue (fsub r a b) (u - v) := by
  rw [fsub_eq_fadd_fneg]
  exact hasValue_fadd ha (hasValue_fneg hb) hr

theorem hasValue_fmul_zero_left (ha : isZero a = true) (hb : isFinite b = true) : HasValue (fmul r a b) 0 :=
  hasValue_zero_iff.2 (fmul_zero_left ha hb)

theorem hasValue_fmul_zero_right (ha : isFinite a = true) (hb : isZero b = true) : HasValue (fmul r a b) 0 := by
  rw [hasValue_zero_iff, fmul_fin r a b ha (isZero_fin hb), (fmag_eq_zero b).2 hb, Nat.mul_zero,
    roundMag_zero (Nat.two_pow_pos 1074)]
  exact isZero_withSign_zero _

end

/-! Doubling. -/

/-- The double of a magnitude is a magnitude: the exponent rises by one, or a subnormal is shifted. -/
theorem exists_magOf_double (b : Nat) : ∃ b', magOf b' = 2 * magOf b := by
  rcases Nat.lt_or_ge b (2 ^ 52) with h | h
  · refine ⟨2 * b, ?_⟩
    have hb := magOf_bits 0 b (.inl rfl) (by omega)
    have hb' := magOf_bits 0 (2 * b) (.inl rfl) (by omega)
    rw [Nat.zero_mul, Nat.zero_add, Nat.pow_zero, Nat.mul_one] at hb hb'
    rw [hb, hb']
  · obtain ⟨k, m, hm, hm', rfl⟩ : ∃ k m, 2 ^ 52 ≤ m ∧ m ≤ 2 ^ 53 ∧ b = k * 2 ^ 52 + m :=
      ⟨b / 2 ^ 52 - 1, b % 2 ^ 52 + 2 ^ 52, by omega, by omega, by omega⟩
    refine ⟨(k + 1) * 2 ^ 52 + m, ?_⟩
    rw [magOf_bits k m (.inr hm) hm', magOf_bits (k + 1) m (.inr hm) hm', Nat.pow_succ]
    ring

/-- What is representable and has a double up to the largest finite magnitude has a representable double. -/
theorem representable_double {v : Int} (h : Representable v) (hmax : 2 * v.natAbs ≤ fmag 0x7FEFFFFFFFFFFFFF) :
    Representable (2 * v) := by
  obtain ⟨e, _, rfl⟩ := h
  obtain ⟨b', hb'⟩ := exists_magOf_double (e.toNat % 2 ^ 63)
  rw [natAbs_fval, fmag_eq_magOf, ← hb', fmag_eq_magOf] at hmax
  have hle := magOf_strictMono.le_iff_le.1 hmax
  have hlt : b' < 0x7FF * 2 ^ 52 := lt_of_le_of_lt hle (by decide)
  refine ⟨withSign (fsign e) b', (isFinite_withSign _ _ (by omega)).2 hlt, ?_⟩
  rw [fval_withSign _ _ (by omega), hb', fval_eq_magOf]
  split <;> push_cast <;> ring

theorem representable_two_pow_mul {c : Word} (hc : isFinite c = true) {p : Nat}
    (hmax : 2 ^ p * fmag c ≤ fmag 0x7FEFFFFFFFFFFFFF) : Representable (2 ^ p * fval c) := by
  induction p with
  | zero => exact ⟨c, hc, by ring⟩
  | succ p ih =>
    rw [Nat.pow_succ', Nat.mul_assoc] at hmax
    have habs : ((2 : Int) ^ p * fval c).natAbs = 2 ^ p * fmag c := by
      rw [Int.natAbs_mul, natAbs_fval, Int.natAbs_pow]
      rfl
    have hdouble := representable_double (ih (by omega)) (by rwa [habs])
    rwa [pow_succ', mul_assoc]

/-! A butterfly on exact values. -/

/-- The exact values of the two components. -/
def HasValues (z : ComplexValue) (a b : Int) : Prop := HasValue z.re a ∧ HasValue z.im b

section
variable {d : Draw} {g u w : ComplexValue} {a b : Int}

/-- The factor of butterfly 0, `(1.0, -0)` (R92), changes no value. -/
theorem hasValues_cmul_one {z : Word} (hz : isZero z = true) (hu : HasValues u a b) :
    HasValues (cmul d ⟨0x3FF0000000000000, z⟩ u) a b := by
  obtain ⟨hre, him⟩ := hu
  have h1 := hasValue_fsub (r := d [4]) hre (hasValue_fmul_zero_left (r := d [1]) hz him.1)
    (by rw [sub_zero]; exact ⟨_, hre⟩)
  have h2 := hasValue_fadd (r := d [5]) him (hasValue_fmul_zero_left (r := d [3]) hz hre.1)
    (by rw [add_zero]; exact ⟨_, him⟩)
  rw [sub_zero] at h1
  rw [add_zero] at h2
  simp only [cmul, fmul_one_left (isFinite_kinds _ hre.1).1, fmul_one_left (isFinite_kinds _ him.1).1]
  exact ⟨h1, h2⟩

/-- Any finite factor of zeros. -/
theorem hasValues_cmul_zero (hw : bothFinite w) (hu : HasValues u 0 0) : HasValues (cmul d w u) 0 0 := by
  obtain ⟨hre, him⟩ := hu
  have hprod (r : Word) {x y : Word} (hx : isFinite x = true) (hy : HasValue y 0) : HasValue (fmul r x y) 0 :=
    hasValue_fmul_zero_right hx (hasValue_zero_iff.1 hy)
  exact ⟨hasValue_fsub (hprod _ hw.1 hre) (hprod _ hw.2 him) representable_zero,
    hasValue_fadd (hprod _ hw.1 him) (hprod _ hw.2 hre) representable_zero⟩

/-- A butterfly of two equal values: their double, and a zero. -/
theorem hasValues_bfly (hg : HasValues g a b) (hu : HasValues (cmul (drawSub d 0) w u) a b)
    (ha : Representable (2 * a)) (hb : Representable (2 * b)) :
    HasValues (bfly d g u w).1 (2 * a) (2 * b) ∧ HasValues (bfly d g u w).2 0 0 := by
  have hzero (v : Int) : Representable (v - v) := by rw [sub_self]; exact representable_zero
  have hsub := And.intro (hasValue_fsub (r := drawSub d 2 [0]) hg.1 hu.1 (hzero a))
    (hasValue_fsub (r := drawSub d 2 [1]) hg.2 hu.2 (hzero b))
  rw [sub_self, sub_self] at hsub
  rw [two_mul] at ha hb ⊢
  rw [two_mul]
  exact ⟨⟨hasValue_fadd hg.1 hu.1 ha, hasValue_fadd hg.2 hu.2 hb⟩, hsub⟩

end

theorem bothFinite_twiddle (d : Draw) {k m : Nat} (hk : k < 2 ^ m) : bothFinite (twiddle d k m) := by
  rw [twiddle_eq d 0 hk]
  exact ⟨(fmag_le_one (fcos_range 0 _ (isFinite_theta hk))).1, (fmag_le_one (fsin_range 0 _ (isFinite_theta hk))).1⟩

/-! The transform of a constant. -/

theorem evens_replicate {α : Type} (n : Nat) (c : α) : evens (List.replicate (2 * n) c) = List.replicate n c := by
  refine List.ext_getElem? fun j => ?_
  simp [evens_getElem?, List.getElem?_replicate]

theorem odds_replicate {α : Type} (n : Nat) (c : α) : odds (List.replicate (2 * n) c) = List.replicate n c := by
  refine List.ext_getElem? fun j => ?_
  have hiff : 2 * j + 1 < 2 * n ↔ j < n := by omega
  simp [odds_getElem?, List.getElem?_replicate, hiff]

/-- Element `k` of the exact transform of the constant 1 of length `2^p`. -/
def dcFactor (p k : Nat) : Int := if k = 0 then 2 ^ p else 0

theorem dcFactor_succ_fst (p i : Nat) : dcFactor (p + 1) i = 2 * dcFactor p i := by
  unfold dcFactor
  split
  · exact pow_succ' 2 p
  · rfl

theorem dcFactor_succ_snd (p i : Nat) : dcFactor (p + 1) (i + 2 ^ p) = 0 := by
  have := Nat.two_pow_pos p
  exact if_neg (by omega)

theorem representable_dcFactor_mul {c : Word} (hc : isFinite c = true) {p : Nat}
    (hmax : 2 ^ p * fmag c ≤ fmag 0x7FEFFFFFFFFFFFFF) (k : Nat) : Representable (dcFactor p k * fval c) := by
  unfold dcFactor
  split
  · exact representable_two_pow_mul hc hmax
  · rw [zero_mul]; exact representable_zero

section
variable {g u : ComplexValue} {p i : Nat} {x y : Int}

/-- The twiddle factor of butterfly `i` keeps the values of element `i`: it is 1 for `i = 0`, and else they are 0. -/
theorem hasValues_cmul_twiddle (d d' : Draw) (hi : i < 2 ^ p) (hu : HasValues u (dcFactor p i * x) (dcFactor p i * y)) :
    HasValues (cmul d (twiddle d' i (p + 1)) u) (dcFactor p i * x) (dcFactor p i * y) := by
  rcases Nat.eq_zero_or_pos i with rfl | hpos
  · rw [twiddle_zero]
    exact hasValues_cmul_one rfl hu
  · have hzero : dcFactor p i = 0 := if_neg hpos.ne'
    rw [hzero, zero_mul, zero_mul] at hu ⊢
    exact hasValues_cmul_zero (bothFinite_twiddle d' (by omega)) hu

theorem hasValues_fftBfly (d : Draw) (stride offset : Nat) (hi : i < 2 ^ p)
    (hg : HasValues g (dcFactor p i * x) (dcFactor p i * y)) (hu : HasValues u (dcFactor p i * x) (dcFactor p i * y))
    (hx : Representable (dcFactor (p + 1) i * x)) (hy : Representable (dcFactor (p + 1) i * y)) :
    HasValues (fftBfly d stride offset (p + 1) i g u).1 (dcFactor (p + 1) i * x) (dcFactor (p + 1) i * y) ∧
    HasValues (fftBfly d stride offset (p + 1) i g u).2 0 0 := by
  rw [dcFactor_succ_fst, mul_assoc] at hx hy ⊢
  rw [mul_assoc]
  exact hasValues_bfly hg (hasValues_cmul_twiddle _ _ hi hu) hx hy

end

/-- Every element of the transform of a constant has exactly the value of the exact transform. -/
theorem fftWith_replicate_hasValues (d : Draw) {c : ComplexValue} (hc : bothFinite c) {p : Nat}
    (hre : 2 ^ p * fmag c.re ≤ fmag 0x7FEFFFFFFFFFFFFF) (him : 2 ^ p * fmag c.im ≤ fmag 0x7FEFFFFFFFFFFFFF)
    (stride offset : Nat) {k : Nat} (hk : k < 2 ^ p) :
    ∃ z, (fftWith (fftBfly d) p stride offset (List.replicate (2 ^ p) c))[k]? = some z ∧
      HasValues z (dcFactor p k * fval c.re) (dcFactor p k * fval c.im) := by
  induction p generalizing stride offset k with
  | zero =>
    obtain rfl : k = 0 := by omega
    exact ⟨c, rfl, ⟨hc.1, (one_mul _).symm⟩, ⟨hc.2, (one_mul _).symm⟩⟩
  | succ p ih =>
    have hrefit := representable_dcFactor_mul hc.1 hre
    have himfit := representable_dcFactor_mul hc.2 him
    rw [Nat.pow_succ', Nat.mul_assoc] at hre him
    have hhalf (offset : Nat) {i : Nat} (hi : i < 2 ^ p) := ih (by omega) (by omega) (2 * stride) offset hi
    obtain ⟨i, hi, hki⟩ := exists_butterfly_of_lt (hk.trans_eq (Nat.pow_succ' ..))
    obtain ⟨g, hg, hgv⟩ := hhalf offset hi
    obtain ⟨u, hu, huv⟩ := hhalf (offset + stride) hi
    obtain ⟨g', u', hg', hu', hfst, hsnd⟩ := fftWith_succ_getElem? (fftBfly d) stride offset
      (List.length_replicate (n := 2 ^ (p + 1)) (a := c)) hi
    rw [Nat.pow_succ', evens_replicate, hg, Option.some_inj] at hg'
    rw [Nat.pow_succ', odds_replicate, hu, Option.some_inj] at hu'
    subst hg' hu'
    obtain ⟨h1, h2⟩ := hasValues_fftBfly d stride offset hi hgv huv (hrefit i) (himfit i)
    rcases hki with rfl | rfl
    · exact ⟨_, hfst, h1⟩
    · rw [dcFactor_succ_snd, zero_mul, zero_mul]
      exact ⟨_, hsnd, h2⟩

/-- Settles O54: element 0 has the value `2^p * c`, and every other element the value 0. -/
theorem constantInputGivesOnlyDc : Obligations.ConstantInputGivesOnlyDc := by
  unfold Obligations.ConstantInputGivesOnlyDc
  intro d p c hc hre him
  have hlen : (fft d p (List.replicate (2 ^ p) c)).length = 2 ^ p := fft_length d List.length_replicate
  have hval {k : Nat} {z : ComplexValue} (hz : (fft d p (List.replicate (2 ^ p) c))[k]? = some z) :
      HasValues z (dcFactor p k * fval c.re) (dcFactor p k * fval c.im) := by
    have hk : k < 2 ^ p := hlen ▸ (List.getElem?_eq_some_iff.1 hz).1
    obtain ⟨z', hz', hv⟩ := fftWith_replicate_hasValues d hc hre him 1 0 hk
    rwa [Option.some_inj.1 (hz.symm.trans hz')]
  obtain ⟨y, ys, hy⟩ := List.exists_cons_of_length_pos (hlen ▸ Nat.two_pow_pos p)
  rw [hy] at hval
  obtain ⟨⟨hyre, hre0⟩, hyim, him0⟩ := hval (k := 0) (z := y) rfl
  refine ⟨y, ys, hy, ⟨hyre, hyim⟩, hre0, him0, fun z hz => ?_⟩
  obtain ⟨j, hj⟩ := List.mem_iff_getElem?.1 hz
  have hzero := hval (k := j + 1) (z := z) hj
  rw [dcFactor, if_neg j.succ_ne_zero, zero_mul, zero_mul] at hzero
  exact ⟨hasValue_zero_iff.1 hzero.1, hasValue_zero_iff.1 hzero.2⟩

end Sys2Proof.Machine
end
